-- ==== Sys2Proof/Word.lean ====
section
/-! DEFINITION. The word types of the block: bytes, 16-bit values, block selectors, address containers (R9, R80, R86). -/

namespace Sys2Proof

/-- R9: a byte is 8 bits. -/
abbrev Byte := BitVec 8

/-- R9, R98: offsets, pointers, counters and ports are 16-bit unsigned. -/
abbrev Half := BitVec 16

/-- R80: the block selector has 5 bits. -/
abbrev Selector := BitVec 5

/-- R34: a socket index is 0..7. -/
abbrev SockIdx := Fin 8

/-- R86: the 4-byte container of an IPv4 address or a subnet mask; `b0` is byte 0. -/
structure Quad where
  b0 : Byte
  b1 : Byte
  b2 : Byte
  b3 : Byte
  deriving DecidableEq, Repr

/-- R86: the 6-byte container of a MAC address; `b0` is byte 0. -/
structure Mac where
  b0 : Byte
  b1 : Byte
  b2 : Byte
  b3 : Byte
  b4 : Byte
  b5 : Byte
  deriving DecidableEq, Repr

/-- R23, R121: the three bytes of a frame header. -/
abbrev Header := Vector Byte 3

end Sys2Proof
end

