-- ==== Sys2Proof/Config.lean ====
section
/-! DEFINITION. What an implementation fixes (the open parameters of R8, as plain data that State carries) and the
free values: opaque constants without a body, applied to the counter that State holds. -/

namespace Sys2Proof

/-- R8: the six offset parameters of block 0. -/
structure CommonOffsets where
  mr : Half
  gar : Half
  subr : Half
  shar : Half
  sipr : Half
  versionr : Half
  deriving DecidableEq, Repr

/-- R8: the fifteen offset parameters of a socket register block. -/
structure SockOffsets where
  mr : Half
  cr : Half
  ir : Half
  sr : Half
  port : Half
  dipr : Half
  dport : Half
  rxbufSize : Half
  txbufSize : Half
  txFsr : Half
  txRd : Half
  txWr : Half
  rxRsr : Half
  rxRd : Half
  rxWr : Half
  deriving DecidableEq, Repr

/-- R8, R38: the thirteen status code parameters. -/
structure StatusCodes where
  closed : Byte
  init : Byte
  listen : Byte
  synSent : Byte
  recv : Byte
  established : Byte
  finWait : Byte
  closing : Byte
  timeWait : Byte
  closeWait : Byte
  lastAck : Byte
  udp : Byte
  macRaw : Byte
  deriving DecidableEq, Repr

/-- R99: how the chip maps a 16-bit buffer offset to a storage cell. -/
inductive BufAlias where
  | flat
  | wrapS
  deriving DecidableEq, Repr

/-- R8: `SPI_MODE`, clock polarity and clock phase. -/
structure SpiMode where
  cpol : Bool
  cpha : Bool
  deriving DecidableEq, Repr

/-- R8: every parameter the source leaves open. Log entry 1: the record is carried by State, so a statement about
every state holds for every value of every parameter. -/
structure Cfg where
  common : CommonOffsets
  sock : SockOffsets
  status : StatusCodes
  /-- R96: `RXBASE(n, S)`, one row per socket, one column per buffer size in rising order. -/
  rxBase : Vector (Vector Half 5) 8
  bufAlias : BufAlias
  /-- U18, R375: the chip's real transmit buffer sizes in bytes. -/
  chipTx : Vector Nat 8
  /-- U18, R375: the chip's real receive buffer sizes in bytes. -/
  chipRx : Vector Nat 8
  freeWaitMaxPolls : Nat
  sendOkMaxPolls : Nat
  sendOkIntervalMs : Nat
  spiMode : SpiMode
  deriving DecidableEq, Repr

/-- A free byte: counter, then place (log entry 2). -/
opaque Config.freeByte : Nat → Nat → Byte

/-- A free 16-bit value: counter, then place (log entry 2). -/
opaque Config.freeHalf : Nat → Nat → Half

/-- A free truth value: counter, then place (log entry 2). -/
opaque Config.freeBool : Nat → Nat → Bool

/-- A free natural number: one value of the randomness source once the supplied draws are used up (log entry 2). -/
opaque Config.freeNat : Nat → Nat

/-- A free finite list of bytes: counter, then place (log entry 2). -/
opaque Config.freeBytes : Nat → Nat → List Byte

/-- Free buffer contents, as address and byte pairs in any order (log entry 2). -/
opaque Config.freeCells : Nat → List (Nat × Byte)

end Sys2Proof
end

