-- ==== Sys2Proof/Machine/Params.lean ====
section
/-! DEFINITION. The parameters the source fixes (R7) and the family's offered values of those it leaves open (R8). -/

namespace Sys2Proof.Machine

/-- R7 `MR_RST`. -/
def mrRst : Byte := 0x80#8
/-- R7 `FP_SEQ`, first value. -/
def fpFirst : Byte := 0x08#8
/-- R7 `FP_SEQ`, second value. -/
def fpSecond : Byte := 0x10#8
/-- R7 `FP_SEQ`, third value. -/
def fpThird : Byte := 0x00#8
/-- R7 `VERSION_EXPECTED`. -/
def versionExpected : Byte := 0x04#8
/-- R7 `RESET_POLLS`. -/
def resetPolls : Nat := 20
/-- R7 `RESET_INTERVAL_MS`. -/
def resetIntervalMs : Nat := 1
/-- R7 `CMD_POLLS`. -/
def cmdPolls : Nat := 10
/-- R7 `CMD_INTERVAL_MS`. -/
def cmdIntervalMs : Nat := 1
/-- R7 `CONNECT_TIMEOUT_MS`. -/
def connectTimeoutMs : Nat := 5000
/-- R7 `CONNECT_INTERVAL_MS`. -/
def connectIntervalMs : Nat := 1
/-- R7 `FREE_INTERVAL_MS`. -/
def freeIntervalMs : Nat := 1
/-- R7 `EPH_BASE`. -/
def ephBase : Nat := 49152
/-- R7 `EPH_SPAN`. -/
def ephSpan : Nat := 16383
/-- R7, R132 `MODE_TCP`. -/
def modeTcp : Byte := 0x21#8
/-- R7, R132 `MODE_UDP`. -/
def modeUdp : Byte := 0x02#8
/-- R7, R131. -/
def cmdOpen : Byte := 0x01#8
/-- R7, R131. -/
def cmdListen : Byte := 0x02#8
/-- R7, R131. -/
def cmdConnect : Byte := 0x04#8
/-- R7, R131. -/
def cmdDiscon : Byte := 0x08#8
/-- R7, R131. -/
def cmdClose : Byte := 0x10#8
/-- R7, R131. -/
def cmdSend : Byte := 0x20#8
/-- R7, R131. -/
def cmdRecv : Byte := 0x40#8
/-- R7, R133 `IR_SENDOK`. -/
def irSendOk : Byte := 0x10#8
/-- R7 `IR_CLEAR_ALL`. -/
def irClearAll : Byte := 0xFF#8
/-- R7 `SPI_CLOCK_MAX`, "≤ ~8.3 MHz typical for this chip family"; no rule depends on it. -/
def spiClockMaxHz : Nat := 8300000
/-- R213, D33: the bytes of the string "tcp". -/
def protocolTcp : List Byte := [0x74#8, 0x63#8, 0x70#8]
/-- R213, D33: the bytes of the string "udp". -/
def protocolUdp : List Byte := [0x75#8, 0x64#8, 0x70#8]

/-- R8, G1: the family's offsets of block 0 (PRESUMED, log entry 1). -/
def familyCommon : CommonOffsets :=
  { mr := 0x0000#16, gar := 0x0001#16, subr := 0x0005#16, shar := 0x0009#16, sipr := 0x000F#16, versionr := 0x0039#16 }

/-- R8, G1: the family's offsets of a socket register block (PRESUMED, log entry 1). -/
def familySock : SockOffsets :=
  { mr := 0x0000#16, cr := 0x0001#16, ir := 0x0002#16, sr := 0x0003#16, port := 0x0004#16, dipr := 0x000C#16,
    dport := 0x0010#16, rxbufSize := 0x001E#16, txbufSize := 0x001F#16, txFsr := 0x0020#16, txRd := 0x0022#16,
    txWr := 0x0024#16, rxRsr := 0x0026#16, rxRd := 0x0028#16, rxWr := 0x002A#16 }

/-- R8, R135, G2: the family's status codes (PRESUMED, log entry 1). -/
def familyStatus : StatusCodes :=
  { closed := 0x00#8, init := 0x13#8, listen := 0x14#8, synSent := 0x15#8, recv := 0x16#8, established := 0x17#8,
    finWait := 0x18#8, closing := 0x1A#8, timeWait := 0x1B#8, closeWait := 0x1C#8, lastAck := 0x1D#8, udp := 0x22#8,
    macRaw := 0x42#8 }

/-- One row of the example `RXBASE_EX(n, S) = n * S` of 95_test_vectors.md (log entry 1: not attested). -/
def exampleRxRow (n : Nat) : Vector Half 5 :=
  #v[BitVec.ofNat 16 (n * 1024), BitVec.ofNat 16 (n * 2048), BitVec.ofNat 16 (n * 4096), BitVec.ofNat 16 (n * 8192),
    BitVec.ofNat 16 (n * 16384)]

/-- The example table of receive bases for the eight sockets. -/
def exampleRxBase : Vector (Vector Half 5) 8 :=
  #v[exampleRxRow 0, exampleRxRow 1, exampleRxRow 2, exampleRxRow 3, exampleRxRow 4, exampleRxRow 5, exampleRxRow 6,
    exampleRxRow 7]

/-- The parameters State.reset carries: the family's offered values of R8, the recommended `wrapS`, chip sizes equal to
the default handle size (U18), and budgets of the model's own choice (log entry 1). -/
def familyCfg : Cfg :=
  { common := familyCommon, sock := familySock, status := familyStatus, rxBase := exampleRxBase, bufAlias := .wrapS,
    chipTx := #v[2048, 2048, 2048, 2048, 2048, 2048, 2048, 2048],
    chipRx := #v[2048, 2048, 2048, 2048, 2048, 2048, 2048, 2048],
    freeWaitMaxPolls := 1000, sendOkMaxPolls := 1000, sendOkIntervalMs := 1, spiMode := ⟨false, false⟩ }

end Sys2Proof.Machine
end

