-- ==== Sys2Proof/Syntax.lean ====
section
/-! DEFINITION. The instructions: one constructor per row of the opcode table (R137, R141), the four formats, and a
host request as bytes of one format. -/

namespace Sys2Proof

/-- R141: the four formats of the opcode table. -/
inductive Format where
  | spihdr
  | sncr
  | snmr
  | hostop
  deriving DecidableEq, Repr

/-- R333: one request at the block's boundary: the bytes of one instruction of the named format. -/
structure Request where
  format : Format
  bytes : List Byte
  deriving DecidableEq, Repr

/-- The opcode table. A socket operation's `h` is the number of a handle that SOCK.NEW has given out (log entry 7). -/
inductive Instr where
  /-- SPI.READ: offset, selector, number of data-phase bytes (R160). -/
  | spiRead (blk : Selector) (off : Half) (len : Nat)
  /-- SPI.WRITE: offset, selector, data phase (R161). -/
  | spiWrite (blk : Selector) (off : Half) (data : List Byte)
  | sncrOpen (n : SockIdx)
  | sncrListen (n : SockIdx)
  | sncrConnect (n : SockIdx)
  | sncrDiscon (n : SockIdx)
  | sncrClose (n : SockIdx)
  | sncrSend (n : SockIdx)
  | sncrRecv (n : SockIdx)
  | snmrTcp (n : SockIdx)
  | snmrUdp (n : SockIdx)
  | ctlRead (blk : Selector) (off : Half) (len : Nat)
  | ctlWrite (blk : Selector) (off : Half) (data : List Byte)
  | ctlReadByte (blk : Selector) (off : Half)
  | ctlRead16 (blk : Selector) (off : Half)
  | ctlWriteByte (blk : Selector) (off : Half) (v : Byte)
  | ctlWrite16 (blk : Selector) (off : Half) (v : Half)
  | ctlSetIP (a : Quad)
  | ctlGetIP
  | ctlGetGW
  | ctlSetGW (a : Quad)
  | ctlGetSubnet
  | ctlSetSubnet (a : Quad)
  | ctlGetMac
  | ctlSetMac (a : Mac)
  | ctlConfigure
  | ctlSoftReset
  | ctlVerifyId
  /-- SOCK.NEW: index, transmit size, receive size; `none` takes the default 2048 (R210). -/
  | sockNew (n : Nat) (sTx sRx : Option Nat)
  | sockStatus (h : Half)
  | sockExec (h : Half) (code : Byte)
  /-- SOCK.OPEN: the protocol is the string's bytes, compared exactly (R213, D33). -/
  | sockOpen (h : Half) (protocol : List Byte) (port : Half)
  | sockListen (h : Half)
  | sockConnect (h : Half) (ip : Quad) (port : Half)
  | sockDisconnect (h : Half)
  | sockClose (h : Half)
  /-- SOCK.READ: `len` is the length of the caller's buffer (R240). -/
  | sockRead (h : Half) (len : Nat)
  | sockWrite (h : Half) (data : List Byte)
  deriving DecidableEq, Repr

end Sys2Proof
end

