-- ==== Sys2Proof/Machine/State.lean ====
section
/-! DEFINITION. The state of the block, the chip and their boundary, as plain data (R20), with one update per field,
the reasons a step can stop, and the state after reset. -/

namespace Sys2Proof.Machine

/-- R26: the registers of block 0. -/
inductive CommonReg where
  | mr
  | versionr
  | gar
  | subr
  | shar
  | sipr
  deriving DecidableEq, Repr

/-- R26: the registers of a socket register block. -/
inductive SockReg where
  | mr
  | cr
  | ir
  | sr
  | port
  | dipr
  | dport
  | rxbufSize
  | txbufSize
  | txFsr
  | txRd
  | txWr
  | rxRsr
  | rxRd
  | rxWr
  deriving DecidableEq, Repr

/-- R210, D11: the five legal buffer sizes. -/
inductive BufSize where
  | s1024
  | s2048
  | s4096
  | s8192
  | s16384
  deriving DecidableEq, Repr

/-- R22: a socket handle, fixed at construction. -/
structure Handle where
  n : SockIdx
  sTx : BufSize
  sRx : BufSize
  deriving DecidableEq, Repr

/-- R21, R54: the level of chip-select; not driven before Configure. -/
inductive CsLevel where
  | undriven
  | high
  | low
  deriving DecidableEq, Repr

/-- R190 step 1, R332: the bus settings Configure applies. -/
structure BusSettings where
  clockHz : Nat
  msbFirst : Bool
  mode : SpiMode
  deriving DecidableEq, Repr

/-- R337: which wait of stream Write used up its budget. -/
inductive Wait where
  | freeSpace
  | sendOk
  deriving DecidableEq, Repr

/-- R311: the errors, each with what it carries. -/
inductive Err where
  | ioError (cause : Nat)
  | configurationError (cause : Err)
  | resetTimeout (last : Byte)
  | chipNotDetected (stage : Nat) (observed : Byte)
  | commandTimeout (code : Byte)
  | invalidCommandState (code observed : Byte)
  | connectTimeout (status : Byte)
  | connectionRefused
  | sendWaitTimeout (wait : Wait) (last : Nat)
  | socketClosedDuringWrite
  | unsupportedProtocol (protocol : List Byte)
  | invalidStateError (status : Byte)
  | writeOnClosedSocket (status : Byte)
  | invalidArgument (arg : Nat)
  | unknownOperation (code : Byte)
  | payloadTooLarge (len size : Nat)
  | endOfStream
  deriving DecidableEq, Repr

/-- R11, R137: the value an operation returns on success. -/
inductive OpValue where
  | unit
  | byte (v : Byte)
  | half (v : Half)
  | bytes (v : List Byte)
  /-- The number the new handle is known by, and the handle (R210). -/
  | handle (id : Nat) (h : Handle)
  deriving DecidableEq, Repr

/-- R11: what the host receives. The stream operations give a pair. -/
inductive OpResult where
  | done (v : OpValue)
  | failed (e : Err)
  | stream (count : Nat) (err : Option Err)
  deriving DecidableEq, Repr

/-- R24: the operations whose numbered steps the sequencer can be at. -/
inductive SeqOp where
  | read
  | write
  | configure
  | softReset
  | verifyId
  | newSocket
  | status
  | exec
  | openSocket
  | listen
  | connect
  | disconnect
  | close
  | streamRead
  | streamWrite
  deriving DecidableEq, Repr

/-- R24: idle, or the pair (operation, step); `sub` counts the lettered sub-steps of R255 (0 for none, 1 for a). -/
inductive Sequencer where
  | idle
  | running (op : SeqOp) (step : Nat) (sub : Nat)
  deriving DecidableEq, Repr

/-- R23: the thirteen working latches. -/
structure Latches where
  hdr : Header
  st : Byte
  cmd : Byte
  crv : Byte
  poll : Nat
  t0 : Nat
  sz : Half
  ptr : Half
  cnt : Nat
  addr : Half
  port : Half
  irv : Byte
  mrv : Byte
  deriving DecidableEq, Repr

/-- R23: between operations the latches hold no value; log entry 6 gives the dead latch the value 0. -/
def Latches.dead : Latches :=
  { hdr := #v[0, 0, 0], st := 0, cmd := 0, crv := 0, poll := 0, t0 := 0, sz := 0, ptr := 0, cnt := 0, addr := 0,
    port := 0, irv := 0, mrv := 0 }

/-- R34 to R49: one bank of socket registers, then the hidden state of the socket (R53). -/
structure Socket where
  mr : Byte
  cr : Byte
  ir : Byte
  sr : Byte
  port : Half
  dipr : Quad
  dport : Half
  rxbufSize : Byte
  txbufSize : Byte
  txFsr : Half
  txRd : Half
  txWr : Half
  rxRsr : Half
  rxRd : Half
  rxWr : Half
  /-- R276, U4: the byte written to Sn_CR that the chip has not taken; none when there is none. -/
  pending : Option Byte
  /-- R53 (d), R276: commands accepted and not finished, oldest first. -/
  inProgress : List Byte
  /-- R283: the receive read pointer as the last RECV took it (log entry 9). -/
  rxAck : Half
  /-- R282: the bytes transmitted so far, oldest first (log entry 9). -/
  sent : List Byte
  deriving DecidableEq, Repr

/-- R20, R26, R51: the chip. `mem` holds the buffer cells in rising order of key, none of them zero (Memory.wf). -/
structure Chip where
  mr : Byte
  versionr : Byte
  gar : Quad
  subr : Quad
  shar : Mac
  sipr : Quad
  sock : Vector Socket 8
  mem : List Host.Cell
  /-- R27, R288: a soft reset has been started and is not complete. -/
  resetting : Bool
  deriving DecidableEq, Repr

/-- R275 to R293: the steps the chip may take by itself. A step that its condition does not enable changes nothing. -/
inductive ChipEvent where
  /-- R276, U4: take the byte written to Sn_CR: clear the register and start the action. -/
  | accept (n : SockIdx)
  /-- R276 to R283: the action of the oldest command in progress takes effect. -/
  | perform (n : SockIdx)
  /-- R276, U11: while the byte written is not yet taken, a chip in a fault shows another value than 0x00 in Sn_CR. -/
  | crShows (n : SockIdx) (v : Byte)
  /-- R285, R286: the chip changes the status. -/
  | status (n : SockIdx) (v : Byte)
  /-- R291: the chip sets interrupt bits other than bit 4, which the action of SEND sets (R37, R108). -/
  | setFlags (n : SockIdx) (bits : Byte)
  /-- R292: the chip updates the transmit free size. -/
  | freeSize (n : SockIdx) (v : Half)
  /-- R45, R282: the chip sends a part of the data of the SEND in progress and moves its transmit read pointer past it (log
  entry 40). -/
  | sentUpTo (n : SockIdx) (v : Half)
  /-- R293: bytes arrive. -/
  | arrive (n : SockIdx) (data : List Byte)
  /-- R47, R105: the chip updates the received size otherwise. -/
  | received (n : SockIdx) (v : Half)
  /-- R288: what MR shows while a reset runs; never 0x00, which says that it is complete. -/
  | mrShows (v : Byte)
  /-- R288: a running reset completes. -/
  | resetDone
  deriving DecidableEq, Repr

/-- R138, R332: what leaves the block at its boundary. -/
inductive BusAct where
  /-- One frame that completed: header, data phase. -/
  | frame (hdr : Header) (data : List Byte)
  /-- A frame whose header transfer failed (R162). -/
  | headerFailed (hdr : Header)
  /-- A frame whose data transfer failed (R162). -/
  | dataFailed (hdr : Header)
  | sleep (ms : Nat)
  | now (t : Nat)
  | rand (v : Nat)
  /-- R334: the log line of Open step 5. -/
  | log
  deriving DecidableEq, Repr

/-- R55: the environment's choices, each list used from its head (log entry 3). -/
structure Env where
  /-- Per call of the transfer primitive: `none` completes, `some c` fails with cause `c`; used up: completes. -/
  transfers : List (Option Nat)
  /-- Per gap between transactions: the steps the chip takes in it; used up: none. -/
  chip : List (List ChipEvent)
  /-- Per sleep or clock reading: by how many milliseconds more the clock moves; used up: 0. -/
  delays : List Nat
  /-- Per draw of the randomness source; used up: a free value. -/
  rand : List Nat
  /-- Per frame: whether no chip of this family answers it (R192, R363); used up: one does. -/
  missed : List Bool
  /-- Per command byte given as an instruction: whether its action takes effect later than its acceptance (R276), by a
  `perform` step; used up: at once. -/
  defer : List Bool
  deriving DecidableEq, Repr

/-- The whole state: parameters, free-value counter, environment, block, host boundary, clock, chip. -/
structure State where
  cfg : Cfg
  free : Nat
  env : Env
  cs : CsLevel
  bus : Option BusSettings
  handles : List Handle
  seq : Sequencer
  lat : Latches
  requests : List Request
  result : Option OpResult
  dest : List Byte
  out : List BusAct
  clock : Nat
  chip : Chip
  deriving DecidableEq, Repr

def State.setFree (v : Nat) (s : State) : State := { s with free := v }
def State.setEnv (v : Env) (s : State) : State := { s with env := v }
def State.setCs (v : CsLevel) (s : State) : State := { s with cs := v }
def State.setBus (v : Option BusSettings) (s : State) : State := { s with bus := v }
def State.setHandles (v : List Handle) (s : State) : State := { s with handles := v }
def State.setSeq (v : Sequencer) (s : State) : State := { s with seq := v }
def State.setLat (v : Latches) (s : State) : State := { s with lat := v }
def State.setRequests (v : List Request) (s : State) : State := { s with requests := v }
def State.setResult (v : Option OpResult) (s : State) : State := { s with result := v }
def State.setDest (v : List Byte) (s : State) : State := { s with dest := v }
def State.setOut (v : List BusAct) (s : State) : State := { s with out := v }
def State.setClock (v : Nat) (s : State) : State := { s with clock := v }
def State.setChip (v : Chip) (s : State) : State := { s with chip := v }

/-- Why the machine stops with a fault. -/
inductive Fault where
  /-- U2: a frame with length mode 1, 2 or 3 is forced on the bus; raised by step. The spec calls it stuck. Safe: the
  model stops where the chip does something unknown. -/
  | reservedLengthMode (om : BitVec 2)
  /-- R333: a request is taken only when the sequencer is idle; raised by step in a state that no run reaches. Safe. -/
  | sequencerBusy
  deriving DecidableEq, Repr

/-- Why a request is refused. -/
inductive Refusal where
  /-- The instruction has no meaning in the model yet; raised by exec. Safe. -/
  | notModelled (mnemonic : String)
  /-- The request names a handle no SOCK.NEW has given out, which the source's typed interface cannot do; raised by the
  SOCK operations. Safe: the model stops (log entry 7). -/
  | noSuchHandle (h : Half)
  /-- The request bytes carry no instruction: operand bytes missing, left over or out of range; raised by step. Safe. -/
  | malformedRequest
  /-- R136: a command byte with no row in the table, given as an instruction of its own; raised by step. Safe. -/
  | reservedCommand (code : Byte)
  /-- R136: a mode byte with no row in the table, given as an instruction of its own; raised by step. Safe. -/
  | reservedMode (code : Byte)
  deriving DecidableEq, Repr

/-- R54, G5: a socket bank at the family's reset values (PRESUMED, log entry 5). -/
def Socket.reset : Socket :=
  { mr := 0x00#8, cr := 0x00#8, ir := 0x00#8, sr := 0x00#8, port := 0#16, dipr := ⟨0, 0, 0, 0⟩, dport := 0#16,
    rxbufSize := 0x02#8, txbufSize := 0x02#8, txFsr := 0x0800#16, txRd := 0#16, txWr := 0#16, rxRsr := 0#16,
    rxRd := 0#16, rxWr := 0#16, pending := none, inProgress := [], rxAck := 0#16, sent := [] }

/-- R54: MR and VERSIONR as stated; the rest the family's values (log entry 5); no buffer cell listed (log entry 8). -/
def Chip.reset : Chip :=
  { mr := 0x00#8, versionr := 0x04#8, gar := ⟨0, 0, 0, 0⟩, subr := ⟨0, 0, 0, 0⟩, shar := ⟨0, 0, 0, 0, 0, 0⟩,
    sipr := ⟨0, 0, 0, 0⟩,
    sock := #v[Socket.reset, Socket.reset, Socket.reset, Socket.reset, Socket.reset, Socket.reset, Socket.reset,
      Socket.reset],
    mem := [], resetting := false }

/-- R54, R362: the block just constructed, beside a chip just reset. -/
def State.reset : State :=
  { cfg := familyCfg, free := 0, env := { transfers := [], chip := [], delays := [], rand := [], missed := [], defer := [] },
    cs := .undriven, bus := none, handles := [⟨0, .s2048, .s2048⟩], seq := .idle, lat := Latches.dead, requests := [],
    result := none, dest := [], out := [], clock := 0, chip := Chip.reset }

end Sys2Proof.Machine
end

