-- ==== Sys2Proof/Machine/Flags.lean ====
section
/-! DEFINITION. The only flags of this hardware: the bits of Sn_IR (R37, R52, R133, R291). -/

namespace Sys2Proof.Machine

/-- R133, R259: the test Write makes, `(IRV & 0x10) != 0`. -/
def sendOkSet (ir : Byte) : Bool := (ir &&& irSendOk) != 0#8

/-- R37: a write clears exactly the bits that are 1 in the written byte and leaves the others. -/
def clearOnOne (ir written : Byte) : Byte := ir &&& ~~~written

/-- R291: the chip sets bits and clears none. -/
def setFlags (ir bits : Byte) : Byte := ir ||| bits

end Sys2Proof.Machine
end

