-- ==== Sys2Proof/WellFormed.lean ====
section
/-! DEFINITION. Which instructions the request encoding can carry (log entry 12): every typed operand fits by its
type; the three natural operands of SOCK.NEW have bounds. -/

namespace Sys2Proof

/-- A size argument fits the four bytes the request encoding gives it. -/
def sizeFits : Option Nat → Bool
  | none => true
  | some n => n < 4294967296

/-- The index of SOCK.NEW fits a byte and its sizes fit four bytes; every other operand fits by its type. -/
def WellFormed : Instr → Bool
  | .sockNew n sTx sRx => n < 256 && sizeFits sTx && sizeFits sRx
  | .spiRead .. | .spiWrite .. | .sncrOpen .. | .sncrListen .. | .sncrConnect .. | .sncrDiscon .. | .sncrClose ..
  | .sncrSend .. | .sncrRecv .. | .snmrTcp .. | .snmrUdp .. | .ctlRead .. | .ctlWrite .. | .ctlReadByte ..
  | .ctlRead16 .. | .ctlWriteByte .. | .ctlWrite16 .. | .ctlSetIP .. | .ctlGetIP | .ctlGetGW | .ctlSetGW ..
  | .ctlGetSubnet | .ctlSetSubnet .. | .ctlGetMac | .ctlSetMac .. | .ctlConfigure | .ctlSoftReset | .ctlVerifyId
  | .sockStatus .. | .sockExec .. | .sockOpen .. | .sockListen .. | .sockConnect .. | .sockDisconnect ..
  | .sockClose .. | .sockRead .. | .sockWrite .. => true

end Sys2Proof
end

