-- ==== Sys2Proof/Decode.lean ====
section
/-! DEFINITION. Byte-order helpers (R9), the frame header (R121 to R127), the decoder of request bytes, total and
rejecting by name, and the encoder. Operand bytes of host operations: log entry 12. -/

namespace Sys2Proof

/-- R9: `v[15:8]`. -/
def hi8 (v : Half) : Byte := v.extractLsb' 8 8

/-- R9: `v[7:0]`. -/
def lo8 (v : Half) : Byte := v.extractLsb' 0 8

/-- R9: `b0*256 + b1`. -/
def be16 (b0 b1 : Byte) : Half := b0 ++ b1

/-- R86: byte `i` of the container is the `i`-th byte of the data phase. -/
def Quad.toList (q : Quad) : List Byte := [q.b0, q.b1, q.b2, q.b3]

/-- R86. -/
def Mac.toList (m : Mac) : List Byte := [m.b0, m.b1, m.b2, m.b3, m.b4, m.b5]

/-- R127: `(blk << 3) | (rw << 2) | 0`. -/
def ctrlByte (blk : Selector) (write : Bool) : Byte :=
  (blk.setWidth 8 <<< 3) ||| ((if write then 1#8 else 0#8) <<< 2)

/-- R127: `blk = c[7:3]`. -/
def ctrlSelector (c : Byte) : Selector := c.extractLsb' 3 5

/-- R127: `rw = c[2]`. -/
def ctrlWrite (c : Byte) : Bool := c.getLsbD 2

/-- R127: `om = c[1:0]`. -/
def ctrlMode (c : Byte) : BitVec 2 := c.extractLsb' 0 2

/-- R127: `HDR(blk, off, rw)`. -/
def header (blk : Selector) (off : Half) (write : Bool) : Header :=
  #v[hi8 off, lo8 off, ctrlByte blk write]

/-- Why request bytes are no instruction. -/
inductive DecodeError where
  /-- R325: a host operation code that is not in R137's table. -/
  | unknownOperation (code : Byte)
  /-- U2: a frame header whose length mode is 1, 2 or 3. -/
  | reservedLengthMode (om : BitVec 2)
  /-- R136: a command byte that is none of the seven. -/
  | reservedCommand (code : Byte)
  /-- R136: a mode byte that is neither 0x21 nor 0x02. -/
  | reservedMode (code : Byte)
  /-- Operand bytes that are missing, left over or out of range. -/
  | malformed
  deriving DecidableEq, Repr

/-- A request byte as a block selector: 0..31. -/
def selectorOf (b : Byte) : Except DecodeError Selector :=
  if b.toNat < 32 then .ok (b.setWidth 5) else .error .malformed

/-- A request byte as a socket index: 0..7. -/
def sockIdxOf (b : Byte) : Except DecodeError SockIdx :=
  if h : b.toNat < 8 then .ok ⟨b.toNat, h⟩ else .error .malformed

/-- Follow a parsed operand; a failed one ends the decoding. -/
def parsed {α β : Type} (r : Except DecodeError α) (f : α → Except DecodeError β) : Except DecodeError β :=
  match r with
  | .ok a => f a
  | .error e => .error e

/-- Four bytes, high byte first, as a natural. -/
def nat32 (a b c d : Byte) : Nat := (a ++ b ++ c ++ d : BitVec 32).toNat

/-- An optional size argument: 0 for "not given", or 1 and four bytes. -/
def sizeArg : List Byte → Option (Option Nat × List Byte)
  | 0#8 :: rest => some (none, rest)
  | 1#8 :: a :: b :: c :: d :: rest => some (some (nat32 a b c d), rest)
  | _ => none

/-- R120, R121, R125: the first three bytes are the header, all the others the data phase. -/
def decodeFrame : List Byte → Except DecodeError Instr
  | hi :: lo :: c :: data =>
    if ctrlMode c ≠ 0 then .error (.reservedLengthMode (ctrlMode c))
    else if ctrlWrite c then .ok (.spiWrite (ctrlSelector c) (be16 hi lo) data)
    else .ok (.spiRead (ctrlSelector c) (be16 hi lo) data.length)
  | _ => .error .malformed

/-- R131: the command byte, then the socket index (log entry 12). -/
def decodeCommand : List Byte → Except DecodeError Instr
  | [code, n] =>
    parsed (sockIdxOf n) fun n =>
      match code.toNat with
      | 0x01 => .ok (.sncrOpen n)
      | 0x02 => .ok (.sncrListen n)
      | 0x04 => .ok (.sncrConnect n)
      | 0x08 => .ok (.sncrDiscon n)
      | 0x10 => .ok (.sncrClose n)
      | 0x20 => .ok (.sncrSend n)
      | 0x40 => .ok (.sncrRecv n)
      | _ => .error (.reservedCommand code)
  | _ => .error .malformed

/-- R132: the mode byte, then the socket index (log entry 12). -/
def decodeMode : List Byte → Except DecodeError Instr
  | [code, n] =>
    parsed (sockIdxOf n) fun n =>
      match code.toNat with
      | 0x21 => .ok (.snmrTcp n)
      | 0x02 => .ok (.snmrUdp n)
      | _ => .error (.reservedMode code)
  | _ => .error .malformed

/-- Operands of CTL.READ .. CTL.WRITE16: selector, offset high byte first, then the operation's own bytes. -/
def decodeAddressed (args : List Byte) (f : Selector → Half → List Byte → Except DecodeError Instr) :
    Except DecodeError Instr :=
  match args with
  | b :: hi :: lo :: rest => parsed (selectorOf b) fun blk => f blk (be16 hi lo) rest
  | _ => .error .malformed

/-- Operands of the socket operations: handle number high byte first, then the operation's own bytes. -/
def decodeHandled (args : List Byte) (f : Half → List Byte → Except DecodeError Instr) : Except DecodeError Instr :=
  match args with
  | hi :: lo :: rest => f (be16 hi lo) rest
  | _ => .error .malformed

/-- An operation with no further operand bytes. -/
def decodeDone (i : Instr) : List Byte → Except DecodeError Instr
  | [] => .ok i
  | _ => .error .malformed

/-- A four-byte container operand (R86). -/
def decodeQuad (f : Quad → Instr) : List Byte → Except DecodeError Instr
  | [a, b, c, d] => .ok (f ⟨a, b, c, d⟩)
  | _ => .error .malformed

/-- A six-byte container operand (R86). -/
def decodeMac (f : Mac → Instr) : List Byte → Except DecodeError Instr
  | [a, b, c, d, e, g] => .ok (f ⟨a, b, c, d, e, g⟩)
  | _ => .error .malformed

/-- R210: index, then the two optional sizes. -/
def decodeNew : List Byte → Except DecodeError Instr
  | n :: rest =>
    match sizeArg rest with
    | some (sTx, rest) =>
      match sizeArg rest with
      | some (sRx, []) => .ok (.sockNew n.toNat sTx sRx)
      | _ => .error .malformed
    | none => .error .malformed
  | [] => .error .malformed

/-- R137: the operation code, then its operands. -/
def decodeHost : List Byte → Except DecodeError Instr
  | [] => .error .malformed
  | op :: args =>
    match op.toNat with
    | 0x01 => decodeAddressed args fun blk off buf => .ok (.ctlRead blk off buf.length)
    | 0x02 => decodeAddressed args fun blk off data => .ok (.ctlWrite blk off data)
    | 0x03 => decodeAddressed args fun blk off => decodeDone (.ctlReadByte blk off)
    | 0x04 => decodeAddressed args fun blk off => decodeDone (.ctlRead16 blk off)
    | 0x05 => decodeAddressed args fun blk off r =>
        match r with
        | [v] => .ok (.ctlWriteByte blk off v)
        | _ => .error .malformed
    | 0x06 => decodeAddressed args fun blk off r =>
        match r with
        | [h, l] => .ok (.ctlWrite16 blk off (be16 h l))
        | _ => .error .malformed
    | 0x10 => decodeQuad .ctlSetIP args
    | 0x11 => decodeDone .ctlGetIP args
    | 0x12 => decodeDone .ctlGetGW args
    | 0x13 => decodeQuad .ctlSetGW args
    | 0x14 => decodeDone .ctlGetSubnet args
    | 0x15 => decodeQuad .ctlSetSubnet args
    | 0x16 => decodeDone .ctlGetMac args
    | 0x17 => decodeMac .ctlSetMac args
    | 0x20 => decodeDone .ctlConfigure args
    | 0x21 => decodeDone .ctlSoftReset args
    | 0x22 => decodeDone .ctlVerifyId args
    | 0x30 => decodeNew args
    | 0x31 => decodeHandled args fun h => decodeDone (.sockStatus h)
    | 0x32 => decodeHandled args fun h r =>
        match r with
        | [c] => .ok (.sockExec h c)
        | _ => .error .malformed
    | 0x33 => decodeHandled args fun h r =>
        match r with
        | p :: q :: protocol => .ok (.sockOpen h protocol (be16 p q))
        | _ => .error .malformed
    | 0x34 => decodeHandled args fun h => decodeDone (.sockListen h)
    | 0x35 => decodeHandled args fun h r =>
        match r with
        | [a, b, c, d, p, q] => .ok (.sockConnect h ⟨a, b, c, d⟩ (be16 p q))
        | _ => .error .malformed
    | 0x36 => decodeHandled args fun h => decodeDone (.sockDisconnect h)
    | 0x37 => decodeHandled args fun h => decodeDone (.sockClose h)
    | 0x40 => decodeHandled args fun h buf => .ok (.sockRead h buf.length)
    | 0x41 => decodeHandled args fun h data => .ok (.sockWrite h data)
    | _ => .error (.unknownOperation op)

/-- The decoder, total on any bytes of any format. -/
def decode (r : Request) : Except DecodeError Instr :=
  match r.format with
  | .spihdr => decodeFrame r.bytes
  | .sncr => decodeCommand r.bytes
  | .snmr => decodeMode r.bytes
  | .hostop => decodeHost r.bytes

/-- A selector as a request byte. -/
def selectorByte (blk : Selector) : Byte := blk.setWidth 8

/-- A socket index as a request byte. -/
def sockIdxByte (n : SockIdx) : Byte := BitVec.ofNat 8 n.val

/-- Selector and offset as request bytes. -/
def addressBytes (blk : Selector) (off : Half) : List Byte := [selectorByte blk, hi8 off, lo8 off]

/-- A 16-bit value as bytes, high byte first (R128). -/
def halfBytes (v : Half) : List Byte := [hi8 v, lo8 v]

/-- An optional size as request bytes. -/
def sizeBytes : Option Nat → List Byte
  | none => [0#8]
  | some n =>
    let v := BitVec.ofNat 32 n
    [1#8, v.extractLsb' 24 8, v.extractLsb' 16 8, v.extractLsb' 8 8, v.extractLsb' 0 8]

/-- The encoder: the request of an instruction, from the same tables (R121, R131, R132, R137). -/
def encode : Instr → Request
  | .spiRead blk off n => ⟨.spihdr, (header blk off false).toList ++ List.replicate n 0#8⟩
  | .spiWrite blk off d => ⟨.spihdr, (header blk off true).toList ++ d⟩
  | .sncrOpen n => ⟨.sncr, [0x01#8, sockIdxByte n]⟩
  | .sncrListen n => ⟨.sncr, [0x02#8, sockIdxByte n]⟩
  | .sncrConnect n => ⟨.sncr, [0x04#8, sockIdxByte n]⟩
  | .sncrDiscon n => ⟨.sncr, [0x08#8, sockIdxByte n]⟩
  | .sncrClose n => ⟨.sncr, [0x10#8, sockIdxByte n]⟩
  | .sncrSend n => ⟨.sncr, [0x20#8, sockIdxByte n]⟩
  | .sncrRecv n => ⟨.sncr, [0x40#8, sockIdxByte n]⟩
  | .snmrTcp n => ⟨.snmr, [0x21#8, sockIdxByte n]⟩
  | .snmrUdp n => ⟨.snmr, [0x02#8, sockIdxByte n]⟩
  | .ctlRead blk off n => ⟨.hostop, 0x01#8 :: addressBytes blk off ++ List.replicate n 0#8⟩
  | .ctlWrite blk off d => ⟨.hostop, 0x02#8 :: addressBytes blk off ++ d⟩
  | .ctlReadByte blk off => ⟨.hostop, 0x03#8 :: addressBytes blk off⟩
  | .ctlRead16 blk off => ⟨.hostop, 0x04#8 :: addressBytes blk off⟩
  | .ctlWriteByte blk off v => ⟨.hostop, 0x05#8 :: addressBytes blk off ++ [v]⟩
  | .ctlWrite16 blk off v => ⟨.hostop, 0x06#8 :: addressBytes blk off ++ halfBytes v⟩
  | .ctlSetIP a => ⟨.hostop, 0x10#8 :: a.toList⟩
  | .ctlGetIP => ⟨.hostop, [0x11#8]⟩
  | .ctlGetGW => ⟨.hostop, [0x12#8]⟩
  | .ctlSetGW a => ⟨.hostop, 0x13#8 :: a.toList⟩
  | .ctlGetSubnet => ⟨.hostop, [0x14#8]⟩
  | .ctlSetSubnet a => ⟨.hostop, 0x15#8 :: a.toList⟩
  | .ctlGetMac => ⟨.hostop, [0x16#8]⟩
  | .ctlSetMac a => ⟨.hostop, 0x17#8 :: a.toList⟩
  | .ctlConfigure => ⟨.hostop, [0x20#8]⟩
  | .ctlSoftReset => ⟨.hostop, [0x21#8]⟩
  | .ctlVerifyId => ⟨.hostop, [0x22#8]⟩
  | .sockNew n sTx sRx => ⟨.hostop, 0x30#8 :: BitVec.ofNat 8 n :: sizeBytes sTx ++ sizeBytes sRx⟩
  | .sockStatus h => ⟨.hostop, 0x31#8 :: halfBytes h⟩
  | .sockExec h c => ⟨.hostop, 0x32#8 :: halfBytes h ++ [c]⟩
  | .sockOpen h p port => ⟨.hostop, 0x33#8 :: halfBytes h ++ halfBytes port ++ p⟩
  | .sockListen h => ⟨.hostop, 0x34#8 :: halfBytes h⟩
  | .sockConnect h ip port => ⟨.hostop, 0x35#8 :: halfBytes h ++ ip.toList ++ halfBytes port⟩
  | .sockDisconnect h => ⟨.hostop, 0x36#8 :: halfBytes h⟩
  | .sockClose h => ⟨.hostop, 0x37#8 :: halfBytes h⟩
  | .sockRead h n => ⟨.hostop, 0x40#8 :: halfBytes h ++ List.replicate n 0#8⟩
  | .sockWrite h d => ⟨.hostop, 0x41#8 :: halfBytes h ++ d⟩

/-- How many operand bytes a host operation needs at least; none for a code outside R137's table. -/
def hostOperandBytes (op : Nat) : Option Nat :=
  if op = 0x01 ∨ op = 0x02 ∨ op = 0x03 ∨ op = 0x04 then some 3
  else if op = 0x05 then some 4
  else if op = 0x06 then some 5
  else if op = 0x10 ∨ op = 0x13 ∨ op = 0x15 then some 4
  else if op = 0x11 ∨ op = 0x12 ∨ op = 0x14 ∨ op = 0x16 ∨ op = 0x20 ∨ op = 0x21 ∨ op = 0x22 then some 0
  else if op = 0x17 then some 6
  else if op = 0x30 then some 3
  else if op = 0x31 ∨ op = 0x34 ∨ op = 0x36 ∨ op = 0x37 ∨ op = 0x40 ∨ op = 0x41 then some 2
  else if op = 0x32 then some 3
  else if op = 0x33 then some 4
  else if op = 0x35 then some 8
  else none

/-- The request that stands for a table word of `nbits` bits: 24 bits are a frame header, first byte in bits 23:16,
with an empty data phase; 8 bits are an operation, command or mode byte with operand bytes of zero.
Log entry 13: the table's 8-bit formats share codes, so a byte that is a host operation is taken as one. -/
def tableRequest (nbits w : Nat) : Request :=
  let v := BitVec.ofNat 24 w
  if nbits = 24 then ⟨.spihdr, [v.extractLsb' 16 8, v.extractLsb' 8 8, v.extractLsb' 0 8]⟩
  else
    let b := BitVec.ofNat 8 w
    match hostOperandBytes b.toNat with
    | some k => ⟨.hostop, b :: List.replicate k 0#8⟩
    | none =>
      match decodeCommand [b, 0#8], decodeMode [b, 0#8] with
      | .ok _, _ => ⟨.sncr, [b, 0#8]⟩
      | _, .ok _ => ⟨.snmr, [b, 0#8]⟩
      | _, _ => ⟨.hostop, [b]⟩

/-- The instruction the decoder reads from a table word; the table has words of 8 and of 24 bits. -/
def decodeTableWord (nbits w : Nat) : Option Instr :=
  if nbits = 8 ∨ nbits = 24 then
    match decode (tableRequest nbits w) with
    | .ok i => some i
    | .error _ => none
  else none

end Sys2Proof
end

