-- ==== Sys2Proof/Machine/Memory.lean ====
section
/-! DEFINITION. The buffer memories as a list of cells in one canonical form (R51, R99; log entry 8). -/

namespace Sys2Proof.Machine

/-- What a cell that nothing has written reads as (log entry 8, DESIGN CHOICE: the spec gives no contents). -/
def Memory.unlisted : Byte := 0x00#8

/-- The byte of one cell. -/
def Memory.read : List Host.Cell → Nat → Byte
  | [], _ => Memory.unlisted
  | (k, v) :: rest, a => if k = a then v else Memory.read rest a

/-- Store one byte, keeping the canonical form. -/
def Memory.write (a : Nat) (v : Byte) : List Host.Cell → List Host.Cell
  | [] => if v = Memory.unlisted then [] else [(a, v)]
  | (k, w) :: rest =>
    if a < k then (if v = Memory.unlisted then (k, w) :: rest else (a, v) :: (k, w) :: rest)
    else if a = k then (if v = Memory.unlisted then rest else (a, v) :: rest)
    else (k, w) :: Memory.write a v rest

/-- Every key of the list is above `a`. -/
def Memory.above (a : Nat) : List Host.Cell → Bool
  | [] => true
  | (k, _) :: rest => a < k && Memory.above a rest

/-- The canonical form: keys strictly rising, no cell equal to what an unlisted one reads as. -/
def Memory.wf : List Host.Cell → Bool
  | [] => true
  | (k, v) :: rest => v != Memory.unlisted && Memory.above k rest && Memory.wf rest

/-- Cells in any order, put into canonical form. -/
def Memory.ofCells : List (Nat × Byte) → List Host.Cell
  | [] => []
  | (k, v) :: rest => Memory.write k v (Memory.ofCells rest)

end Sys2Proof.Machine
end

