-- ==== Sys2Proof/Machine/Operands.lean ====
section
/-! DEFINITION. Operand forms: buffer sizes, selectors, the circular addresses, register bytes, and what a
(selector, offset) pair names (R80 to R101, R129). -/

namespace Sys2Proof.Machine

/-- R129, D11: the size in bytes. -/
def BufSize.bytes : BufSize → Nat
  | .s1024 => 1024
  | .s2048 => 2048
  | .s4096 => 4096
  | .s8192 => 8192
  | .s16384 => 16384

/-- R129: `SIZECODE(S) = log2(S / 1024)`. -/
def BufSize.code : BufSize → Byte
  | .s1024 => 0#8
  | .s2048 => 1#8
  | .s4096 => 2#8
  | .s8192 => 3#8
  | .s16384 => 4#8

/-- R210 step 2: the five legal sizes. -/
def BufSize.ofNat? (n : Nat) : Option BufSize :=
  if n = 1024 then some .s1024
  else if n = 2048 then some .s2048
  else if n = 4096 then some .s4096
  else if n = 8192 then some .s8192
  else if n = 16384 then some .s16384
  else none

/-- The column of a size in the table of receive bases. -/
def BufSize.column : BufSize → Fin 5
  | .s1024 => 0
  | .s2048 => 1
  | .s4096 => 2
  | .s8192 => 3
  | .s16384 => 4

/-- R81: `REGBLK(n) = 4n+1`. -/
def regBlk (n : SockIdx) : Selector := BitVec.ofNat 5 (4 * n.val + 1)

/-- R81: `TXBLK(n) = 4n+2`. -/
def txBlk (n : SockIdx) : Selector := BitVec.ofNat 5 (4 * n.val + 2)

/-- R81: `RXBLK(n) = 4n+3`. -/
def rxBlk (n : SockIdx) : Selector := BitVec.ofNat 5 (4 * n.val + 3)

/-- R8: `RXBASE(n, S)`. -/
def rxBase (c : Cfg) (n : SockIdx) (size : BufSize) : Half := (c.rxBase.get n).get size.column

/-- R94: `u16((p & (S - 1)) + RXBASE(n, S))`. -/
def rxAddr (c : Cfg) (n : SockIdx) (size : BufSize) (p : Half) : Half :=
  (p &&& BitVec.ofNat 16 (size.bytes - 1)) + rxBase c n size

/-- R95: `u16(p + n * S)`, not masked (C2). -/
def txAddr (n : SockIdx) (size : BufSize) (p : Half) : Half := p + BitVec.ofNat 16 (n.val * size.bytes)

/-- R130, R214, D19: `49152 + (Rand() mod 16383)`. -/
def ephemeralPort (draw : Nat) : Half := BitVec.ofNat 16 (ephBase + draw % ephSpan)

/-- R86: byte `i` of a container. -/
def quadByte (q : Quad) : Nat → Byte
  | 0 => q.b0
  | 1 => q.b1
  | 2 => q.b2
  | _ => q.b3

/-- R86. -/
def setQuadByte (q : Quad) (v : Byte) : Nat → Quad
  | 0 => { q with b0 := v }
  | 1 => { q with b1 := v }
  | 2 => { q with b2 := v }
  | _ => { q with b3 := v }

/-- R86. -/
def macByte (m : Mac) : Nat → Byte
  | 0 => m.b0
  | 1 => m.b1
  | 2 => m.b2
  | 3 => m.b3
  | 4 => m.b4
  | _ => m.b5

/-- R86. -/
def setMacByte (m : Mac) (v : Byte) : Nat → Mac
  | 0 => { m with b0 := v }
  | 1 => { m with b1 := v }
  | 2 => { m with b2 := v }
  | 3 => { m with b3 := v }
  | 4 => { m with b4 := v }
  | _ => { m with b5 := v }

/-- R85: the high byte of a 16-bit register is at the lower offset. -/
def halfByteAt (v : Half) : Nat → Byte
  | 0 => hi8 v
  | _ => lo8 v

/-- R85. -/
def setHalfByteAt (v : Half) (b : Byte) : Nat → Half
  | 0 => be16 b (lo8 v)
  | _ => be16 (hi8 v) b

/-- R8: width in bytes. -/
def CommonReg.width : CommonReg → Nat
  | .mr | .versionr => 1
  | .gar | .subr | .sipr => 4
  | .shar => 6

/-- R8: width in bytes. -/
def SockReg.width : SockReg → Nat
  | .mr | .cr | .ir | .sr | .rxbufSize | .txbufSize => 1
  | .port | .dport | .txFsr | .txRd | .txWr | .rxRsr | .rxRd | .rxWr => 2
  | .dipr => 4

/-- R26. -/
def CommonReg.all : List CommonReg := [.mr, .versionr, .gar, .subr, .shar, .sipr]

/-- R26. -/
def SockReg.all : List SockReg :=
  [.mr, .cr, .ir, .sr, .port, .dipr, .dport, .rxbufSize, .txbufSize, .txFsr, .txRd, .txWr, .rxRsr, .rxRd, .rxWr]

/-- R26: the first offset of a common register. -/
def commonOff (c : Cfg) : CommonReg → Half
  | .mr => c.common.mr
  | .versionr => c.common.versionr
  | .gar => c.common.gar
  | .subr => c.common.subr
  | .shar => c.common.shar
  | .sipr => c.common.sipr

/-- R26: the first offset of a socket register; the same in every bank (R34). -/
def sockOff (c : Cfg) : SockReg → Half
  | .mr => c.sock.mr
  | .cr => c.sock.cr
  | .ir => c.sock.ir
  | .sr => c.sock.sr
  | .port => c.sock.port
  | .dipr => c.sock.dipr
  | .dport => c.sock.dport
  | .rxbufSize => c.sock.rxbufSize
  | .txbufSize => c.sock.txbufSize
  | .txFsr => c.sock.txFsr
  | .txRd => c.sock.txRd
  | .txWr => c.sock.txWr
  | .rxRsr => c.sock.rxRsr
  | .rxRd => c.sock.rxRd
  | .rxWr => c.sock.rxWr

/-- Byte `i` of a common register. -/
def commonByte (ch : Chip) (r : CommonReg) (i : Nat) : Byte :=
  match r with
  | .mr => ch.mr
  | .versionr => ch.versionr
  | .gar => quadByte ch.gar i
  | .subr => quadByte ch.subr i
  | .shar => macByte ch.shar i
  | .sipr => quadByte ch.sipr i

/-- Store byte `i` of a common register. -/
def setCommonByte (ch : Chip) (r : CommonReg) (i : Nat) (v : Byte) : Chip :=
  match r with
  | .mr => { ch with mr := v }
  | .versionr => { ch with versionr := v }
  | .gar => { ch with gar := setQuadByte ch.gar v i }
  | .subr => { ch with subr := setQuadByte ch.subr v i }
  | .shar => { ch with shar := setMacByte ch.shar v i }
  | .sipr => { ch with sipr := setQuadByte ch.sipr v i }

/-- Byte `i` of a socket register. -/
def sockByte (k : Socket) (r : SockReg) (i : Nat) : Byte :=
  match r with
  | .mr => k.mr
  | .cr => k.cr
  | .ir => k.ir
  | .sr => k.sr
  | .port => halfByteAt k.port i
  | .dipr => quadByte k.dipr i
  | .dport => halfByteAt k.dport i
  | .rxbufSize => k.rxbufSize
  | .txbufSize => k.txbufSize
  | .txFsr => halfByteAt k.txFsr i
  | .txRd => halfByteAt k.txRd i
  | .txWr => halfByteAt k.txWr i
  | .rxRsr => halfByteAt k.rxRsr i
  | .rxRd => halfByteAt k.rxRd i
  | .rxWr => halfByteAt k.rxWr i

/-- Store byte `i` of a socket register. A byte in Sn_CR is what the chip may take (R36, R276), 0x00 too (R284, U4); it
replaces one that was not yet taken (log entry 35). -/
def setSockByte (k : Socket) (r : SockReg) (i : Nat) (v : Byte) : Socket :=
  match r with
  | .mr => { k with mr := v }
  | .cr => { k with cr := v, pending := some v }
  | .ir => { k with ir := v }
  | .sr => { k with sr := v }
  | .port => { k with port := setHalfByteAt k.port v i }
  | .dipr => { k with dipr := setQuadByte k.dipr v i }
  | .dport => { k with dport := setHalfByteAt k.dport v i }
  | .rxbufSize => { k with rxbufSize := v }
  | .txbufSize => { k with txbufSize := v }
  | .txFsr => { k with txFsr := setHalfByteAt k.txFsr v i }
  | .txRd => { k with txRd := setHalfByteAt k.txRd v i }
  | .txWr => { k with txWr := setHalfByteAt k.txWr v i }
  | .rxRsr => { k with rxRsr := setHalfByteAt k.rxRsr v i }
  | .rxRd => { k with rxRd := setHalfByteAt k.rxRd v i }
  | .rxWr => { k with rxWr := setHalfByteAt k.rxWr v i }

/-- R80, R81, R99: what one address names. -/
inductive Target where
  | common (r : CommonReg) (i : Nat)
  | sock (n : SockIdx) (r : SockReg) (i : Nat)
  /-- A buffer cell, by its memory key. -/
  | cell (key : Nat)
  /-- R33, R50, R82: an offset that is no named register, or an unassigned selector. -/
  | unnamed
  deriving DecidableEq, Repr

/-- The common register whose range holds the offset, with the byte's place in it. -/
def findCommon (c : Cfg) (off : Half) : List CommonReg → Option (CommonReg × Nat)
  | [] => none
  | r :: rest =>
    if (off - commonOff c r).toNat < r.width then some (r, (off - commonOff c r).toNat) else findCommon c off rest

/-- The socket register whose range holds the offset, with the byte's place in it. -/
def findSock (c : Cfg) (off : Half) : List SockReg → Option (SockReg × Nat)
  | [] => none
  | r :: rest =>
    if (off - sockOff c r).toNat < r.width then some (r, (off - sockOff c r).toNat) else findSock c off rest

/-- R81: the socket of a selector 4n+1, 4n+2 or 4n+3. -/
def selectorSocket (blk : Selector) : SockIdx := ⟨blk.toNat / 4, by omega⟩

/-- R99: the storage cell of a buffer offset, `size` being what the chip has for that buffer. DESIGN CHOICE (log entry 36):
a buffer of 0 bytes (R375, "no buffer") has no stated cell; here, `% 0` being the offset itself, every offset is then a cell
of its own. -/
def bufCell (c : Cfg) (size : Nat) (off : Half) : Nat :=
  match c.bufAlias with
  | .flat => off.toNat
  | .wrapS => off.toNat % size

/-- The memory key of a buffer cell: one range of 65536 keys per selector. -/
def memKey (blk : Selector) (cell : Nat) : Nat := blk.toNat * 65536 + cell

/-- R81: what an address names. -/
def target (c : Cfg) (blk : Selector) (off : Half) : Target :=
  if blk = 0 then
    match findCommon c off CommonReg.all with
    | some (r, i) => .common r i
    | none => .unnamed
  else if blk.toNat % 4 = 1 then
    match findSock c off SockReg.all with
    | some (r, i) => .sock (selectorSocket blk) r i
    | none => .unnamed
  else if blk.toNat % 4 = 2 then .cell (memKey blk (bufCell c (c.chipTx.get (selectorSocket blk)) off))
  else if blk.toNat % 4 = 3 then .cell (memKey blk (bufCell c (c.chipRx.get (selectorSocket blk)) off))
  else .unnamed

/-- One byte of the address space as a read shows it; none where the spec gives no value (U3, U7). -/
def peek (s : State) (blk : Selector) (off : Half) : Option Byte :=
  match target s.cfg blk off with
  | .common r i => some (commonByte s.chip r i)
  | .sock n r i => some (sockByte (s.chip.sock.get n) r i)
  | .cell key => some (Memory.read s.chip.mem key)
  | .unnamed => none

/-- A request's handle number, resolved (log entry 7). -/
def handleOf (s : State) (h : Half) : Option Handle := s.handles[h.toNat]?

end Sys2Proof.Machine
end

