-- ==== Sys2Proof/Machine/Chip.lean ====
section
/-! DEFINITION. The chip as an agent: free values, the actions of the seven commands, its autonomous steps, and what a
frame stores (R36, R37, R92, R275 to R295; 93 U1, U3 to U5, U7, U9 to U12, U15, U20, U21). -/

namespace Sys2Proof.Machine

/-- Use up one value of the free-value counter. -/
def tick (s : State) : State := s.setFree (s.free + 1)

/-- Change one socket bank. -/
def modSock (n : SockIdx) (f : Socket → Socket) (s : State) : State :=
  s.setChip { s.chip with sock := s.chip.sock.set n (f (s.chip.sock.get n)) }

/-- Change the buffer memories. -/
def modMem (f : List Host.Cell → List Host.Cell) (s : State) : State :=
  s.setChip { s.chip with mem := f s.chip.mem }

/-- A socket bank of free values; `k` is the counter, `p` the first place. -/
def drawSocket (k p : Nat) : Socket :=
  { mr := Config.freeByte k p, cr := Config.freeByte k (p + 1), ir := Config.freeByte k (p + 2),
    sr := Config.freeByte k (p + 3), port := Config.freeHalf k p,
    dipr := ⟨Config.freeByte k (p + 4), Config.freeByte k (p + 5), Config.freeByte k (p + 6), Config.freeByte k (p + 7)⟩,
    dport := Config.freeHalf k (p + 1), rxbufSize := Config.freeByte k (p + 8), txbufSize := Config.freeByte k (p + 9),
    txFsr := Config.freeHalf k (p + 2), txRd := Config.freeHalf k (p + 3), txWr := Config.freeHalf k (p + 4),
    rxRsr := Config.freeHalf k (p + 5), rxRd := Config.freeHalf k (p + 6), rxWr := Config.freeHalf k (p + 7),
    pending := if Config.freeBool k p then some (Config.freeByte k (p + 10)) else none, inProgress := Config.freeBytes k p,
    rxAck := Config.freeHalf k (p + 8), sent := Config.freeBytes k (p + 1) }

/-- A four-byte container of free values. -/
def drawQuad (k p : Nat) : Quad :=
  ⟨Config.freeByte k p, Config.freeByte k (p + 1), Config.freeByte k (p + 2), Config.freeByte k (p + 3)⟩

/-- A chip of free values. -/
def drawChip (k : Nat) : Chip :=
  { mr := Config.freeByte k 0, versionr := Config.freeByte k 1, gar := drawQuad k 2, subr := drawQuad k 6,
    sipr := drawQuad k 10,
    shar := ⟨Config.freeByte k 14, Config.freeByte k 15, Config.freeByte k 16, Config.freeByte k 17,
      Config.freeByte k 18, Config.freeByte k 19⟩,
    sock := #v[drawSocket k 32, drawSocket k 64, drawSocket k 96, drawSocket k 128, drawSocket k 160, drawSocket k 192,
      drawSocket k 224, drawSocket k 256],
    mem := Memory.ofCells (Config.freeCells k), resetting := Config.freeBool k 0 }

/-- No chip state may be assumed unchanged: all of it becomes free (U3, U4, U7; log entry 14). -/
def havocChip (s : State) : State := tick (s.setChip (drawChip s.free))

/-- R284, U4: a command code without a meaning, 0x00 among them, may do anything. -/
def actUnlisted (s : State) : State := havocChip s

/-- R54, R288, U9: a completed reset: MR 0x00, VERSIONR 0x04, every other register and buffer byte a draw. Commands
written or in progress are dropped; what was transmitted stays transmitted (log entry 9). -/
def resetChip (k : Nat) (c : Chip) : Chip :=
  { drawChip k with
    mr := 0x00#8, versionr := versionExpected, resetting := false,
    sock := Vector.ofFn fun n : Fin 8 =>
      { drawSocket k (32 * (n.val + 1)) with
        pending := none, inProgress := [], sent := (c.sock.get n).sent } }

/-- R277, R132, U5, U17: the status an OPEN gives, from the mode register. -/
def openedStatus (c : StatusCodes) (mode free : Byte) : Byte :=
  if mode = modeTcp then c.init else if mode = modeUdp then c.udp else free

/-- U20: in a status the source does not pair with the command, status and flags are free. -/
def unpaired (k : Nat) (q : Socket) : Socket := { q with sr := Config.freeByte k 0, ir := Config.freeByte k 1 }

/-- R277: pointers and counters are draws after OPEN. DESIGN CHOICE (log entry 37): the hidden acknowledged read pointer is
the same draw as Sn_RX_RD, so that the first RECV consumes what was read since OPEN. -/
def drawPointers (k : Nat) (q : Socket) : Socket :=
  { q with
    txFsr := Config.freeHalf k 0, txRd := Config.freeHalf k 1, txWr := Config.freeHalf k 2, rxRsr := Config.freeHalf k 3,
    rxRd := Config.freeHalf k 4, rxWr := Config.freeHalf k 5, rxAck := Config.freeHalf k 4 }

/-- R277: OPEN, paired with CLOSED (U20). -/
def actOpen (n : SockIdx) (s : State) : State :=
  let c := s.cfg.status
  let k := s.free
  tick (modSock n (fun q =>
    drawPointers k
      (if q.sr = c.closed then { q with sr := openedStatus c q.mr (Config.freeByte k 0) } else unpaired k q)) s)

/-- R278: LISTEN, paired with INIT (U20). -/
def actListen (n : SockIdx) (s : State) : State :=
  let c := s.cfg.status
  let k := s.free
  tick (modSock n (fun q => if q.sr = c.init then { q with sr := c.listen } else unpaired k q) s)

/-- R279, R286 (b): CONNECT, paired with INIT (U20): the attempt begins; further status changes are the chip's own
(DEDUCED, log entry 15). -/
def actConnect (n : SockIdx) (s : State) : State :=
  let c := s.cfg.status
  let k := s.free
  tick (modSock n (fun q => if q.sr = c.init then { q with sr := c.synSent } else unpaired k q) s)

/-- R280, U21: DISCON: the source names no status that follows. -/
def actDiscon (n : SockIdx) (s : State) : State :=
  let k := s.free
  tick (modSock n (fun q => { q with sr := Config.freeByte k 0 }) s)

/-- R281: CLOSE: the socket is closed at once. -/
def actClose (n : SockIdx) (s : State) : State :=
  let c := s.cfg.status
  modSock n (fun q => { q with sr := c.closed }) s

/-- R102: where the chip takes the byte of stream position `q` from: its own window of the transmit buffer
(U13, log entry 16). -/
def txFetchKey (c : Cfg) (n : SockIdx) (q : Half) : Nat :=
  let size := c.chipTx.get n
  memKey (txBlk n) (bufCell c size (BitVec.ofNat 16 (q.toNat % size + n.val * size)))

/-- R102: where the chip stores the byte of stream position `q`: its own window of the receive buffer
(log entry 16). -/
def rxStoreKey (c : Cfg) (n : SockIdx) (size : Nat) (base q : Half) : Nat :=
  memKey (rxBlk n) (bufCell c size (BitVec.ofNat 16 (q.toNat % size) + base))

/-- R282, U13, U14: the byte the chip sends for stream position `q`; `k` is the counter. Where the chip does not wrap and the
position is beyond its window, the payload is in a cell the chip does not send from: any value. -/
def sentByte (k : Nat) (c : Cfg) (mem : List Host.Cell) (n : SockIdx) (q : Half) : Byte :=
  if c.bufAlias = .flat ∧ c.chipTx.get n ≤ q.toNat then Config.freeByte k q.toNat
  else Memory.read mem (txFetchKey c n q)

/-- R282: the bytes of the `count` stream positions from `q` on. -/
def fetchSent (k : Nat) (c : Cfg) (mem : List Host.Cell) (n : SockIdx) : Half → Nat → List Byte
  | _, 0 => []
  | q, count + 1 => sentByte k c mem n q :: fetchSent k c mem n (q + 1) count

/-- R282, U12: send-ok is set by a SEND with data; by one without data it may or may not be. -/
def sendOkBits (k : Nat) (count : Nat) : Byte :=
  if count = 0 then (if Config.freeBool k 0 then irSendOk else 0#8) else irSendOk

/-- R282, R292: SEND, paired with ESTABLISHED and CLOSE_WAIT (U20): the bytes from the transmit read pointer up to the
write pointer go out, send-ok is set, the free size is whatever the chip then has. DESIGN CHOICE (log entry 41): the bytes
that `sendUpTo` steps have not sent before, the last byte always among them, are taken, the pointer moved and bit 4 set in
this one step, up to the Sn_TX_WR of this moment (log entry 38). In another status what it sends, if anything, is free (log
entry 28). -/
def actSend (n : SockIdx) (s : State) : State :=
  let c := s.cfg.status
  let k := s.free
  tick (modSock n (fun q =>
    let count := (q.txWr - q.txRd).toNat
    if q.sr = c.established ∨ q.sr = c.closeWait then
      { q with
        sent := q.sent ++ fetchSent k s.cfg s.chip.mem n q.txRd count, txRd := q.txWr, txFsr := Config.freeHalf k 0,
        ir := setFlags q.ir (sendOkBits k count) }
    else
      { unpaired k q with
        txFsr := Config.freeHalf k 0, txRd := Config.freeHalf k 1, sent := q.sent ++ Config.freeBytes k 0 }) s)

/-- R283: the received size less the number consumed; where more is consumed than was counted the source gives no
value (log entry 17). -/
def acknowledged (k : Nat) (size consumed : Half) : Half :=
  if consumed.toNat ≤ size.toNat then size - consumed else Config.freeHalf k 0

/-- R283: RECV: the chip takes the new read pointer and lowers the received size by the number consumed. DESIGN CHOICE (log
entry 38): the pointer taken is the Sn_RX_RD of this moment. -/
def actRecv (n : SockIdx) (s : State) : State :=
  let k := s.free
  tick (modSock n (fun q => { q with rxRsr := acknowledged k q.rxRsr (q.rxRd - q.rxAck), rxAck := q.rxRd }) s)

/-- R131, R276: the action of a command code. -/
def actCommand (n : SockIdx) (code : Byte) (s : State) : State :=
  if code = cmdOpen then actOpen n s
  else if code = cmdListen then actListen n s
  else if code = cmdConnect then actConnect n s
  else if code = cmdDiscon then actDiscon n s
  else if code = cmdClose then actClose n s
  else if code = cmdSend then actSend n s
  else if code = cmdRecv then actRecv n s
  else actUnlisted s

/-- R36, R276: a command byte written to Sn_CR and taken at once: the register reads 0x00 again. -/
def takeCommand (n : SockIdx) (s : State) : State := modSock n (fun q => { q with cr := 0x00#8, pending := none }) s

/-- R276: whether the action of the next command byte given as an instruction comes later than its acceptance. -/
def deferred (s : State) : Bool :=
  match s.env.defer with
  | [] => false
  | d :: _ => d

/-- One choice of when an action takes effect is used up. -/
def useDefer (s : State) : State :=
  match s.env.defer with
  | [] => s
  | _ :: rest => s.setEnv { s.env with defer := rest }

/-- R276: a command whose action has started and is not finished. -/
def startCommand (n : SockIdx) (code : Byte) (s : State) : State :=
  modSock n (fun q => { q with inProgress := q.inProgress ++ [code] }) s

/-- R276: a command byte given as an instruction of its own: written, taken, its effects at once or at a later `perform`
step of the chip. DESIGN CHOICE (log entry 4): no chip step comes between the instruction before and the write. -/
def runCommand (n : SockIdx) (code : Byte) (act : State → State) (s : State) : State :=
  if deferred s then startCommand n code (takeCommand n (useDefer s)) else act (takeCommand n (useDefer s))

/-- R293: bytes arriving at the positions from `q` on. -/
def storeArrived (c : Cfg) (n : SockIdx) (size : Nat) (base : Half) :
    Half → List Byte → List Host.Cell → List Host.Cell
  | _, [], m => m
  | q, v :: rest, m => storeArrived c n size base (q + 1) rest (Memory.write (rxStoreKey c n size base q) v m)

/-- R96, U18: the receive base the chip uses for its own buffer: the parameter's value at the chip's size; a size that is
none of the five has base 0 (log entry 16). -/
def chipRxBase (c : Cfg) (n : SockIdx) : Half :=
  match BufSize.ofNat? (c.chipRx.get n) with
  | some size => rxBase c n size
  | none => 0#16

/-- R293: store the bytes after the receive write pointer, raise the received size by their number. -/
def arrive (n : SockIdx) (data : List Byte) (s : State) : State :=
  let q := s.chip.sock.get n
  let m := BitVec.ofNat 16 data.length
  modSock n (fun q => { q with rxWr := q.rxWr + m, rxRsr := q.rxRsr + m })
    (modMem (storeArrived s.cfg n (s.cfg.chipRx.get n) (chipRxBase s.cfg n) q.rxWr data) s)

/-- R276: accept: clear Sn_CR and start the action of the byte written; enabled while one is not yet taken. -/
def acceptCommand (n : SockIdx) (s : State) : State :=
  match (s.chip.sock.get n).pending with
  | none => s
  | some code => startCommand n code (takeCommand n s)

/-- R276, U11: a chip in a fault shows another value than 0x00 while the byte written is not yet taken. -/
def showCommand (n : SockIdx) (v : Byte) (s : State) : State :=
  if (s.chip.sock.get n).pending = none ∨ v = 0x00#8 then s else modSock n (fun q => { q with cr := v }) s

/-- R45, R282, R108: a SEND is the oldest command in progress, in a status that pairs with it (U20), and position `v` leaves
data of it unsent. -/
abbrev sendsPart (c : StatusCodes) (q : Socket) (v : Half) : Prop :=
  q.inProgress.head? = some cmdSend ∧ (q.sr = c.established ∨ q.sr = c.closeWait) ∧
    (v - q.txRd).toNat < (q.txWr - q.txRd).toNat

/-- R45, R282: the chip sends the bytes up to position `v` and moves its read pointer there; the rest of the data, and send-ok,
come with the effect of the SEND (log entry 40). -/
def sendUpTo (n : SockIdx) (v : Half) (s : State) : State :=
  let k := s.free
  if sendsPart s.cfg.status (s.chip.sock.get n) v then
    tick (modSock n (fun q =>
      { q with sent := q.sent ++ fetchSent k s.cfg s.chip.mem n q.txRd (v - q.txRd).toNat, txRd := v }) s)
  else s

/-- R276: the oldest command in progress takes effect. DESIGN CHOICE (log entry 38): the status that counts for U20 ("issued
in a status") and the pointers that SEND and RECV use are those of this moment, not of the one when the byte was written or
taken. -/
def performCommand (n : SockIdx) (s : State) : State :=
  match (s.chip.sock.get n).inProgress with
  | [] => s
  | code :: rest => actCommand n code (modSock n (fun q => { q with inProgress := rest }) s)

/-- One step of the chip (R275). DESIGN CHOICE (log entry 39): while a reset runs, every register but MR keeps its value, is
written as usual, and commands and arrivals go on, until `resetDone` changes all at once. -/
def chipStep (s : State) (e : ChipEvent) : State :=
  match e with
  | .accept n => acceptCommand n s
  | .perform n => performCommand n s
  | .crShows n v => showCommand n v s
  | .status n v => modSock n (fun q => { q with sr := v }) s
  | .setFlags n bits => modSock n (fun q => { q with ir := setFlags q.ir (bits &&& ~~~irSendOk) }) s
  | .freeSize n v => modSock n (fun q => { q with txFsr := v }) s
  | .sentUpTo n v => sendUpTo n v s
  | .arrive n data => arrive n data s
  | .received n v => modSock n (fun q => { q with rxRsr := v }) s
  | .mrShows v => if s.chip.resetting = true ∧ v ≠ 0x00#8 then s.setChip { s.chip with mr := v } else s
  | .resetDone => if s.chip.resetting then tick (s.setChip (resetChip s.free s.chip)) else s

/-- R103, R105, R275: the steps the chip takes in one gap between two transactions, a Sleep in it included. -/
def chipTurn (s : State) : State :=
  match s.env.chip with
  | [] => s
  | events :: rest => events.foldl chipStep (s.setEnv { s.env with chip := rest })

/-- R27, R289: what a byte written to MR leaves there: bit 7 starts a reset; 0x00, 0x08 and 0x10 are stored outside a
reset; of any other byte bits 3 and 4 are stored and the rest is free; inside a reset the byte is free. -/
def writeMr (v : Byte) (s : State) : State :=
  if v &&& mrRst ≠ 0#8 then s.setChip { s.chip with mr := v, resetting := true }
  else if s.chip.resetting then tick (s.setChip { s.chip with mr := Config.freeByte s.free 0 })
  else if v = fpFirst ∨ v = fpSecond ∨ v = fpThird then s.setChip { s.chip with mr := v }
  else tick (s.setChip { s.chip with mr := (v &&& 0x18#8) ||| (Config.freeByte s.free 0 &&& 0x67#8) })

/-- One byte stored in a common register at the rise of CS (R92; U15 for VERSIONR). -/
def storeCommon (r : CommonReg) (i : Nat) (v : Byte) (s : State) : State :=
  match r with
  | .mr => writeMr v s
  | .versionr => tick (s.setChip { s.chip with versionr := Config.freeByte s.free 0 })
  | .gar | .subr | .shar | .sipr => s.setChip (setCommonByte s.chip r i v)

/-- U15: a register the block only reads holds a free value once it has been written. -/
def drawReadOnly (k : Nat) (r : SockReg) (q : Socket) : Socket :=
  match r with
  | .sr => { q with sr := Config.freeByte k 0 }
  | .txFsr => { q with txFsr := Config.freeHalf k 0 }
  | .txRd => { q with txRd := Config.freeHalf k 0 }
  | .rxRsr => { q with rxRsr := Config.freeHalf k 0 }
  | .rxWr => { q with rxWr := Config.freeHalf k 0 }
  | .mr | .cr | .ir | .port | .dipr | .dport | .rxbufSize | .txbufSize | .txWr | .rxRd => q

/-- One byte stored in a socket register at the rise of CS (R36, R37, R92; U15). -/
def storeSock (n : SockIdx) (r : SockReg) (i : Nat) (v : Byte) (s : State) : State :=
  match r with
  | .ir => modSock n (fun q => { q with ir := clearOnOne q.ir v }) s
  | .sr | .txFsr | .txRd | .rxRsr | .rxWr => tick (modSock n (drawReadOnly s.free r) s)
  | .mr | .cr | .port | .dipr | .dport | .rxbufSize | .txbufSize | .txWr | .rxRd =>
    modSock n (fun q => setSockByte q r i v) s

/-- One byte of a write frame, by what its address names. -/
def storeByte (t : Target) (v : Byte) (s : State) : State :=
  match t with
  | .common r i => storeCommon r i v s
  | .sock n r i => storeSock n r i v s
  | .cell key => modMem (Memory.write key v) s
  | .unnamed => s

/-- R87: data byte `i` goes to offset `u16(off + i)` of the same block. -/
def storeBytes (blk : Selector) : Half → List Byte → State → State
  | _, [], s => s
  | off, v :: rest, s => storeBytes blk (off + 1) rest (storeByte (target s.cfg blk off) v s)

/-- Whether some byte of a frame has an address the spec gives no meaning (U3, U7). -/
def touchesUnnamed (c : Cfg) (blk : Selector) : Half → Nat → Bool
  | _, 0 => false
  | off, n + 1 => target c blk off == .unnamed || touchesUnnamed c blk (off + 1) n

/-- R161: what a completed write frame does to the chip; with a byte outside the named registers, anything (U3, U7). A frame
without data changes nothing, as R161 and D14 say, though U12 has a header-only frame to a buffer do anything (log entry
42). -/
def storeFrame (blk : Selector) (off : Half) (data : List Byte) (s : State) : State :=
  if touchesUnnamed s.cfg blk off data.length then havocChip (storeBytes blk off data s)
  else storeBytes blk off data s

/-- U1, U10: one byte a failed write frame targeted becomes free. -/
def scrambleByte (t : Target) (s : State) : State :=
  let v := Config.freeByte s.free 0
  match t with
  | .common .mr _ =>
    tick (s.setChip { s.chip with mr := v, resetting := s.chip.resetting || Config.freeBool s.free 0 })
  | .common r i => tick (s.setChip (setCommonByte s.chip r i v))
  | .sock n r i => tick (modSock n (fun q => setSockByte q r i v) s)
  | .cell key => tick (modMem (Memory.write key v) s)
  | .unnamed => s

/-- U1, U10: the bytes a failed write frame targeted. -/
def scrambleBytes (blk : Selector) : Half → Nat → State → State
  | _, 0, s => s
  | off, n + 1, s => scrambleBytes blk (off + 1) n (scrambleByte (target s.cfg blk off) s)

/-- R162, U1, U10: what a failed write frame does to the chip; with a byte outside the named registers, anything. -/
def scrambleFrame (blk : Selector) (off : Half) (n : Nat) (s : State) : State :=
  if touchesUnnamed s.cfg blk off n then havocChip (scrambleBytes blk off n s) else scrambleBytes blk off n s

end Sys2Proof.Machine
end

