-- ==== Sys2Proof/Machine/Ops.lean ====
section
/-! DEFINITION. The shared operations of the sequencer: results with errors (R10, R310), the external primitives (R331,
R332), the two transactions (R160 to R162, R175, R176), the wrappers (R163 to R166), the wait loop, and the end of an
operation (R310, R328). -/

namespace Sys2Proof.Machine

/-- R10: a sequence of steps ends with a value (`return`) or with an error (`raise`), and leaves a state either way. -/
inductive Res (α : Type) where
  | ok (a : α) (s : State)
  | err (e : Err) (s : State)
  deriving Repr

/-- R310: go on after success; an error ends the whole operation with the same error. -/
def Res.andThen {α β : Type} (r : Res α) (f : α → State → Res β) : Res β :=
  match r with
  | .ok a s => f a s
  | .err e s => .err e s

/-- R310, R194: give an error another name. -/
def Res.mapErr {α : Type} (f : Err → Err) : Res α → Res α
  | .ok a s => .ok a s
  | .err e s => .err (f e) s

/-- R24: the sequencer goes to a numbered step. -/
def goto (op : SeqOp) (step : Nat) (s : State) : State := s.setSeq (.running op step 0)

/-- R24, R255: the sequencer goes to a lettered sub-step. -/
def gotoSub (op : SeqOp) (step sub : Nat) (s : State) : State := s.setSeq (.running op step sub)

def setHdr (v : Header) (s : State) : State := s.setLat { s.lat with hdr := v }
def setSt (v : Byte) (s : State) : State := s.setLat { s.lat with st := v }
def setCmd (v : Byte) (s : State) : State := s.setLat { s.lat with cmd := v }
def setCrv (v : Byte) (s : State) : State := s.setLat { s.lat with crv := v }
def setPoll (v : Nat) (s : State) : State := s.setLat { s.lat with poll := v }
def setT0 (v : Nat) (s : State) : State := s.setLat { s.lat with t0 := v }
def setSz (v : Half) (s : State) : State := s.setLat { s.lat with sz := v }
def setPtr (v : Half) (s : State) : State := s.setLat { s.lat with ptr := v }
def setCnt (v : Nat) (s : State) : State := s.setLat { s.lat with cnt := v }
def setAddr (v : Half) (s : State) : State := s.setLat { s.lat with addr := v }
def setPort (v : Half) (s : State) : State := s.setLat { s.lat with port := v }
def setIrv (v : Byte) (s : State) : State := s.setLat { s.lat with irv := v }
def setMrv (v : Byte) (s : State) : State := s.setLat { s.lat with mrv := v }

/-- R138: record one action at the boundary. -/
def emit (a : BusAct) (s : State) : State := s.setOut (a :: s.out)

/-- R331, U23: the clock moves by at least `ms`; the environment says by how much more. -/
def advance (ms : Nat) (s : State) : State :=
  match s.env.delays with
  | [] => s.setClock (s.clock + ms)
  | d :: rest => (s.setEnv { s.env with delays := rest }).setClock (s.clock + ms + d)

/-- R331: `Sleep(ms)`. CS stays as it is. The chip's steps meanwhile are those of the gap before the next transaction
(`chipTurn`), since nothing else looks at the chip in between. -/
def sleep (ms : Nat) (s : State) : State := emit (.sleep ms) (advance ms s)

/-- R331: `Now()`: a reading of the clock, which never goes back. The reading is the new value of `clock`. -/
def readClock (s : State) : State :=
  let s := advance 0 s
  emit (.now s.clock) s

/-- R332: the value of the next draw of the randomness source. -/
def nextRand (s : State) : Nat :=
  match s.env.rand with
  | [] => Config.freeNat s.free
  | v :: _ => v

/-- R332: `Rand()`: one draw is used up. -/
def useRand (s : State) : State :=
  let v := nextRand s
  match s.env.rand with
  | [] => emit (.rand v) (tick s)
  | _ :: rest => emit (.rand v) (s.setEnv { s.env with rand := rest })

/-- R334: `Log(text)`. -/
def logLine (s : State) : State := emit .log s

/-- R162, R332: the outcome of the next call of the transfer primitive: `some cause` is a failure. -/
def transferFails (s : State) : Option Nat :=
  match s.env.transfers with
  | [] => none
  | f :: _ => f

/-- One call of the transfer primitive is used up. -/
def useTransfer (s : State) : State :=
  match s.env.transfers with
  | [] => s
  | _ :: rest => s.setEnv { s.env with transfers := rest }

/-- R192, R288, R289, R363 (2): whether a chip of this family answers is the environment's choice, frame by frame, before and
after Configure: there may be no chip, a dead one or another device on the bus (DESIGN CHOICE, log entry 21). -/
def frameMissed (s : State) : Bool :=
  match s.env.missed with
  | [] => false
  | m :: _ => m

/-- One choice of whether a chip answers is used up. -/
def useMissed (s : State) : State :=
  match s.env.missed with
  | [] => s
  | _ :: rest => s.setEnv { s.env with missed := rest }

/-- R175, R275: the chip takes its steps of the gap, then CS falls and the header stands in HDR. -/
def beginFrame (hdr : Header) (s : State) : State := setHdr hdr ((chipTurn s).setCs .low)

/-- R175, R162: CS rises, after success and after a failure. -/
def endFrame (act : BusAct) (s : State) : State := emit act (s.setCs .high)

/-- One byte of a read frame; an address without a meaning, or a frame no chip of this family answers, gives a free value. -/
def frameByte (s : State) (missed : Bool) (blk : Selector) (off : Half) (place : Nat) : Byte :=
  if missed then Config.freeByte s.free place
  else
    match peek s blk off with
    | some v => v
    | none => Config.freeByte s.free place

/-- R87, R91, R160: the data phase of a read frame, at one instant. -/
def frameData (s : State) (missed : Bool) (blk : Selector) : Half → Nat → List Byte
  | _, 0 => []
  | off, n + 1 => frameByte s missed blk off n :: frameData s missed blk (off + 1) n

/-- R160: `MemRead((blk, off), n)`. -/
def memRead (blk : Selector) (off : Half) (n : Nat) (s : State) : Res (List Byte) :=
  let hdr := header blk off false
  let s := beginFrame hdr s
  let missed := frameMissed s
  let s := useMissed s
  match transferFails s with
  | some cause => .err (.ioError cause) (endFrame (.headerFailed hdr) (useTransfer s))
  | none =>
    let s := useTransfer s
    match transferFails s with
    | some cause => .err (.ioError cause) (endFrame (.dataFailed hdr) (useTransfer s))
    | none =>
      let s := useTransfer s
      let data := frameData s missed blk off n
      .ok data (endFrame (.frame hdr data) (tick s))

/-- R161: `MemWrite((blk, off), len v, v)`: the write takes effect when CS rises (R103). -/
def memWrite (blk : Selector) (off : Half) (data : List Byte) (s : State) : Res Unit :=
  let hdr := header blk off true
  let s := beginFrame hdr s
  let missed := frameMissed s
  let s := useMissed s
  let spoil := fun s => if missed then s else scrambleFrame blk off data.length s
  match transferFails s with
  | some cause => .err (.ioError cause) (endFrame (.headerFailed hdr) (spoil (useTransfer s)))
  | none =>
    let s := useTransfer s
    match transferFails s with
    | some cause => .err (.ioError cause) (endFrame (.dataFailed hdr) (spoil (useTransfer s)))
    | none =>
      let s := useTransfer s
      .ok () (endFrame (.frame hdr data) (if missed then s else storeFrame blk off data s))

/-- The first byte of a data phase. -/
def firstByte : List Byte → Byte
  | [] => 0#8
  | v :: _ => v

/-- R164: `be16(d[0], d[1])`. -/
def firstHalf : List Byte → Half
  | a :: b :: _ => be16 a b
  | _ => 0#16

/-- A four-byte data phase as a container (R86). -/
def firstQuad : List Byte → Quad
  | a :: b :: c :: d :: _ => ⟨a, b, c, d⟩
  | _ => ⟨0#8, 0#8, 0#8, 0#8⟩

/-- R163: `RdB(blk, off)`. -/
def readByte (blk : Selector) (off : Half) (s : State) : Res Byte :=
  (memRead blk off 1 s).andThen fun d s => .ok (firstByte d) s

/-- R164: `Rd16(blk, off)`. -/
def read16 (blk : Selector) (off : Half) (s : State) : Res Half :=
  (memRead blk off 2 s).andThen fun d s => .ok (firstHalf d) s

/-- R165: `WrB(blk, off, v)`. -/
def writeByte (blk : Selector) (off : Half) (v : Byte) (s : State) : Res Unit := memWrite blk off [v] s

/-- R166: `Wr16(blk, off, v)`. -/
def write16 (blk : Selector) (off : Half) (v : Half) (s : State) : Res Unit := memWrite blk off (halfBytes v) s

/-- A one-byte read of a socket register. -/
def readSock8 (n : SockIdx) (r : SockReg) (s : State) : Res Byte := readByte (regBlk n) (sockOff s.cfg r) s

/-- A two-byte read of a socket register. -/
def readSock16 (n : SockIdx) (r : SockReg) (s : State) : Res Half := read16 (regBlk n) (sockOff s.cfg r) s

/-- A write of a socket register. -/
def writeSock (n : SockIdx) (r : SockReg) (data : List Byte) (s : State) : Res Unit :=
  memWrite (regBlk n) (sockOff s.cfg r) data s

/-- R211: `x[ST] <- Status(n)`. -/
def readStatus (n : SockIdx) (s : State) : Res Unit := (readSock8 n .sr s).andThen fun v s => .ok () (setSt v s)

/-- R24: where the sequencer is at the budget test, at the sleep and at the count of a wait. -/
structure WaitSteps where
  test : Sequencer
  sleep : Sequencer
  count : Sequencer
  deriving DecidableEq, Repr

/-- Between two polls: one sleep, and POLL counts up. -/
def nextPoll (w : WaitSteps) (interval : Nat) (s : State) : State :=
  let s := (sleep interval (s.setSeq w.sleep)).setSeq w.count
  setPoll (s.lat.poll + 1) s

/-- R296: a bounded wait: `body` makes one poll and says whether the wait is over; the budget test is POLL == budget. POLL is
1 at the first poll. No sleep follows the last poll (D16). `fuel`, the budget at the start, only makes the recursion
structural (log entry 27). -/
def pollLoop (w : WaitSteps) (budget interval : Nat) (timeout : State → Err) (body : State → Res Bool) :
    Nat → State → Res Unit
  | 0, s => .err (timeout s) s
  | fuel + 1, s =>
    (body s).andThen fun ready s =>
      if ready then .ok () s
      else if s.lat.poll = budget then .err (timeout s) (s.setSeq w.test)
      else pollLoop w budget interval timeout body fuel (nextPoll w interval (s.setSeq w.test))

/-- R212 steps 3 to 5: one poll of the command register. -/
def execPoll (n : SockIdx) (s : State) : Res Bool :=
  (readSock8 n .cr (goto .exec 3 s)).andThen fun v s =>
    let s := goto .exec 4 (setCrv v s)
    if s.lat.crv = 0x00#8 then .ok true s
    else
      let s := goto .exec 5 s
      if s.lat.crv ≠ s.lat.cmd then .err (.invalidCommandState s.lat.cmd s.lat.crv) s else .ok false s

/-- R212 steps 6 to 8. -/
def execSteps : WaitSteps := ⟨.running .exec 6 0, .running .exec 7 0, .running .exec 8 0⟩

/-- R212: `Exec(n, c)`. -/
def execProtocol (n : SockIdx) (code : Byte) (s : State) : Res Unit :=
  (writeSock n .cr [code] (setCmd code (goto .exec 1 s))).andThen fun _ s =>
    pollLoop execSteps cmdPolls cmdIntervalMs (fun s => .commandTimeout s.lat.cmd) (execPoll n) cmdPolls
      (setPoll 1 (goto .exec 2 s))

/-- R310, R328: an operation ends: the host has its result, the sequencer is idle, the latches are dead. -/
def complete (r : OpResult) (s : State) : State := ((s.setResult (some r)).setSeq .idle).setLat Latches.dead

/-- R310: `raise E(info)` out of an operation: the one place where an error becomes the host's result. CS is already high:
a failed transaction has raised it (R162), and between transactions it is. -/
def raise (e : Err) (s : State) : State := complete (.failed e) s

/-- R310: the end of an operation that gives `Ok(v)` or `Err(E, info)`. -/
def finish (r : Res OpValue) : State :=
  match r with
  | .ok v s => complete (.done v) s
  | .err e s => raise e s

/-- R240, R255, R260, R243: the end of a stream operation: a pair; an error that ends it early comes with the count 0. -/
def finishStream (r : Res (Nat × Option Err)) : State :=
  match r with
  | .ok (count, e) s => complete (.stream count e) s
  | .err e s => complete (.stream 0 (some e)) s

/-- R137: run a socket operation on the handle the request names (log entry 7). -/
def onHandle (h : Half) (f : Handle → State → State) (s : State) : Host.Outcome State Fault Refusal :=
  match handleOf s h with
  | some hd => .next (f hd s)
  | none => .refused (.noSuchHandle h)

end Sys2Proof.Machine
end

