-- ==== Sys2Proof/Machine/Access.lean ====
section
/-! DEFINITION. CTL.READ to CTL.WRITE16 and the eight network-address accessors (R160, R161, R163 to R174): one
transaction each. -/

namespace Sys2Proof.Machine

/-- CTL.READ (R160). -/
def execCtlRead (blk : Selector) (off : Half) (len : Nat) (s : State) : Host.Outcome State Fault Refusal :=
  .next (finish ((memRead blk off len (goto .read 1 s)).andThen fun d s => .ok (.bytes d) s))

/-- CTL.WRITE (R161). -/
def execCtlWrite (blk : Selector) (off : Half) (data : List Byte) (s : State) : Host.Outcome State Fault Refusal :=
  .next (finish ((memWrite blk off data (goto .write 1 s)).andThen fun _ s => .ok .unit s))

/-- CTL.READBYTE (R163). -/
def execCtlReadByte (blk : Selector) (off : Half) (s : State) : Host.Outcome State Fault Refusal :=
  .next (finish ((readByte blk off (goto .read 1 s)).andThen fun v s => .ok (.byte v) s))

/-- CTL.READ16 (R164). -/
def execCtlRead16 (blk : Selector) (off : Half) (s : State) : Host.Outcome State Fault Refusal :=
  .next (finish ((read16 blk off (goto .read 1 s)).andThen fun v s => .ok (.half v) s))

/-- CTL.WRITEBYTE (R165). -/
def execCtlWriteByte (blk : Selector) (off : Half) (v : Byte) (s : State) : Host.Outcome State Fault Refusal :=
  .next (finish ((writeByte blk off v (goto .write 1 s)).andThen fun _ s => .ok .unit s))

/-- CTL.WRITE16 (R166). -/
def execCtlWrite16 (blk : Selector) (off : Half) (v : Half) (s : State) : Host.Outcome State Fault Refusal :=
  .next (finish ((write16 blk off v (goto .write 1 s)).andThen fun _ s => .ok .unit s))

/-- An accessor that writes a common register (R167, R170, R172, R174). -/
def setCommon (r : CommonReg) (data : List Byte) (s : State) : Host.Outcome State Fault Refusal :=
  .next (finish ((memWrite 0#5 (commonOff s.cfg r) data (goto .write 1 s)).andThen fun _ s => .ok .unit s))

/-- An accessor that reads a common register (R168, R169, R171, R173). -/
def getCommon (r : CommonReg) (s : State) : Host.Outcome State Fault Refusal :=
  .next (finish ((memRead 0#5 (commonOff s.cfg r) r.width (goto .read 1 s)).andThen fun d s => .ok (.bytes d) s))

/-- CTL.SETIP (R167). -/
def execCtlSetIP (a : Quad) (s : State) : Host.Outcome State Fault Refusal := setCommon .sipr a.toList s

/-- CTL.GETIP (R168). -/
def execCtlGetIP (s : State) : Host.Outcome State Fault Refusal := getCommon .sipr s

/-- CTL.GETGW (R169). -/
def execCtlGetGW (s : State) : Host.Outcome State Fault Refusal := getCommon .gar s

/-- CTL.SETGW (R170). -/
def execCtlSetGW (a : Quad) (s : State) : Host.Outcome State Fault Refusal := setCommon .gar a.toList s

/-- CTL.GETSUBNET (R171). -/
def execCtlGetSubnet (s : State) : Host.Outcome State Fault Refusal := getCommon .subr s

/-- CTL.SETSUBNET (R172). -/
def execCtlSetSubnet (a : Quad) (s : State) : Host.Outcome State Fault Refusal := setCommon .subr a.toList s

/-- CTL.GETMAC (R173). -/
def execCtlGetMac (s : State) : Host.Outcome State Fault Refusal := getCommon .shar s

/-- CTL.SETMAC (R174). -/
def execCtlSetMac (a : Mac) (s : State) : Host.Outcome State Fault Refusal := setCommon .shar a.toList s

end Sys2Proof.Machine
end

