-- ==== Sys2Proof/Machine/ChipCommands.lean ====
section
/-! DEFINITION. The command and mode bytes as the chip takes them (R276 to R283, R132, R295): a command byte written to
Sn_CR and taken, its action at once or later (runCommand); a mode byte stored in Sn_MR. No chip step comes
before either (DESIGN CHOICE, log entry 4). A command that the block writes over
the bus is taken and acts by the chip's own steps (ChipEvent.accept, ChipEvent.perform). -/

namespace Sys2Proof.Machine

/-- SNCR.OPEN (R277). -/
def execSncrOpen (n : SockIdx) (s : State) : Host.Outcome State Fault Refusal :=
  .next (runCommand n cmdOpen (actOpen n) s)

/-- SNCR.LISTEN (R278). -/
def execSncrListen (n : SockIdx) (s : State) : Host.Outcome State Fault Refusal :=
  .next (runCommand n cmdListen (actListen n) s)

/-- SNCR.CONNECT (R279). -/
def execSncrConnect (n : SockIdx) (s : State) : Host.Outcome State Fault Refusal :=
  .next (runCommand n cmdConnect (actConnect n) s)

/-- SNCR.DISCON (R280). -/
def execSncrDiscon (n : SockIdx) (s : State) : Host.Outcome State Fault Refusal :=
  .next (runCommand n cmdDiscon (actDiscon n) s)

/-- SNCR.CLOSE (R281). -/
def execSncrClose (n : SockIdx) (s : State) : Host.Outcome State Fault Refusal :=
  .next (runCommand n cmdClose (actClose n) s)

/-- SNCR.SEND (R282). -/
def execSncrSend (n : SockIdx) (s : State) : Host.Outcome State Fault Refusal :=
  .next (runCommand n cmdSend (actSend n) s)

/-- SNCR.RECV (R283). -/
def execSncrRecv (n : SockIdx) (s : State) : Host.Outcome State Fault Refusal :=
  .next (runCommand n cmdRecv (actRecv n) s)

/-- SNMR.TCP (R132, R295). -/
def execSnmrTcp (n : SockIdx) (s : State) : Host.Outcome State Fault Refusal :=
  .next (modSock n (fun q => setSockByte q .mr 0 modeTcp) s)

/-- SNMR.UDP (R132, R295). -/
def execSnmrUdp (n : SockIdx) (s : State) : Host.Outcome State Fault Refusal :=
  .next (modSock n (fun q => setSockByte q .mr 0 modeUdp) s)

end Sys2Proof.Machine
end

