-- ==== Sys2Proof/Machine/Control.lean ====
section
/-! DEFINITION. Configuration, soft reset and identification (R190 to R195). -/

namespace Sys2Proof.Machine

/-- One read of the mode register into MRV. -/
def readMr (s : State) : Res Unit := (readByte 0#5 (commonOff s.cfg .mr) s).andThen fun v s => .ok () (setMrv v s)

/-- R191 steps 3 and 4: one poll of the mode register. -/
def resetPoll (s : State) : Res Bool :=
  (readMr (goto .softReset 3 s)).andThen fun _ s =>
    .ok (s.lat.mrv == 0x00#8) (goto .softReset 4 s)

/-- R191 steps 5 to 7. -/
def resetSteps : WaitSteps := ⟨.running .softReset 5 0, .running .softReset 6 0, .running .softReset 7 0⟩

/-- R191: SoftReset. -/
def softReset (s : State) : Res Unit :=
  (writeByte 0#5 (commonOff s.cfg .mr) mrRst (goto .softReset 1 s)).andThen fun _ s =>
    pollLoop resetSteps resetPolls resetIntervalMs (fun s => .resetTimeout s.lat.mrv) resetPoll resetPolls
      (setPoll 1 (goto .softReset 2 s))

/-- R192 steps 1 to 3: write one fingerprint byte and read it back. -/
def fingerprint (stage : Nat) (v : Byte) (s : State) : Res Unit :=
  (writeByte 0#5 (commonOff s.cfg .mr) v (goto .verifyId stage s)).andThen fun _ s =>
    (readMr s).andThen fun _ s =>
      if s.lat.mrv ≠ v then .err (.chipNotDetected stage s.lat.mrv) s else .ok () s

/-- R193: the version check. -/
def versionCheck (s : State) : Res Unit :=
  (readByte 0#5 (commonOff s.cfg .versionr) (goto .verifyId 4 s)).andThen fun v s =>
    if v ≠ versionExpected then .err (.chipNotDetected 4 v) s else .ok () s

/-- R192, R193: VerifyIdentity. -/
def verifyIdentity (s : State) : Res Unit :=
  (fingerprint 1 fpFirst s).andThen fun _ s =>
    (fingerprint 2 fpSecond s).andThen fun _ s =>
      (fingerprint 3 fpThird s).andThen fun _ s =>
        (versionCheck s).andThen fun _ s => .ok () (goto .verifyId 5 s)

/-- R190 steps 1 and 2: apply the bus settings and drive CS to its idle level. -/
def applyBus (s : State) : State :=
  (goto .configure 2 ((goto .configure 1 s).setBus (some ⟨spiClockMaxHz, true, s.cfg.spiMode⟩))).setCs .high

/-- R190, R194: Configure; an error of steps 3 and 4 leaves it wrapped. -/
def configure (s : State) : Res Unit :=
  ((softReset (goto .configure 3 (applyBus s))).andThen fun _ s => verifyIdentity (goto .configure 4 s)).mapErr
    Err.configurationError

/-- CTL.CONFIGURE (R190). -/
def execCtlConfigure (s : State) : Host.Outcome State Fault Refusal :=
  .next (finish ((configure s).andThen fun _ s => .ok .unit (goto .configure 5 s)))

/-- CTL.SOFTRESET (R191). -/
def execCtlSoftReset (s : State) : Host.Outcome State Fault Refusal :=
  .next (finish ((softReset s).andThen fun _ s => .ok .unit s))

/-- CTL.VERIFYID (R192). -/
def execCtlVerifyId (s : State) : Host.Outcome State Fault Refusal :=
  .next (finish ((verifyIdentity s).andThen fun _ s => .ok .unit s))

end Sys2Proof.Machine
end

