-- ==== Sys2Proof/Machine/SocketOps.lean ====
section
/-! DEFINITION. Socket handles, status, the command protocol, Open, Listen, Connect, Disconnect, Close (R210 to R221). -/

namespace Sys2Proof.Machine

/-- R210 step 2: a size argument, 2048 where none is given; any other than the five is refused. -/
def sizeOf? (arg : Option Nat) : Except Nat BufSize :=
  match arg with
  | none => .ok .s2048
  | some n =>
    match BufSize.ofNat? n with
    | some size => .ok size
    | none => .error n

/-- R210: the handle, or the argument that is refused; the index is tested first. -/
def newHandle (n : Nat) (sTx sRx : Option Nat) : Except Nat Handle :=
  if h : n < 8 then
    match sizeOf? sTx with
    | .error a => .error a
    | .ok tx =>
      match sizeOf? sRx with
      | .error a => .error a
      | .ok rx => .ok ⟨⟨n, h⟩, tx, rx⟩
  else .error n

/-- R210: the step that refuses: 1 the index, 2 a size. -/
def newSocketStep (n : Nat) : Nat := if n < 8 then 2 else 1

/-- SOCK.NEW (R210): no bus traffic. -/
def execSockNew (n : Nat) (sTx sRx : Option Nat) (s : State) : Host.Outcome State Fault Refusal :=
  match newHandle n sTx sRx with
  | .ok hd => .next (complete (.done (.handle s.handles.length hd)) ((goto .newSocket 3 s).setHandles (s.handles ++ [hd])))
  | .error a => .next (raise (.invalidArgument a) (goto .newSocket (newSocketStep n) s))

/-- SOCK.STATUS (R211). -/
def execSockStatus (h : Half) (s : State) : Host.Outcome State Fault Refusal :=
  onHandle h (fun hd s => finish ((readStatus hd.n (goto .status 1 s)).andThen fun _ s => .ok (.byte s.lat.st) s)) s

/-- SOCK.EXEC (R212). -/
def execSockExec (h : Half) (code : Byte) (s : State) : Host.Outcome State Fault Refusal :=
  onHandle h (fun hd s => finish ((execProtocol hd.n code s).andThen fun _ s => .ok .unit s)) s

/-- R213 step 1, R132: the protocol's mode code. -/
def protocolMode (protocol : List Byte) : Option Byte :=
  if protocol = protocolTcp then some modeTcp else if protocol = protocolUdp then some modeUdp else none

/-- R213 step 5: force-close a socket that is not CLOSED. -/
def forceClose (n : SockIdx) (s : State) : Res Unit :=
  if s.lat.st ≠ s.cfg.status.closed then execProtocol n cmdClose (logLine s) else .ok () s

/-- R213 step 8, R214: the source port: the caller's, or an ephemeral one for port 0. -/
def choosePort (port : Half) (s : State) : State :=
  if port = 0#16 then setPort (ephemeralPort (nextRand s)) (useRand s) else setPort port s

/-- R213: Open. -/
def openSocket (hd : Handle) (protocol : List Byte) (port : Half) (s : State) : Res Unit :=
  let s := goto .openSocket 1 s
  match protocolMode protocol with
  | none => .err (.unsupportedProtocol protocol) s
  | some mode =>
    (writeSock hd.n .txbufSize [hd.sTx.code] (goto .openSocket 2 s)).andThen fun _ s =>
    (writeSock hd.n .rxbufSize [hd.sRx.code] (goto .openSocket 3 s)).andThen fun _ s =>
    (readStatus hd.n (goto .openSocket 4 s)).andThen fun _ s =>
    (forceClose hd.n (goto .openSocket 5 s)).andThen fun _ s =>
    (writeSock hd.n .mr [mode] (goto .openSocket 6 s)).andThen fun _ s =>
    (writeSock hd.n .ir [irClearAll] (goto .openSocket 7 s)).andThen fun _ s =>
    let s := choosePort port (goto .openSocket 8 s)
    (writeSock hd.n .port (halfBytes s.lat.port) (goto .openSocket 9 s)).andThen fun _ s =>
    (execProtocol hd.n cmdOpen (goto .openSocket 10 s)).andThen fun _ s => .ok () (goto .openSocket 11 s)

/-- SOCK.OPEN (R213). -/
def execSockOpen (h : Half) (protocol : List Byte) (port : Half) (s : State) : Host.Outcome State Fault Refusal :=
  onHandle h (fun hd s => finish ((openSocket hd protocol port s).andThen fun _ s => .ok .unit s)) s

/-- R215: Listen. -/
def listen (n : SockIdx) (s : State) : Res Unit :=
  (readStatus n (goto .listen 1 s)).andThen fun _ s =>
    let s := goto .listen 2 s
    if s.lat.st ≠ s.cfg.status.init then .err (.invalidStateError s.lat.st) s
    else (execProtocol n cmdListen (goto .listen 3 s)).andThen fun _ s => .ok () (goto .listen 4 s)

/-- SOCK.LISTEN (R215). -/
def execSockListen (h : Half) (s : State) : Host.Outcome State Fault Refusal :=
  onHandle h (fun hd s => finish ((listen hd.n s).andThen fun _ s => .ok .unit s)) s

/-- R216 steps 7 to 10: one round of the connect wait; the status is tested before the deadline (D20). -/
def connectPoll (n : SockIdx) (s : State) : Res Bool :=
  (readStatus n (goto .connect 7 s)).andThen fun _ s =>
    let s := goto .connect 8 s
    if s.lat.st = s.cfg.status.established then .ok true s
    else
      let s := goto .connect 9 s
      if s.lat.st = s.cfg.status.closed then .err .connectionRefused s
      else
        let s := readClock (goto .connect 10 s)
        if connectTimeoutMs ≤ s.clock - s.lat.t0 then .err (.connectTimeout s.lat.st) s else .ok false s

/-- R216, R331: the bound of the connect wait. The clock moves by at least 1 ms per round, so the deadline test of round
5001 cannot fail; the bound only makes the recursion structural. -/
def connectRounds : Nat := 5001

/-- R216 steps 7 to 11: the connect wait. It has a deadline and no budget, and does not use POLL (R23). -/
def connectLoop (n : SockIdx) : Nat → State → Res Unit
  | 0, s => .err (.connectTimeout s.lat.st) s
  | fuel + 1, s =>
    (connectPoll n s).andThen fun ready s =>
      if ready then .ok () s else connectLoop n fuel (sleep connectIntervalMs (goto .connect 11 s))

/-- R216: Connect. -/
def connect (n : SockIdx) (ip : Quad) (port : Half) (s : State) : Res Unit :=
  (readStatus n (goto .connect 1 s)).andThen fun _ s =>
    let s := goto .connect 2 s
    if s.lat.st ≠ s.cfg.status.init then .err (.invalidStateError s.lat.st) s
    else
      (writeSock n .dipr ip.toList (goto .connect 3 s)).andThen fun _ s =>
      (writeSock n .dport (halfBytes port) (goto .connect 4 s)).andThen fun _ s =>
      (execProtocol n cmdConnect (goto .connect 5 s)).andThen fun _ s =>
      let s := readClock (goto .connect 6 s)
      connectLoop n connectRounds (setT0 s.clock s)

/-- SOCK.CONNECT (R216). -/
def execSockConnect (h : Half) (ip : Quad) (port : Half) (s : State) : Host.Outcome State Fault Refusal :=
  onHandle h (fun hd s => finish ((connect hd.n ip port s).andThen fun _ s => .ok .unit s)) s

/-- SOCK.DISCONNECT (R217): no status read before or after. -/
def execSockDisconnect (h : Half) (s : State) : Host.Outcome State Fault Refusal :=
  onHandle h (fun hd s =>
    finish ((execProtocol hd.n cmdDiscon (goto .disconnect 1 s)).andThen fun _ s => .ok .unit s)) s

/-- SOCK.CLOSE (R218). -/
def execSockClose (h : Half) (s : State) : Host.Outcome State Fault Refusal :=
  onHandle h (fun hd s => finish ((execProtocol hd.n cmdClose (goto .close 1 s)).andThen fun _ s => .ok .unit s)) s

end Sys2Proof.Machine
end

