-- ==== Sys2Proof/Machine/Spi.lean ====
section
/-! DEFINITION. The two frame kinds (R120, R160, R161): one frame on the bus, its data phase or failure as result. -/

namespace Sys2Proof.Machine

/-- SPI.READ (R160): one read frame. -/
def execSpiRead (blk : Selector) (off : Half) (len : Nat) (s : State) : Host.Outcome State Fault Refusal :=
  .next (finish ((memRead blk off len (goto .read 1 s)).andThen fun d s => .ok (.bytes d) s))

/-- SPI.WRITE (R161): one write frame. -/
def execSpiWrite (blk : Selector) (off : Half) (data : List Byte) (s : State) : Host.Outcome State Fault Refusal :=
  .next (finish ((memWrite blk off data (goto .write 1 s)).andThen fun _ s => .ok .unit s))

end Sys2Proof.Machine
end

