-- ==== Sys2Proof/Machine/Stream.lean ====
section
/-! DEFINITION. The buffered stream operations (R240 to R245, R255 to R262). -/

namespace Sys2Proof.Machine

/-- R241: the states that give end-of-stream when nothing is left. -/
def endsStream (c : StatusCodes) (st : Byte) : Bool := st == c.listen || st == c.closed || st == c.closeWait

/-- R257: the states a Write may send in. -/
def maySend (c : StatusCodes) (st : Byte) : Bool := st == c.established || st == c.closeWait

/-- R240 step 6, R242: the RECV command; its failure is reported beside the count. -/
def acknowledge (n : SockIdx) (s : State) : Res (Nat × Option Err) :=
  match execProtocol n cmdRecv (goto .streamRead 6 s) with
  | .ok _ s => .ok (s.lat.cnt, none) (goto .streamRead 7 s)
  | .err e s => .ok (s.lat.cnt, some e) s

/-- R240 step 2, size 0: end-of-stream or nothing yet. -/
def nothingReceived (n : SockIdx) (s : State) : Res (Nat × Option Err) :=
  (readStatus n s).andThen fun _ s =>
    if endsStream s.cfg.status s.lat.st then .ok (0, some .endOfStream) s else .ok (0, none) s

/-- R240 steps 3 to 6. -/
def takeReceived (hd : Handle) (len : Nat) (s : State) : Res (Nat × Option Err) :=
  let s := setCnt (min s.lat.sz.toNat len) (goto .streamRead 3 s)
  (readSock16 hd.n .rxRd (goto .streamRead 4 s)).andThen fun p s =>
  let s := setPtr p s
  let s := setAddr (rxAddr s.cfg hd.n hd.sRx s.lat.ptr) s
  (memRead (rxBlk hd.n) s.lat.addr s.lat.cnt s).andThen fun d s =>
  let s := (goto .streamRead 5 s).setDest d
  (writeSock hd.n .rxRd (halfBytes (s.lat.ptr + BitVec.ofNat 16 s.lat.cnt)) s).andThen fun _ s =>
  acknowledge hd.n s

/-- R240: stream Read into a buffer of `len` bytes. -/
def streamRead (hd : Handle) (len : Nat) (s : State) : Res (Nat × Option Err) :=
  let s := (goto .streamRead 1 s).setDest []
  if len = 0 then .ok (0, none) s
  else
    (readSock16 hd.n .rxRsr (goto .streamRead 2 s)).andThen fun v s =>
      let s := setSz v s
      if s.lat.sz = 0#16 then nothingReceived hd.n s else takeReceived hd len s

/-- SOCK.READ (R240). -/
def execSockRead (h : Half) (len : Nat) (s : State) : Host.Outcome State Fault Refusal :=
  onHandle h (fun hd s => finishStream (streamRead hd len s)) s

/-- R255 steps 3a to 3c, R258: one round of the free-space wait: size, then status. -/
def freePoll (n : SockIdx) (s : State) : Res Bool :=
  (readSock16 n .txFsr (gotoSub .streamWrite 3 1 s)).andThen fun v s =>
    let s := gotoSub .streamWrite 3 2 (setSz v s)
    if s.lat.cnt ≤ s.lat.sz.toNat then .ok true s
    else
      (readStatus n (gotoSub .streamWrite 3 3 s)).andThen fun _ s =>
        if maySend s.cfg.status s.lat.st then .ok false s else .err .endOfStream s

/-- R255 steps 7a to 7c, R259: one round of the send-ok wait: flag, then status; only CLOSED aborts. -/
def sendOkPoll (n : SockIdx) (s : State) : Res Bool :=
  (readSock8 n .ir (gotoSub .streamWrite 7 1 s)).andThen fun v s =>
    let s := gotoSub .streamWrite 7 2 (setIrv v s)
    if sendOkSet s.lat.irv then .ok true s
    else
      (readStatus n (gotoSub .streamWrite 7 3 s)).andThen fun _ s =>
        if s.lat.st = s.cfg.status.closed then .err .socketClosedDuringWrite s
        else .ok false s

/-- R255 steps 3d, 3e and steps 7d, 7e. -/
def writeSteps (step : Nat) : WaitSteps :=
  ⟨.running .streamWrite step 4, .running .streamWrite step 5, .running .streamWrite step 5⟩

/-- R255 step 3: wait for room. -/
def waitFree (n : SockIdx) (s : State) : Res Unit :=
  pollLoop (writeSteps 3) s.cfg.freeWaitMaxPolls freeIntervalMs (fun s => .sendWaitTimeout .freeSpace s.lat.sz.toNat)
    (freePoll n) s.cfg.freeWaitMaxPolls (setPoll 1 (goto .streamWrite 3 s))

/-- R255 step 7: wait for send-ok. -/
def waitSendOk (n : SockIdx) (s : State) : Res Unit :=
  pollLoop (writeSteps 7) s.cfg.sendOkMaxPolls s.cfg.sendOkIntervalMs
    (fun s => .sendWaitTimeout .sendOk s.lat.irv.toNat) (sendOkPoll n) s.cfg.sendOkMaxPolls
    (setPoll 1 (goto .streamWrite 7 s))

/-- R255 steps 4 and 5: store the payload, advance the write pointer. -/
def placePayload (hd : Handle) (data : List Byte) (s : State) : Res Unit :=
  (readSock16 hd.n .txWr (goto .streamWrite 4 s)).andThen fun p s =>
  let s := setPtr p s
  let s := setAddr (txAddr hd.n hd.sTx s.lat.ptr) s
  (memWrite (txBlk hd.n) s.lat.addr data s).andThen fun _ s =>
  writeSock hd.n .txWr (halfBytes (s.lat.ptr + BitVec.ofNat 16 s.lat.cnt)) (goto .streamWrite 5 s)

/-- R255: stream Write. -/
def streamWrite (hd : Handle) (data : List Byte) (s : State) : Res (Nat × Option Err) :=
  let s := setCnt data.length (goto .streamWrite 1 s)
  if hd.sTx.bytes < s.lat.cnt then .err (.payloadTooLarge s.lat.cnt hd.sTx.bytes) s
  else
    (readStatus hd.n (goto .streamWrite 2 s)).andThen fun _ s =>
      if maySend s.cfg.status s.lat.st then
        (waitFree hd.n s).andThen fun _ s =>
        (placePayload hd data s).andThen fun _ s =>
        (execProtocol hd.n cmdSend (goto .streamWrite 6 s)).andThen fun _ s =>
        (waitSendOk hd.n s).andThen fun _ s => .ok (s.lat.cnt, none) (goto .streamWrite 8 s)
      else .err (.writeOnClosedSocket s.lat.st) s

/-- SOCK.WRITE (R255). -/
def execSockWrite (h : Half) (data : List Byte) (s : State) : Host.Outcome State Fault Refusal :=
  onHandle h (fun hd s => finishStream (streamWrite hd data s)) s

end Sys2Proof.Machine
end

