-- ==== Sys2Proof/Machine/Dispatch.lean ====
section
/-! DEFINITION. The meaning of every instruction of the opcode table. -/

namespace Sys2Proof.Machine

def exec (i : Instr) (s : State) : Host.Outcome State Fault Refusal :=
  match i with
  | .spiRead blk off len => Sys2Proof.Machine.execSpiRead blk off len s
  | .spiWrite blk off data => Sys2Proof.Machine.execSpiWrite blk off data s
  | .sncrOpen n => Sys2Proof.Machine.execSncrOpen n s
  | .sncrListen n => Sys2Proof.Machine.execSncrListen n s
  | .sncrConnect n => Sys2Proof.Machine.execSncrConnect n s
  | .sncrDiscon n => Sys2Proof.Machine.execSncrDiscon n s
  | .sncrClose n => Sys2Proof.Machine.execSncrClose n s
  | .sncrSend n => Sys2Proof.Machine.execSncrSend n s
  | .sncrRecv n => Sys2Proof.Machine.execSncrRecv n s
  | .snmrTcp n => Sys2Proof.Machine.execSnmrTcp n s
  | .snmrUdp n => Sys2Proof.Machine.execSnmrUdp n s
  | .ctlRead blk off len => Sys2Proof.Machine.execCtlRead blk off len s
  | .ctlWrite blk off data => Sys2Proof.Machine.execCtlWrite blk off data s
  | .ctlReadByte blk off => Sys2Proof.Machine.execCtlReadByte blk off s
  | .ctlRead16 blk off => Sys2Proof.Machine.execCtlRead16 blk off s
  | .ctlWriteByte blk off v => Sys2Proof.Machine.execCtlWriteByte blk off v s
  | .ctlWrite16 blk off v => Sys2Proof.Machine.execCtlWrite16 blk off v s
  | .ctlSetIP a => Sys2Proof.Machine.execCtlSetIP a s
  | .ctlGetIP => Sys2Proof.Machine.execCtlGetIP s
  | .ctlGetGW => Sys2Proof.Machine.execCtlGetGW s
  | .ctlSetGW a => Sys2Proof.Machine.execCtlSetGW a s
  | .ctlGetSubnet => Sys2Proof.Machine.execCtlGetSubnet s
  | .ctlSetSubnet a => Sys2Proof.Machine.execCtlSetSubnet a s
  | .ctlGetMac => Sys2Proof.Machine.execCtlGetMac s
  | .ctlSetMac a => Sys2Proof.Machine.execCtlSetMac a s
  | .ctlConfigure => Sys2Proof.Machine.execCtlConfigure s
  | .ctlSoftReset => Sys2Proof.Machine.execCtlSoftReset s
  | .ctlVerifyId => Sys2Proof.Machine.execCtlVerifyId s
  | .sockNew n sTx sRx => Sys2Proof.Machine.execSockNew n sTx sRx s
  | .sockStatus h => Sys2Proof.Machine.execSockStatus h s
  | .sockExec h code => Sys2Proof.Machine.execSockExec h code s
  | .sockOpen h protocol port => Sys2Proof.Machine.execSockOpen h protocol port s
  | .sockListen h => Sys2Proof.Machine.execSockListen h s
  | .sockConnect h ip port => Sys2Proof.Machine.execSockConnect h ip port s
  | .sockDisconnect h => Sys2Proof.Machine.execSockDisconnect h s
  | .sockClose h => Sys2Proof.Machine.execSockClose h s
  | .sockRead h len => Sys2Proof.Machine.execSockRead h len s
  | .sockWrite h data => Sys2Proof.Machine.execSockWrite h data s

end Sys2Proof.Machine
end

