-- ==== Sys2Proof/Machine/Requests.lean ====
section
/-! DEFINITION. What the host boundary does around an instruction: request bytes that are no instruction (R325, U2, R136),
and the block waiting for the host (R275, R333). -/

namespace Sys2Proof.Machine

/-- R325, D25: an operation code outside the table: an error result, no bus traffic, no other change. -/
def unknownOperation (code : Byte) (s : State) : State := s.setResult (some (.failed (.unknownOperation code)))

/-- Request bytes that decode to no instruction. -/
def rejectRequest (e : DecodeError) (s : State) : Host.Outcome State Fault Refusal :=
  match e with
  | .unknownOperation code => .next (unknownOperation code s)
  | .reservedLengthMode om => .fault (.reservedLengthMode om)
  | .reservedCommand code => .refused (.reservedCommand code)
  | .reservedMode code => .refused (.reservedMode code)
  | .malformed => .refused .malformedRequest

/-- R275, R333: no request is pending: the block waits, and the chip may take steps. -/
def waitForHost (s : State) : State := chipTurn s

/-- R333: the block takes the request at the head of the list. -/
def takeRequest (rest : List Request) (s : State) : State := s.setRequests rest

/-- A request placed to be taken next; the sequencer is idle, so that it is taken. -/
def placeRequest (r : Request) (s : State) : State := (s.setRequests (r :: s.requests)).setSeq .idle

end Sys2Proof.Machine
end

