-- ==== Sys2Proof/Machine/Step.lean ====
section
/-! DEFINITION. One step of the machine: the block takes the next host request, decodes it and runs the whole operation
(R333); with no request pending the block waits while the chip may take steps (R275). -/

namespace Sys2Proof.Machine

/-- R333: a request is taken only when the sequencer is idle, and runs to its end. -/
def step (s : State) : Host.Outcome State Fault Refusal :=
  match s.seq with
  | .running _ _ _ => .fault .sequencerBusy
  | .idle =>
    match s.requests with
    | [] => .next (waitForHost s)
    | r :: rest =>
      match decode r with
      | .ok i => exec i (takeRequest rest s)
      | .error e => rejectRequest e (takeRequest rest s)

/-- The table word `w` of `nbits` bits as the host's next request (log entry 13). -/
def State.withFetchWord (s : State) (nbits w : Nat) : State := placeRequest (tableRequest nbits w) s

end Sys2Proof.Machine
end

