-- ==== Sys2Proof/Safety.lean ====
section
/-! DEFINITION. What holds between operations, and the conditions on a state that claims are stated under. -/

namespace Sys2Proof.Safety

open Sys2Proof.Machine

/-- Between operations: the sequencer is idle and the latches dead (R23, R24), chip-select is not low (R21), it is high
once the bus settings are applied (R54), and the buffer memories are in canonical form. -/
structure Inv (s : State) : Prop where
  idle : s.seq = .idle
  csNotLow : s.cs ≠ .low
  csHigh : s.bus.isSome = true → s.cs = .high
  latchesDead : s.lat = Latches.dead
  memWf : Memory.wf s.chip.mem = true

/-- Configure has applied the bus settings (R363), the transfer primitive does not fail, and a chip of this family answers. -/
structure Clean (s : State) : Prop where
  configured : s.bus.isSome = true
  noFault : s.env.transfers = []
  chipAnswers : s.env.missed = []

/-- R275: the steps the chip takes in the `j`-th gap from now, a gap being the time before one transaction. -/
abbrev gapAt (s : State) (j : Nat) : List ChipEvent := s.env.chip.getD j []

/-- The chip takes no step in the next `k` gaps. -/
abbrev QuietFor (s : State) (k : Nat) : Prop := ∀ j, j < k → gapAt s j = []

/-- R8: the byte ranges of the common registers are pairwise disjoint. -/
abbrev CommonDisjoint (c : Cfg) : Prop :=
  ∀ r ∈ CommonReg.all, ∀ q ∈ CommonReg.all, r ≠ q →
    ∀ i ∈ List.range r.width, ∀ j ∈ List.range q.width,
      commonOff c r + BitVec.ofNat 16 i ≠ commonOff c q + BitVec.ofNat 16 j

/-- R8: the byte ranges of the socket registers are pairwise disjoint. -/
abbrev SockDisjoint (c : Cfg) : Prop :=
  ∀ r ∈ SockReg.all, ∀ q ∈ SockReg.all, r ≠ q →
    ∀ i ∈ List.range r.width, ∀ j ∈ List.range q.width,
      sockOff c r + BitVec.ofNat 16 i ≠ sockOff c q + BitVec.ofNat 16 j

/-- R8: the thirteen status codes. -/
def statusList (c : StatusCodes) : List Byte :=
  [c.closed, c.init, c.listen, c.synSent, c.recv, c.established, c.finWait, c.closing, c.timeWait, c.closeWait, c.lastAck,
    c.udp, c.macRaw]

/-- R8: the constraints on the open parameters. -/
structure CfgOk (c : Cfg) : Prop where
  common : CommonDisjoint c
  sock : SockDisjoint c
  status : (statusList c.status).Nodup
  freeBudget : 0 < c.freeWaitMaxPolls
  sendOkBudget : 0 < c.sendOkMaxPolls

/-- The bank of socket `n`. -/
abbrev bank (s : State) (n : SockIdx) : Socket := s.chip.sock.get n

/-- The chip with one bank replaced. -/
def withBank (c : Chip) (n : SockIdx) (q : Socket) : Chip := { c with sock := c.sock.set n q }

/-- R160: one read frame that completed, as it stands in the trace. -/
def readFrame (blk : Selector) (off : Half) (data : List Byte) : BusAct := .frame (header blk off false) data

/-- R161: one write frame that completed, as it stands in the trace. -/
def writeFrame (blk : Selector) (off : Half) (data : List Byte) : BusAct := .frame (header blk off true) data

/-- A read of a socket register, with the bytes it showed. -/
def regRead (c : Cfg) (n : SockIdx) (r : SockReg) (data : List Byte) : BusAct :=
  readFrame (regBlk n) (sockOff c r) data

/-- A write of a socket register. -/
def regWrite (c : Cfg) (n : SockIdx) (r : SockReg) (data : List Byte) : BusAct :=
  writeFrame (regBlk n) (sockOff c r) data

/-- R212 step 1: the frame that writes the command register. -/
def commandWrite (c : Cfg) (n : SockIdx) (code : Byte) : BusAct := regWrite c n .cr [code]

/-- R212 step 3: the frame of one poll of the command register, with the value it showed. -/
def commandRead (c : Cfg) (n : SockIdx) (v : Byte) : BusAct := regRead c n .cr [v]

/-- R212: `k` polls that show the command still pending, a sleep after each. -/
def pendingPolls (c : Cfg) (n : SockIdx) (code : Byte) (k : Nat) : List BusAct :=
  (List.replicate k [commandRead c n code, .sleep cmdIntervalMs]).flatten

/-- R212: what the command protocol does at the boundary when poll `m` is the first to show `v`, in order. -/
def commandPolls (c : Cfg) (n : SockIdx) (code : Byte) (m : Nat) (v : Byte) : List BusAct :=
  commandWrite c n code :: (pendingPolls c n code (m - 1) ++ [commandRead c n v])

/-- R212: what the command protocol does at the boundary when the chip takes the command before poll `m`, in order. -/
def commandTrace (c : Cfg) (n : SockIdx) (code : Byte) (m : Nat) : List BusAct := commandPolls c n code m 0x00#8

/-- R276: a bank after the chip has taken the command `code`: the register reads 0x00, the action has begun. -/
def taken (q : Socket) (code : Byte) : Socket :=
  { q with cr := 0x00#8, pending := none, inProgress := q.inProgress ++ [code] }

/-- R36: a bank in which the block has written `code` to the command register. -/
def commanded (q : Socket) (code : Byte) : Socket := { q with cr := code, pending := some code }

/-- R276: a bank with no command waiting: the register reads 0x00 and nothing written is untaken. -/
def cleared (q : Socket) : Socket := { q with cr := 0x00#8, pending := none }

/-- R276, R212: the chip leaves the next `m` gaps quiet and takes the command in the one after, before poll `m`; gaps
are counted from gap `k`, the one before the command is written. -/
def Accepts (s : State) (n : SockIdx) (k m : Nat) : Prop :=
  (∀ j, j < m → gapAt s (k + j) = []) ∧ gapAt s (k + m) = [.accept n]

/-- R310, R328: an operation has ended with the result `r`, and of the block nothing else has changed. -/
structure Ended (s t : State) (r : OpResult) : Prop where
  cfg : t.cfg = s.cfg
  bus : t.bus = s.bus
  handles : t.handles = s.handles
  requests : t.requests = s.requests
  dest : t.dest = s.dest
  result : t.result = some r
  idle : t.seq = .idle
  latches : t.lat = Latches.dead
  cs : t.cs = .high

/-- R92: the places a write only stores to. -/
def plainStorage : Target → Bool
  | .common r _ => r != .mr && r != .versionr
  | .sock _ r _ =>
    r == .mr || r == .port || r == .dipr || r == .dport || r == .rxbufSize || r == .txbufSize || r == .txWr || r == .rxRd
  | .cell _ => true
  | .unnamed => false

/-- R87: the address of byte `i` of a frame that starts at `off`. -/
def frameTarget (c : Cfg) (blk : Selector) (off : Half) (i : Nat) : Target := target c blk (off + BitVec.ofNat 16 i)

/-- The `len` bytes of a frame go to plain storage, each to a place of its own. -/
def PlainWrite (c : Cfg) (blk : Selector) (off : Half) (len : Nat) : Prop :=
  (∀ i, i < len → plainStorage (frameTarget c blk off i) = true) ∧
    ∀ i, i < len → ∀ j, j < len → i ≠ j → frameTarget c blk off i ≠ frameTarget c blk off j

/-- The bytes `data` stand at the addresses of a frame, and every byte at another place reads in `t` as in `s`. -/
def Stored (s t : State) (blk : Selector) (off : Half) (data : List Byte) : Prop :=
  (∀ i (h : i < data.length), peek t blk (off + BitVec.ofNat 16 i) = some data[i]) ∧
    ∀ b o, (∀ i, i < data.length → target s.cfg b o ≠ frameTarget s.cfg blk off i) → peek t b o = peek s b o

/-- The handle number of a socket operation. -/
def handleNumber : Instr → Option Half
  | .sockStatus h | .sockExec h _ | .sockOpen h _ _ | .sockListen h | .sockConnect h _ _ | .sockDisconnect h
  | .sockClose h | .sockRead h _ | .sockWrite h _ => some h
  | _ => none

/-- A command or mode byte, an instruction of the chip's side (R131, R132). -/
def chipSide : Instr → Bool
  | .sncrOpen _ | .sncrListen _ | .sncrConnect _ | .sncrDiscon _ | .sncrClose _ | .sncrSend _ | .sncrRecv _ | .snmrTcp _
  | .snmrUdp _ => true
  | _ => false

/-- The three selectors of the socket a handle names (R81). -/
def ownsSocket (s : State) (h : Half) (b : Selector) : Bool :=
  match handleOf s h with
  | some hd => b == regBlk hd.n || b == txBlk hd.n || b == rxBlk hd.n
  | none => false

/-- The selectors an operation may put on the bus: the one it is given, block 0, or the three of its socket (R81, R82). -/
def ownsBlock (s : State) (i : Instr) (b : Selector) : Bool :=
  match i with
  | .spiRead blk _ _ | .spiWrite blk _ _ | .ctlRead blk _ _ | .ctlWrite blk _ _ | .ctlReadByte blk _ | .ctlRead16 blk _
  | .ctlWriteByte blk _ _ | .ctlWrite16 blk _ _ => b == blk
  | .ctlSetIP _ | .ctlGetIP | .ctlGetGW | .ctlSetGW _ | .ctlGetSubnet | .ctlSetSubnet _ | .ctlGetMac | .ctlSetMac _
  | .ctlConfigure | .ctlSoftReset | .ctlVerifyId => b == 0#5
  | .sockStatus h | .sockExec h _ | .sockOpen h _ _ | .sockListen h | .sockConnect h _ _ | .sockDisconnect h
  | .sockClose h | .sockRead h _ | .sockWrite h _ => ownsSocket s h b
  | .sncrOpen _ | .sncrListen _ | .sncrConnect _ | .sncrDiscon _ | .sncrClose _ | .sncrSend _ | .sncrRecv _ | .snmrTcp _
  | .snmrUdp _ | .sockNew .. => false

/-- R127: the selector in a header. -/
def headerSelector (hdr : Header) : Selector := ctrlSelector hdr[2]

/-- The header of a boundary action that is a frame, complete or not. -/
def actHeader : BusAct → Option Header
  | .frame hdr _ | .headerFailed hdr | .dataFailed hdr => some hdr
  | _ => none

/-- R162: a frame that failed. -/
def busFailed : BusAct → Bool
  | .headerFailed _ | .dataFailed _ => true
  | .frame _ _ | .sleep _ | .now _ | .rand _ | .log => false

/-- R312: the transfer primitive's cause in an error, out of Configure too. -/
def ioCause : Err → Option Nat
  | .ioError c => some c
  | .configurationError e => ioCause e
  | .resetTimeout _ | .chipNotDetected _ _ | .commandTimeout _ | .invalidCommandState _ _ | .connectTimeout _
  | .connectionRefused | .sendWaitTimeout _ _ | .socketClosedDuringWrite | .unsupportedProtocol _ | .invalidStateError _
  | .writeOnClosedSocket _ | .invalidArgument _ | .unknownOperation _ | .payloadTooLarge _ _ | .endOfStream => none

/-- R312: the transfer primitive's cause in a result. -/
def resultCause : OpResult → Option Nat
  | .done _ => none
  | .failed e => ioCause e
  | .stream _ e => e.bind ioCause

/-- R255 steps 3a to 3e: the looks of the free-space wait, in order: size, status, a sleep between two. -/
def freeLooks (c : Cfg) (n : SockIdx) (size : Half) (sts : List Byte) : List BusAct :=
  [.sleep freeIntervalMs].intercalate
    (sts.map fun v => [regRead c n .txFsr [size.extractLsb' 8 8, size.extractLsb' 0 8], regRead c n .sr [v]])

/-- R255 steps 7a to 7e: the looks of the send-ok wait, in order: flags, status, a sleep between two. -/
def sendOkLooks (c : Cfg) (n : SockIdx) (ir : Byte) (sts : List Byte) : List BusAct :=
  [.sleep c.sendOkIntervalMs].intercalate (sts.map fun v => [regRead c n .ir [ir], regRead c n .sr [v]])

/-- R255 steps 3a to 3e: one look of the free-space wait that does not end it: size, status, a sleep. -/
def freeAgain (c : Cfg) (n : SockIdx) (q : Socket) : List BusAct :=
  [regRead c n .txFsr [q.txFsr.extractLsb' 8 8, q.txFsr.extractLsb' 0 8], regRead c n .sr [q.sr], .sleep freeIntervalMs]

/-- R255 steps 7a to 7e: one look of the send-ok wait that does not end it: flags, status, a sleep. -/
def sendOkAgain (c : Cfg) (n : SockIdx) (q : Socket) : List BusAct :=
  [regRead c n .ir [q.ir], regRead c n .sr [q.sr], .sleep c.sendOkIntervalMs]

/-- R255 steps 2 to 6: what a Write of `data` does up to the acceptance of SEND before poll `m`, in order, when look `j` is the
first to show room, the free size being `f` there; `q` is the bank before it. -/
def writeFrames (c : Cfg) (hd : Handle) (q : Socket) (data : List Byte) (f : Half) (j m : Nat) : List BusAct :=
  let p := q.txWr
  let p' := p + BitVec.ofNat 16 data.length
  regRead c hd.n .sr [q.sr] :: (List.replicate (j - 1) (freeAgain c hd.n q)).flatten ++
  [regRead c hd.n .txFsr [f.extractLsb' 8 8, f.extractLsb' 0 8],
    regRead c hd.n .txWr [p.extractLsb' 8 8, p.extractLsb' 0 8],
    writeFrame (txBlk hd.n) (txAddr hd.n hd.sTx p) data,
    regWrite c hd.n .txWr [p'.extractLsb' 8 8, p'.extractLsb' 0 8]] ++ commandTrace c hd.n 0x20#8 m

/-- R255 steps 4 to 6: the bank after a Write has advanced the pointer past `len` bytes and SEND was taken. -/
def written (q : Socket) (len : Nat) : Socket := taken { q with txWr := q.txWr + BitVec.ofNat 16 len } 0x20#8

/-- R257, R258: the states a Write may send in. -/
def MaySend (c : Cfg) (v : Byte) : Prop := v = c.status.established ∨ v = c.status.closeWait

/-- R191 to R193: what soft reset and identification raise. -/
def identErr : Err → Bool
  | .ioError _ | .resetTimeout _ | .chipNotDetected _ _ => true
  | _ => false

/-- R212: what the command protocol raises. -/
def execErr : Err → Bool
  | .ioError _ | .commandTimeout _ | .invalidCommandState _ _ => true
  | _ => false

/-- R311, "raised by": the errors an operation may end with. -/
def errorOf (i : Instr) (e : Err) : Bool :=
  match i with
  | .spiRead .. | .spiWrite .. | .ctlRead .. | .ctlWrite .. | .ctlReadByte .. | .ctlRead16 .. | .ctlWriteByte ..
  | .ctlWrite16 .. | .ctlSetIP _ | .ctlGetIP | .ctlGetGW | .ctlSetGW _ | .ctlGetSubnet | .ctlSetSubnet _ | .ctlGetMac
  | .ctlSetMac _ | .sockStatus _ =>
    match e with
    | .ioError _ => true
    | _ => false
  | .ctlConfigure =>
    match e with
    | .configurationError c => identErr c
    | _ => false
  | .ctlSoftReset =>
    match e with
    | .ioError _ | .resetTimeout _ => true
    | _ => false
  | .ctlVerifyId =>
    match e with
    | .ioError _ | .chipNotDetected _ _ => true
    | _ => false
  | .sockNew .. =>
    match e with
    | .invalidArgument _ => true
    | _ => false
  | .sockExec .. | .sockDisconnect _ | .sockClose _ => execErr e
  | .sockOpen _ p _ =>
    match e with
    | .unsupportedProtocol q => p == q
    | e => execErr e
  | .sockListen _ =>
    match e with
    | .invalidStateError _ => true
    | e => execErr e
  | .sockConnect .. =>
    match e with
    | .invalidStateError _ | .connectionRefused | .connectTimeout _ => true
    | e => execErr e
  | .sockRead .. =>
    match e with
    | .endOfStream => true
    | e => execErr e
  | .sockWrite .. =>
    match e with
    | .payloadTooLarge _ _ | .writeOnClosedSocket _ | .endOfStream | .sendWaitTimeout _ _ | .socketClosedDuringWrite => true
    | e => execErr e
  | .sncrOpen _ | .sncrListen _ | .sncrConnect _ | .sncrDiscon _ | .sncrClose _ | .sncrSend _ | .sncrRecv _ | .snmrTcp _
  | .snmrUdp _ => false

/-- A success without a value. -/
def isUnit : OpValue → Bool
  | .unit => true
  | _ => false

/-- A value of `n` bytes. -/
def isBytes (n : Nat) : OpValue → Bool
  | .bytes d => d.length == n
  | _ => false

/-- A one-byte value. -/
def isByte : OpValue → Bool
  | .byte _ => true
  | _ => false

/-- A 16-bit value. -/
def isHalf : OpValue → Bool
  | .half _ => true
  | _ => false

/-- A new handle. -/
def isHandle : OpValue → Bool
  | .handle _ _ => true
  | _ => false

/-- R137, R11: the kind of value an operation gives on success; the stream operations give none. -/
def valueOf (i : Instr) (v : OpValue) : Bool :=
  match i with
  | .spiRead _ _ n | .ctlRead _ _ n => isBytes n v
  | .ctlReadByte .. | .sockStatus _ => isByte v
  | .ctlRead16 .. => isHalf v
  | .sockNew .. => isHandle v
  | .ctlGetIP | .ctlGetGW | .ctlGetSubnet => isBytes 4 v
  | .ctlGetMac => isBytes 6 v
  | .spiWrite .. | .ctlWrite .. | .ctlWriteByte .. | .ctlWrite16 .. | .ctlSetIP _ | .ctlSetGW _ | .ctlSetSubnet _
  | .ctlSetMac _ | .ctlConfigure | .ctlSoftReset | .ctlVerifyId | .sockExec .. | .sockOpen .. | .sockListen _
  | .sockConnect .. | .sockDisconnect _ | .sockClose _ => isUnit v
  | .sockRead .. | .sockWrite .. | .sncrOpen _ | .sncrListen _ | .sncrConnect _ | .sncrDiscon _ | .sncrClose _
  | .sncrSend _ | .sncrRecv _ | .snmrTcp _ | .snmrUdp _ => false

/-- R240, R255: the operations that give a pair. -/
def streamOp : Instr → Bool
  | .sockRead .. | .sockWrite .. => true
  | _ => false

/-- R242, R260: the pairs a stream operation may give; the count beside an error is 0 except that of a Read whose RECV
failed. -/
def pairOf (i : Instr) (n : Nat) (err : Option Err) : Bool :=
  match i with
  | .sockRead _ len =>
    match err with
    | none => decide (n ≤ len)
    | some e => errorOf i e && decide (n ≤ len) && (n == 0 || execErr e)
  | .sockWrite _ data =>
    match err with
    | none => n == data.length
    | some e => errorOf i e && n == 0
  | _ => false

/-- R11, R310: the results an operation may give: a value of its kind, one of its errors, or for the stream operations a
pair. -/
def resultOf (i : Instr) (r : OpResult) : Bool :=
  match r with
  | .done v => valueOf i v
  | .failed e => !streamOp i && errorOf i e
  | .stream n err => pairOf i n err

end Sys2Proof.Safety
end

