-- ==== Sys2Proof/Certificates/Slice0/Obligations.lean ====
section
/-! DEFINITION. The statements for the provers. Each docstring names the rule of spec/ it rests on; "the model's choice"
marks what a log entry, not the spec, gives. -/

open Sys2Proof Sys2Proof.Machine Sys2Proof.Safety

/-! Encoding and stepping -/

/-- R121, R131, R132, R137: words written out from the encodings decode to what they stand for. The operand bytes of the
host operation and the socket index after a command byte are the model's choice (log entry 12). -/
def Obligations.SampleWordsDecode : Prop :=
  decode ⟨.spihdr, [0x00#8, 0x39#8, 0b00000000#8, 0x00#8]⟩ = .ok (.spiRead 0#5 0x0039#16 1) ∧
    decode ⟨.spihdr, [0x12#8, 0x34#8, 0b11111100#8, 0xAB#8, 0xCD#8]⟩ =
      .ok (.spiWrite 31#5 0x1234#16 [0xAB#8, 0xCD#8]) ∧
    decode ⟨.sncr, [0b00100000#8, 0x07#8]⟩ = .ok (.sncrSend 7) ∧
    decode ⟨.snmr, [0b00100001#8, 0x00#8]⟩ = .ok (.snmrTcp 0) ∧
    decode ⟨.hostop, [0b00010000#8, 0xC0#8, 0xA8#8, 0x01#8, 0x0A#8]⟩ =
      .ok (.ctlSetIP ⟨0xC0#8, 0xA8#8, 0x01#8, 0x0A#8⟩) ∧
    decode ⟨.hostop, [0b00110111#8, 0x00#8, 0x00#8]⟩ = .ok (.sockClose 0#16)

/-- R137, R121, R131, R132: no bit of an encoding is dropped, for every well-formed instruction. -/
def Obligations.DecodeEncode : Prop := ∀ i : Instr, WellFormed i = true → decode (encode i) = .ok i

/-- R127: the three fields of a control byte are recovered for every selector and both access modes, and the two values
are 8*blk and 8*blk + 4. -/
def Obligations.ControlByteRoundTrip : Prop :=
  ∀ (blk : Selector) (off : Half) (w : Bool),
    header blk off w = #v[hi8 off, lo8 off, ctrlByte blk w] ∧ ctrlSelector (ctrlByte blk w) = blk ∧
      ctrlWrite (ctrlByte blk w) = w ∧ ctrlMode (ctrlByte blk w) = 0#2 ∧
      (ctrlByte blk w).toNat = 8 * blk.toNat + (if w then 4 else 0)

/-- R87, R120, R125: bytes after the header of a frame are its data phase, whatever their number; a length mode other
than 0 ends in the fault of its name (R136, 93 U2: the spec gives it no effect). -/
def Obligations.FrameDecodes : Prop :=
  ∀ (hi lo c : Byte) (data : List Byte),
    (ctrlMode c = 0#2 → ctrlWrite c = false →
      decode ⟨.spihdr, hi :: lo :: c :: data⟩ = .ok (.spiRead (ctrlSelector c) (be16 hi lo) data.length)) ∧
    (ctrlMode c = 0#2 → ctrlWrite c = true →
      decode ⟨.spihdr, hi :: lo :: c :: data⟩ = .ok (.spiWrite (ctrlSelector c) (be16 hi lo) data)) ∧
    (ctrlMode c ≠ 0#2 → ∀ (s : State) (rest : List Request), s.seq = .idle →
      s.requests = ⟨.spihdr, hi :: lo :: c :: data⟩ :: rest → step s = .fault (.reservedLengthMode (ctrlMode c)))

/-- R333: a step with a request pending takes it off the list, decodes its bytes and is the execution of the whole
instruction. -/
def Obligations.StepRunsDecoded : Prop :=
  ∀ (s : State) (r : Request) (rest : List Request) (i : Instr),
    s.seq = .idle → s.requests = r :: rest → decode r = .ok i → step s = exec i (s.setRequests rest)

/-- R275, R333: with no request pending the block waits: only the chip, the record of its gaps and the
counter of free values may change. -/
def Obligations.StepWaits : Prop :=
  ∀ s : State, s.seq = .idle → s.requests = [] →
    ∃ chip free, step s =
      .next (((s.setChip chip).setFree free).setEnv { s.env with chip := s.env.chip.drop 1 })

/-- Log entry 13: a table word is stored where the next step takes its request from, so the step runs what the decoder
reads from it. -/
def Obligations.FetchedWordRuns : Prop :=
  ∀ (s : State) (nbits w : Nat) (i : Instr),
    decodeTableWord nbits w = some i → step (s.withFetchWord nbits w) = exec i (s.setSeq .idle)

/-- R325, the spec's decision D25: an operation code outside the table is refused with an error, no bus traffic and no other change. -/
def Obligations.UnknownOperationRefused : Prop :=
  ∀ (s : State) (code : Byte) (args : List Byte) (rest : List Request),
    s.seq = .idle → s.requests = ⟨.hostop, code :: args⟩ :: rest →
    code.toNat ∉ [0x01, 0x02, 0x03, 0x04, 0x05, 0x06, 0x10, 0x11, 0x12, 0x13, 0x14, 0x15, 0x16, 0x17, 0x20, 0x21, 0x22,
      0x30, 0x31, 0x32, 0x33, 0x34, 0x35, 0x36, 0x37, 0x40, 0x41] →
    step s = .next ((s.setRequests rest).setResult (some (.failed (.unknownOperation code))))

/-- Log entry 7: a socket operation that names a handle no SOCK.NEW has given out is refused by name. -/
def Obligations.MissingHandleRefused : Prop :=
  ∀ (s : State) (i : Instr) (h : Half),
    handleNumber i = some h → handleOf s h = none → exec i s = .refused (.noSuchHandle h)

/-! Invariants of every step -/

/-- R21, R23, R24, R310, R328, R54: what holds between operations holds after every step. -/
def Obligations.StepKeepsInv : Prop := ∀ s t : State, Inv s → step s = .next t → Inv t

/-- R54, R362: it holds after reset. -/
def Obligations.ResetMeetsInv : Prop := Inv State.reset

/-- R8, R22, R331: no step changes a parameter or a handle that exists, takes the clock back, or takes an action back
from the boundary. -/
def Obligations.StepOnlyAdds : Prop :=
  ∀ s t : State, step s = .next t →
    t.cfg = s.cfg ∧ s.handles <+: t.handles ∧ s.clock ≤ t.clock ∧ ∃ acts, t.out = acts ++ s.out

/-- R311, R310, R11, R242, R260: whatever the chip and the bus do, an operation ends with a value of its kind or with one
of the errors the table lists for it; a command or mode byte leaves the host's last result alone. -/
def Obligations.ResultsAreTheOperations : Prop :=
  ∀ (i : Instr) (s t : State), exec i s = .next t →
    if chipSide i = true then t.result = s.result else ∃ r, t.result = some r ∧ resultOf i r = true

/-- R82, R81, R175: whatever the chip and the bus do, an operation puts only its own selectors on the bus: the one it is
given, block 0 for the controller's own operations, the three of its socket for a socket operation. -/
def Obligations.FramesStayInOwnBlocks : Prop :=
  ∀ (i : Instr) (s t : State), exec i s = .next t →
    ∃ acts, t.out = acts ++ s.out ∧
      ∀ a ∈ acts, ∀ hdr, actHeader a = some hdr → ownsBlock s i (headerSelector hdr) = true

/-! Addresses -/

/-- R94, R97: the receive address is the pointer modulo the size plus the base, so it is the same for pointers that differ
by a multiple of the size, of either sign; R95, and the spec's decision D10 for the cut to 16 bits: the transmit address is not masked and moves with the pointer. -/
def Obligations.CircularAddresses : Prop :=
  ∀ (c : Cfg) (n : SockIdx) (size : BufSize) (p : Half) (k : Int),
    rxAddr c n size p = BitVec.ofNat 16 (p.toNat % size.bytes) + rxBase c n size ∧
      rxAddr c n size (p + BitVec.ofInt 16 (k * size.bytes)) = rxAddr c n size p ∧
      txAddr n size p = BitVec.ofNat 16 (p.toNat + n.val * size.bytes) ∧
      txAddr n size (p + BitVec.ofNat 16 size.bytes) = txAddr n size p + BitVec.ofNat 16 size.bytes ∧
      txAddr n size (p + BitVec.ofNat 16 size.bytes) ≠ txAddr n size p

/-- R214, the map being the spec's decision D19: the ephemeral port is 49152 + (draw mod 16383): at least 49152, at most 65534. -/
def Obligations.EphemeralPortRange : Prop :=
  ∀ draw : Nat, (ephemeralPort draw).toNat = 49152 + draw % 16383 ∧ 49152 ≤ (ephemeralPort draw).toNat ∧
    (ephemeralPort draw).toNat ≤ 65534

/-! The two transactions -/

/-- R160, R87, R91, R92: a read frame completes, gives the requested number of bytes, each the chip's byte at its address
at that instant, changes nothing on the chip, and is one action at the boundary. -/
def Obligations.ReadCompletes : Prop :=
  ∀ (s : State) (blk : Selector) (off : Half) (len : Nat) (i : Instr), Clean s →
    (i = .spiRead blk off len ∨ i = .ctlRead blk off len) →
    ∃ t d, exec i s = .next t ∧ Ended s t (.done (.bytes d)) ∧ d.length = len ∧
      (∀ j (h : j < d.length) v, peek (chipTurn s) blk (off + BitVec.ofNat 16 j) = some v → d[j] = v) ∧
      t.chip = (chipTurn s).chip ∧ t.out = readFrame blk off d :: s.out ∧ t.clock = s.clock

/-- R163, R164, R85: the one-byte and the two-byte read give the byte, or the two bytes high byte first. -/
def Obligations.FixedWidthReadsComplete : Prop :=
  ∀ (s : State) (blk : Selector) (off : Half) (a b : Byte), Clean s → peek (chipTurn s) blk off = some a →
    (∃ t, exec (.ctlReadByte blk off) s = .next t ∧ Ended s t (.done (.byte a)) ∧ t.chip = (chipTurn s).chip ∧
      t.out = readFrame blk off [a] :: s.out ∧ t.clock = s.clock) ∧
    (peek (chipTurn s) blk (off + 1) = some b →
      ∃ t, exec (.ctlRead16 blk off) s = .next t ∧ Ended s t (.done (.half (be16 a b))) ∧
        t.chip = (chipTurn s).chip ∧ t.out = readFrame blk off [a, b] :: s.out ∧ t.clock = s.clock)

/-- R161, R165, R166, R87, R92, R104: a write to plain storage completes; every byte written reads back, every byte at
another place of the whole address space reads as before. The four spellings carry the same bytes: a list, one byte, a
16-bit value high byte first. -/
def Obligations.WriteStores : Prop :=
  ∀ (s : State) (blk : Selector) (off : Half) (data : List Byte) (i : Instr), Clean s →
    Memory.wf s.chip.mem = true → PlainWrite s.cfg blk off data.length →
    (i = .spiWrite blk off data ∨ i = .ctlWrite blk off data ∨
      (∃ v, data = [v] ∧ i = .ctlWriteByte blk off v) ∨
      (∃ v : Half, data = [v.extractLsb' 8 8, v.extractLsb' 0 8] ∧ i = .ctlWrite16 blk off v)) →
    ∃ t, exec i s = .next t ∧ Ended s t (.done .unit) ∧ Stored (chipTurn s) t blk off data ∧
      t.out = writeFrame blk off data :: s.out ∧ t.clock = s.clock

/-- R27, R289, R92: outside a reset the values 0x00, 0x08 and 0x10 written to the mode register are stored; a byte with
bit 7 set starts a reset. Nothing else of the chip changes; that this holds when a reset starts, the other registers keeping
their values until it completes, is the model's choice (log entry 39). -/
def Obligations.ModeRegisterWrites : Prop :=
  ∀ (s : State) (v : Byte), Clean s → CommonDisjoint s.cfg →
    (v = 0x00#8 ∨ v = 0x08#8 ∨ v = 0x10#8 → (chipTurn s).chip.resetting = false →
      ∃ t, exec (.ctlWriteByte 0#5 s.cfg.common.mr v) s = .next t ∧ Ended s t (.done .unit) ∧
        t.chip = { (chipTurn s).chip with mr := v }) ∧
    (v.getLsbD 7 = true →
      ∃ t, exec (.ctlWriteByte 0#5 s.cfg.common.mr v) s = .next t ∧ Ended s t (.done .unit) ∧
        t.chip = { (chipTurn s).chip with mr := t.chip.mr, resetting := true })

/-- R37, R291: a write to the interrupt register clears exactly the bits that are 1 in the written byte; nothing else of
the chip changes. -/
def Obligations.InterruptWriteClearsOnes : Prop :=
  ∀ (s : State) (n : SockIdx) (v : Byte), Clean s → SockDisjoint s.cfg →
    ∃ t ir, exec (.ctlWriteByte (regBlk n) s.cfg.sock.ir v) s = .next t ∧ Ended s t (.done .unit) ∧
      t.chip = withBank (chipTurn s).chip n { bank (chipTurn s) n with ir := ir } ∧
      ∀ k, ir.getLsbD k = ((bank (chipTurn s) n).ir.getLsbD k && !v.getLsbD k)

/-- R162, R312, R328: when the header transfer fails, the data transfer is not attempted; when the data transfer fails the
same holds of the rest; the operation ends with IOError and the cause, chip-select is high, and a read has changed nothing
on the chip. For every operation, in whichever transaction: a failed frame is the last action at the boundary, none is
retried, and the result carries an IOError exactly then, with a cause the transfer primitive gave. -/
def Obligations.TransferFailureEnds : Prop :=
  (∀ (s : State) (blk : Selector) (off : Half) (len : Nat) (data : List Byte) (cause : Nat) (rest : List (Option Nat)),
    s.bus.isSome = true →
    (s.env.transfers = some cause :: rest →
      (∃ t, exec (.ctlRead blk off len) s = .next t ∧ Ended s t (.failed (.ioError cause)) ∧
        t.out = .headerFailed (header blk off false) :: s.out ∧ t.env.transfers = rest ∧
        t.chip = (chipTurn s).chip) ∧
      (∃ t, exec (.ctlWrite blk off data) s = .next t ∧ Ended s t (.failed (.ioError cause)) ∧
        t.out = .headerFailed (header blk off true) :: s.out ∧ t.env.transfers = rest)) ∧
    (s.env.transfers = none :: some cause :: rest →
      (∃ t, exec (.ctlRead blk off len) s = .next t ∧ Ended s t (.failed (.ioError cause)) ∧
        t.out = .dataFailed (header blk off false) :: s.out ∧ t.env.transfers = rest ∧
        t.chip = (chipTurn s).chip) ∧
      (∃ t, exec (.ctlWrite blk off data) s = .next t ∧ Ended s t (.failed (.ioError cause)) ∧
        t.out = .dataFailed (header blk off true) :: s.out ∧ t.env.transfers = rest))) ∧
  ∀ (i : Instr) (s t : State), chipSide i = false → exec i s = .next t →
    ∃ acts, t.out = acts ++ s.out ∧ (∀ a ∈ acts.drop 1, busFailed a = false) ∧
      ∃ r, t.result = some r ∧ (acts.head?.any busFailed = (resultCause r).isSome) ∧
        ∀ c, resultCause r = some c → some c ∈ s.env.transfers ∧ t.cs = .high

/-- R167, R170, R172, R174, R86: the four setters store the container in SIPR, GAR, SUBR, SHAR, byte 0 first, in one
frame to block 0, and nothing else of the chip changes. -/
def Obligations.AddressSettersStore : Prop :=
  ∀ (s : State) (a : Quad) (m : Mac), Clean s → CommonDisjoint s.cfg →
    (∃ t, exec (.ctlSetIP a) s = .next t ∧ Ended s t (.done .unit) ∧ t.chip = { (chipTurn s).chip with sipr := a } ∧
      t.out = writeFrame 0#5 s.cfg.common.sipr [a.b0, a.b1, a.b2, a.b3] :: s.out) ∧
    (∃ t, exec (.ctlSetGW a) s = .next t ∧ Ended s t (.done .unit) ∧ t.chip = { (chipTurn s).chip with gar := a } ∧
      t.out = writeFrame 0#5 s.cfg.common.gar [a.b0, a.b1, a.b2, a.b3] :: s.out) ∧
    (∃ t, exec (.ctlSetSubnet a) s = .next t ∧ Ended s t (.done .unit) ∧ t.chip = { (chipTurn s).chip with subr := a } ∧
      t.out = writeFrame 0#5 s.cfg.common.subr [a.b0, a.b1, a.b2, a.b3] :: s.out) ∧
    (∃ t, exec (.ctlSetMac m) s = .next t ∧ Ended s t (.done .unit) ∧ t.chip = { (chipTurn s).chip with shar := m } ∧
      t.out = writeFrame 0#5 s.cfg.common.shar [m.b0, m.b1, m.b2, m.b3, m.b4, m.b5] :: s.out)

/-- R168, R169, R171, R173, R86: the four getters give the bytes of SIPR, GAR, SUBR, SHAR, byte 0 first, in one frame to
block 0, and change nothing on the chip. -/
def Obligations.AddressGettersRead : Prop :=
  ∀ s : State, Clean s → CommonDisjoint s.cfg →
    (∀ i q off, (i = Instr.ctlGetIP ∧ q = (chipTurn s).chip.sipr ∧ off = s.cfg.common.sipr ∨
        i = Instr.ctlGetGW ∧ q = (chipTurn s).chip.gar ∧ off = s.cfg.common.gar ∨
        i = Instr.ctlGetSubnet ∧ q = (chipTurn s).chip.subr ∧ off = s.cfg.common.subr) →
      ∃ t, exec i s = .next t ∧ Ended s t (.done (.bytes [q.b0, q.b1, q.b2, q.b3])) ∧ t.chip = (chipTurn s).chip ∧
        t.out = readFrame 0#5 off [q.b0, q.b1, q.b2, q.b3] :: s.out) ∧
    (∀ m, m = (chipTurn s).chip.shar →
      ∃ t, exec .ctlGetMac s = .next t ∧ Ended s t (.done (.bytes [m.b0, m.b1, m.b2, m.b3, m.b4, m.b5])) ∧
        t.chip = (chipTurn s).chip ∧
        t.out = readFrame 0#5 s.cfg.common.shar [m.b0, m.b1, m.b2, m.b3, m.b4, m.b5] :: s.out)

/-! Soft reset, identification, configuration -/

/-- R191, R288, R54, R27: the reset byte is written once; when the chip completes the reset before poll `m`, at most the
twentieth, SoftReset succeeds after `m` reads and `m - 1` sleeps; then MR holds 0x00 and VERSIONR 0x04. That MR shows 0x80 while the reset runs is the model's choice (log entry 18). -/
def Obligations.SoftResetCompletes : Prop :=
  ∀ (s : State) (m : Nat), Clean s → CommonDisjoint s.cfg → 1 ≤ m → m ≤ 20 → QuietFor s m →
    gapAt s m = [.resetDone] →
    ∃ t, exec .ctlSoftReset s = .next t ∧ Ended s t (.done .unit) ∧ t.chip.mr = 0x00#8 ∧ t.chip.versionr = 0x04#8 ∧
      t.chip.resetting = false ∧
      t.out =
        (writeFrame 0#5 s.cfg.common.mr [0x80#8] ::
          ((List.replicate (m - 1) [readFrame 0#5 s.cfg.common.mr [0x80#8], .sleep 1]).flatten ++
            [readFrame 0#5 s.cfg.common.mr [0x00#8]])).reverse ++ s.out

/-- R191, R314: twenty reads, none of them 0x00, nineteen sleeps, then ResetTimeout with the last value read. That MR shows
0x80 and that the rest of the chip keeps its values while the reset runs is the model's choice (log entries 18, 39). -/
def Obligations.SoftResetTimesOut : Prop :=
  ∀ s : State, Clean s → CommonDisjoint s.cfg → QuietFor s 21 →
    ∃ t, exec .ctlSoftReset s = .next t ∧ Ended s t (.failed (.resetTimeout 0x80#8)) ∧
      t.chip = { s.chip with mr := 0x80#8, resetting := true } ∧
      t.out =
        (writeFrame 0#5 s.cfg.common.mr [0x80#8] ::
          ((List.replicate 19 [readFrame 0#5 s.cfg.common.mr [0x80#8], .sleep 1]).flatten ++
            [readFrame 0#5 s.cfg.common.mr [0x80#8]])).reverse ++ s.out

/-- R192, R193, R289, R290: on a chip that is not in reset the three fingerprint bytes are written and read back in order
and the version register is read; with version 0x04 VerifyIdentity succeeds and leaves MR 0x00, with another it fails at
stage 4 with the value read. Nothing else of the chip changes. -/
def Obligations.VerifyIdentityCompletes : Prop :=
  ∀ s : State, Clean s → CommonDisjoint s.cfg → QuietFor s 7 → s.chip.resetting = false →
    ∃ t, exec .ctlVerifyId s = .next t ∧
      Ended s t (if s.chip.versionr = 0x04#8 then .done .unit
        else .failed (.chipNotDetected 4 s.chip.versionr)) ∧
      t.chip = { s.chip with mr := 0x00#8 } ∧
      t.out =
        [writeFrame 0#5 s.cfg.common.mr [0x08#8], readFrame 0#5 s.cfg.common.mr [0x08#8],
          writeFrame 0#5 s.cfg.common.mr [0x10#8], readFrame 0#5 s.cfg.common.mr [0x10#8],
          writeFrame 0#5 s.cfg.common.mr [0x00#8], readFrame 0#5 s.cfg.common.mr [0x00#8],
          readFrame 0#5 s.cfg.common.versionr [s.chip.versionr]].reverse ++ s.out

/-- R190, R7: Configure applies the bus settings, resets the chip and identifies it: the reset byte, the reads of the mode
register up to the one that shows 0x00, the three fingerprint pairs and the version read, in this order, and nothing else at
the boundary; called again it does the same. It needs no setting of the bus before it, and a chip of this family that answers
(log entry 21). The clock figure recorded and the 0x80 read while the reset runs are the model's choice (log entries 30, 18). -/
def Obligations.ConfigureCompletes : Prop :=
  ∀ (s : State) (m : Nat), s.env.transfers = [] → s.env.missed = [] → CommonDisjoint s.cfg → 1 ≤ m → m ≤ 20 →
    QuietFor s m → gapAt s m = [.resetDone] → (∀ j, j < 7 → gapAt s (m + 1 + j) = []) →
    ∃ t, exec .ctlConfigure s = .next t ∧ Ended (s.setBus (some ⟨8300000, true, s.cfg.spiMode⟩)) t (.done .unit) ∧
      t.chip.mr = 0x00#8 ∧ t.chip.versionr = 0x04#8 ∧ t.chip.resetting = false ∧
      t.out =
        (writeFrame 0#5 s.cfg.common.mr [0x80#8] ::
          ((List.replicate (m - 1) [readFrame 0#5 s.cfg.common.mr [0x80#8], .sleep 1]).flatten ++
            [readFrame 0#5 s.cfg.common.mr [0x00#8],
              writeFrame 0#5 s.cfg.common.mr [0x08#8], readFrame 0#5 s.cfg.common.mr [0x08#8],
              writeFrame 0#5 s.cfg.common.mr [0x10#8], readFrame 0#5 s.cfg.common.mr [0x10#8],
              writeFrame 0#5 s.cfg.common.mr [0x00#8], readFrame 0#5 s.cfg.common.mr [0x00#8],
              readFrame 0#5 s.cfg.common.versionr [0x04#8]])).reverse ++ s.out

/-- R194, R313: whatever fails in Configure, the host gets ConfigurationError with the cause, which is a reset timeout, a
failed identification or a bus error; the bus settings are applied (clock figure: log entry
30) and chip-select is high all the same. -/
def Obligations.ConfigureWrapsErrors : Prop :=
  ∀ (s t : State) (e : Err), exec .ctlConfigure s = .next t → t.result = some (.failed e) →
    t.cs = .high ∧ t.bus = some ⟨8300000, true, s.cfg.spiMode⟩ ∧
      ∃ c, e = .configurationError c ∧
        ((∃ k, c = .ioError k) ∨ (∃ v, c = .resetTimeout v) ∨ ∃ k v, c = .chipNotDetected k v)

/-! Socket handles, status, commands -/

/-- R210, R338: a legal index and legal sizes, 2048 where none is given, make a new handle; the host gets it with its
number; no bus traffic, nothing else changes. The number is the model's choice (log entry 7). -/
def Obligations.NewSocketMakesHandle : Prop :=
  ∀ (s : State) (n : SockIdx) (tx rx : BufSize) (sTx sRx : Option Nat),
    (sTx = some tx.bytes ∨ sTx = none ∧ tx = .s2048) → (sRx = some rx.bytes ∨ sRx = none ∧ rx = .s2048) →
    ∃ t, exec (.sockNew n.val sTx sRx) s = .next t ∧
      Ended (s.setHandles (s.handles ++ [⟨n, tx, rx⟩])) (t.setCs .high)
        (.done (.handle s.handles.length ⟨n, tx, rx⟩)) ∧
      t.cs = s.cs ∧ t.chip = s.chip ∧ t.out = s.out ∧ t.env = s.env ∧ t.clock = s.clock

/-- R210, R338 (the spec's decision D11): an index above 7 is refused with the index; else a size outside the five is
refused with such a size (with both wrong the spec does not say which one is named); nothing is made. -/
def Obligations.NewSocketRefuses : Prop :=
  ∀ (s : State) (n : Nat) (sTx sRx : Option Nat),
    (7 < n ∨ ∃ bad, (sTx = some bad ∨ sRx = some bad) ∧ bad ∉ [1024, 2048, 4096, 8192, 16384]) →
    ∃ t bad, exec (.sockNew n sTx sRx) s = .next t ∧ Ended s (t.setCs .high) (.failed (.invalidArgument bad)) ∧
      (7 < n → bad = n) ∧
      (n ≤ 7 → (sTx = some bad ∨ sRx = some bad) ∧ bad ∉ [1024, 2048, 4096, 8192, 16384]) ∧
      t.cs = s.cs ∧ t.chip = s.chip ∧ t.out = s.out ∧ t.env = s.env ∧ t.clock = s.clock

/-- R211: a status read gives the raw status byte of that instant, in one read frame, and changes nothing. -/
def Obligations.StatusCompletes : Prop :=
  ∀ (s : State) (h : Half) (hd : Handle), Clean s → SockDisjoint s.cfg → handleOf s h = some hd →
    ∃ t, exec (.sockStatus h) s = .next t ∧ Ended s t (.done (.byte (bank (chipTurn s) hd.n).sr)) ∧
      t.chip = (chipTurn s).chip ∧
      t.out = regRead s.cfg hd.n .sr [(bank (chipTurn s) hd.n).sr] :: s.out

/-- R212, R217, R218, R276: a command that the chip takes before poll `m`, at most the tenth, succeeds: the code is
written once, `m` reads, `m - 1` sleeps; the command register then reads 0x00 and the command is in progress; nothing else
of the chip changes. Disconnect and Close are this with 0x08 and 0x10 and test no status. The code 0x00 succeeds at the
first read if the chip leaves the register alone. -/
def Obligations.CommandCompletes : Prop :=
  ∀ (s : State) (h : Half) (hd : Handle) (i : Instr) (code : Byte) (m : Nat), Clean s → SockDisjoint s.cfg →
    handleOf s h = some hd →
    (code ≠ 0x00#8 ∧ 1 ≤ m ∧ m ≤ 10 ∧ Accepts s hd.n 0 m ∨ code = 0x00#8 ∧ m = 1 ∧ QuietFor s 2) →
    (i = .sockExec h code ∨ i = .sockDisconnect h ∧ code = 0x08#8 ∨ i = .sockClose h ∧ code = 0x10#8) →
    ∃ t, exec i s = .next t ∧ Ended s t (.done .unit) ∧
      t.chip = withBank s.chip hd.n
        (if code = 0x00#8 then commanded (bank s hd.n) 0x00#8 else taken (bank s hd.n) code) ∧
      t.out = (commandTrace s.cfg hd.n code m).reverse ++ s.out

/-- R212, R322: a register that never clears gives CommandTimeout with the code after exactly ten reads and nine
sleeps; the register keeps the code. -/
def Obligations.CommandTimesOut : Prop :=
  ∀ (s : State) (h : Half) (hd : Handle) (i : Instr) (code : Byte), Clean s → SockDisjoint s.cfg →
    handleOf s h = some hd → code ≠ 0x00#8 →
    (i = .sockExec h code ∨ i = .sockDisconnect h ∧ code = 0x08#8 ∨ i = .sockClose h ∧ code = 0x10#8) →
    QuietFor s 11 →
    ∃ t, exec i s = .next t ∧ Ended s t (.failed (.commandTimeout code)) ∧
      t.chip = withBank s.chip hd.n (commanded (bank s hd.n) code) ∧
      t.out = (commandPolls s.cfg hd.n code 10 code).reverse ++ s.out

/-- R212, R320, R327: a read-back that is neither 0x00 nor the code gives InvalidCommandState with both, on every poll up
to and including the tenth, where the value test comes before the budget test; after the code 0x00 (93 U4) on the first. -/
def Obligations.CommandReadsOtherValue : Prop :=
  ∀ (s : State) (h : Half) (hd : Handle) (code v : Byte) (m : Nat), Clean s → SockDisjoint s.cfg →
    handleOf s h = some hd → v ≠ 0x00#8 → v ≠ code → 1 ≤ m → m ≤ 10 → (code = 0x00#8 → m = 1) →
    QuietFor s m →
    gapAt s m = [.crShows hd.n v] →
    ∃ t, exec (.sockExec h code) s = .next t ∧ Ended s t (.failed (.invalidCommandState code v)) ∧
      t.chip = withBank s.chip hd.n { commanded (bank s hd.n) code with cr := v } ∧
      t.out = (commandPolls s.cfg hd.n code m v).reverse ++ s.out

/-! Open, Listen, Connect -/

/-- R213, R214, R129, R132: Open on a CLOSED socket writes the two size codes, the mode code, 0xFF to the interrupt
register and the source port, high byte first, in this order, then issues OPEN. Port 0 takes one draw. Nothing else of the
chip changes. -/
def Obligations.OpenCompletes : Prop :=
  ∀ (s : State) (h : Half) (hd : Handle) (protocol : List Byte) (mode : Byte) (port : Half) (m : Nat), Clean s →
    SockDisjoint s.cfg → handleOf s h = some hd →
    (protocol = [0x74#8, 0x63#8, 0x70#8] ∧ mode = 0x21#8 ∨ protocol = [0x75#8, 0x64#8, 0x70#8] ∧ mode = 0x02#8) →
    (bank s hd.n).sr = s.cfg.status.closed → QuietFor s 6 → 1 ≤ m → m ≤ 10 → Accepts s hd.n 6 m →
    ∃ t p draws, exec (.sockOpen h protocol port) s = .next t ∧ Ended s t (.done .unit) ∧
      (port ≠ 0#16 → p = port ∧ draws = []) ∧
      (port = 0#16 → ∃ v, p = BitVec.ofNat 16 (49152 + v % 16383) ∧ draws = [.rand v] ∧
        ∀ w rest, s.env.rand = w :: rest → v = w) ∧
      t.chip = withBank s.chip hd.n
        (taken { bank s hd.n with
          txbufSize := hd.sTx.code, rxbufSize := hd.sRx.code, mr := mode, ir := 0x00#8, port := p } 0x01#8) ∧
      t.out =
        ([regWrite s.cfg hd.n .txbufSize [hd.sTx.code], regWrite s.cfg hd.n .rxbufSize [hd.sRx.code],
            regRead s.cfg hd.n .sr [s.cfg.status.closed], regWrite s.cfg hd.n .mr [mode],
            regWrite s.cfg hd.n .ir [0xFF#8]] ++ draws ++
          regWrite s.cfg hd.n .port [p.extractLsb' 8 8, p.extractLsb' 0 8] ::
            commandTrace s.cfg hd.n 0x01#8 m).reverse ++ s.out

/-- R213 step 5, R334: a socket that is not CLOSED is logged and force-closed first, then opened as usual. -/
def Obligations.OpenForceCloses : Prop :=
  ∀ (s : State) (h : Half) (hd : Handle) (protocol : List Byte) (mode : Byte) (port : Half) (k m : Nat), Clean s →
    SockDisjoint s.cfg → handleOf s h = some hd →
    (protocol = [0x74#8, 0x63#8, 0x70#8] ∧ mode = 0x21#8 ∨ protocol = [0x75#8, 0x64#8, 0x70#8] ∧ mode = 0x02#8) →
    (bank s hd.n).sr ≠ s.cfg.status.closed → port ≠ 0#16 → QuietFor s 3 → 1 ≤ k → k ≤ 10 → Accepts s hd.n 3 k →
    (∀ j, j < 3 → gapAt s (k + 4 + j) = []) → 1 ≤ m → m ≤ 10 → Accepts s hd.n (k + 7) m →
    ∃ t, exec (.sockOpen h protocol port) s = .next t ∧ Ended s t (.done .unit) ∧
      t.chip = withBank s.chip hd.n
        (taken { taken (bank s hd.n) 0x10#8 with
          txbufSize := hd.sTx.code, rxbufSize := hd.sRx.code, mr := mode, ir := 0x00#8, port := port } 0x01#8) ∧
      t.out =
        ([regWrite s.cfg hd.n .txbufSize [hd.sTx.code], regWrite s.cfg hd.n .rxbufSize [hd.sRx.code],
            regRead s.cfg hd.n .sr [(bank s hd.n).sr], .log] ++ commandTrace s.cfg hd.n 0x10#8 k ++
          [regWrite s.cfg hd.n .mr [mode], regWrite s.cfg hd.n .ir [0xFF#8],
            regWrite s.cfg hd.n .port [port.extractLsb' 8 8, port.extractLsb' 0 8]] ++
          commandTrace s.cfg hd.n 0x01#8 m).reverse ++ s.out

/-- R316, R213 step 1: any other protocol string is refused with the string, before any transaction. -/
def Obligations.OpenUnsupportedProtocol : Prop :=
  ∀ (s : State) (h : Half) (hd : Handle) (protocol : List Byte) (port : Half), handleOf s h = some hd →
    protocol ≠ [0x74#8, 0x63#8, 0x70#8] → protocol ≠ [0x75#8, 0x64#8, 0x70#8] →
    exec (.sockOpen h protocol port) s =
      .next (((s.setResult (some (.failed (.unsupportedProtocol protocol)))).setSeq .idle).setLat Latches.dead)

/-- R215: Listen on a socket in INIT issues LISTEN after one status read. -/
def Obligations.ListenCompletes : Prop :=
  ∀ (s : State) (h : Half) (hd : Handle) (m : Nat), Clean s → SockDisjoint s.cfg → handleOf s h = some hd →
    gapAt s 0 = [] → (bank s hd.n).sr = s.cfg.status.init → 1 ≤ m → m ≤ 10 → Accepts s hd.n 1 m →
    ∃ t, exec (.sockListen h) s = .next t ∧ Ended s t (.done .unit) ∧
      t.chip = withBank s.chip hd.n (taken (bank s hd.n) 0x02#8) ∧
      t.out =
        (regRead s.cfg hd.n .sr [s.cfg.status.init] :: commandTrace s.cfg hd.n 0x02#8 m).reverse ++ s.out

/-- R317, R215, R216: Listen and Connect on a socket whose status is not INIT end with InvalidStateError and the status,
after one status read and before any write. -/
def Obligations.ListenConnectNeedInit : Prop :=
  ∀ (s : State) (h : Half) (hd : Handle) (ip : Quad) (port : Half) (i : Instr), Clean s → SockDisjoint s.cfg →
    handleOf s h = some hd → (bank (chipTurn s) hd.n).sr ≠ s.cfg.status.init →
    (i = .sockListen h ∨ i = .sockConnect h ip port) →
    ∃ t, exec i s = .next t ∧ Ended s t (.failed (.invalidStateError (bank (chipTurn s) hd.n).sr)) ∧
      t.chip = (chipTurn s).chip ∧ t.out = regRead s.cfg hd.n .sr [(bank (chipTurn s) hd.n).sr] :: s.out

/-- R216: Connect on a socket in INIT writes address and port, issues CONNECT and reads the status once a millisecond;
ESTABLISHED shown at poll `j` is success, CLOSED is ConnectionRefused, also at the last poll before or at the deadline.
`m` is the poll at which CONNECT was taken. -/
def Obligations.ConnectCompletes : Prop :=
  ∀ (s : State) (h : Half) (hd : Handle) (ip : Quad) (port : Half) (m j : Nat) (v : Byte), Clean s → CfgOk s.cfg →
    handleOf s h = some hd → s.env.delays = [] → QuietFor s 3 → (bank s hd.n).sr = s.cfg.status.init → 1 ≤ m →
    m ≤ 10 → Accepts s hd.n 3 m → 1 ≤ j → j ≤ 5001 → (∀ k, 1 ≤ k → k < j → gapAt s (3 + m + k) = []) →
    gapAt s (3 + m + j) = [.status hd.n v] → (v = s.cfg.status.established ∨ v = s.cfg.status.closed) →
    ∃ t acts, exec (.sockConnect h ip port) s = .next t ∧
      Ended s t (if v = s.cfg.status.established then .done .unit else .failed .connectionRefused) ∧
      t.chip = withBank s.chip hd.n
        { taken { bank s hd.n with dipr := ip, dport := port } 0x04#8 with sr := v } ∧
      t.clock = s.clock + (m - 1) + (j - 1) ∧
      t.out = acts ++
        ([regRead s.cfg hd.n .sr [s.cfg.status.init], regWrite s.cfg hd.n .dipr [ip.b0, ip.b1, ip.b2, ip.b3],
          regWrite s.cfg hd.n .dport [port.extractLsb' 8 8, port.extractLsb' 0 8]] ++
          commandTrace s.cfg hd.n 0x04#8 m).reverse ++ s.out ∧
      (acts.filter (fun a => a == regRead s.cfg hd.n .sr [s.cfg.status.init])).length = j - 1

/-- R216, R319: statuses that never show ESTABLISHED or CLOSED, whichever they are, give ConnectTimeout with the last one
when five seconds have passed. `f k` is the status poll `k` shows; before the first the status is INIT. -/
def Obligations.ConnectTimesOut : Prop :=
  ∀ (s : State) (h : Half) (hd : Handle) (ip : Quad) (port : Half) (m : Nat) (f : Nat → Byte), Clean s → CfgOk s.cfg →
    handleOf s h = some hd → s.env.delays = [] → QuietFor s 3 → (bank s hd.n).sr = s.cfg.status.init → 1 ≤ m → m ≤ 10 →
    Accepts s hd.n 3 m → f 0 = s.cfg.status.init →
    (∀ k, k < 5001 → f (k + 1) ≠ s.cfg.status.established ∧ f (k + 1) ≠ s.cfg.status.closed ∧
      (gapAt s (4 + m + k) = [.status hd.n (f (k + 1))] ∨ gapAt s (4 + m + k) = [] ∧ f (k + 1) = f k)) →
    ∃ t, exec (.sockConnect h ip port) s = .next t ∧ Ended s t (.failed (.connectTimeout (f 5001))) ∧
      t.chip = withBank s.chip hd.n
        { taken { bank s hd.n with dipr := ip, dport := port } 0x04#8 with sr := f 5001 } ∧
      t.clock = s.clock + (m - 1) + 5000

/-! Stream Read -/

/-- R240 step 1, R244 (a): an empty destination gives (0, none), with no transaction at all. -/
def Obligations.ReadEmptyDestination : Prop :=
  ∀ (s : State) (h : Half) (hd : Handle), handleOf s h = some hd →
    exec (.sockRead h 0) s =
      .next ((((s.setDest []).setResult (some (.stream 0 none))).setSeq .idle).setLat Latches.dead)

/-- R240 step 2, R241: with a received size of 0 the status decides: LISTEN, CLOSED and CLOSE_WAIT give end-of-stream,
every other byte (0, none); nothing on the chip changes. -/
def Obligations.ReadNothingReceived : Prop :=
  ∀ (s : State) (h : Half) (hd : Handle) (len : Nat), Clean s → SockDisjoint s.cfg → handleOf s h = some hd →
    0 < len → QuietFor s 2 → (bank s hd.n).rxRsr = 0#16 →
    ∃ t, exec (.sockRead h len) s = .next t ∧
      Ended (s.setDest []) t
        (.stream 0 (if (bank s hd.n).sr ∈ [s.cfg.status.listen, s.cfg.status.closed, s.cfg.status.closeWait] then
          some .endOfStream else none)) ∧
      t.chip = s.chip ∧
      t.out = [regRead s.cfg hd.n .rxRsr [0x00#8, 0x00#8], regRead s.cfg hd.n .sr [(bank s hd.n).sr]].reverse ++ s.out

/-- R240, R245, R94, R98: with data the smaller of received size and destination length is read in one frame from the
receive address of the read pointer; the pointer advances by it modulo 65536; RECV is issued; whatever the status. -/
def Obligations.ReadDelivers : Prop :=
  ∀ (s : State) (h : Half) (hd : Handle) (len m c : Nat), Clean s → SockDisjoint s.cfg → handleOf s h = some hd →
    0 < len → QuietFor s 4 → (bank s hd.n).rxRsr ≠ 0#16 → c = min (bank s hd.n).rxRsr.toNat len → 1 ≤ m → m ≤ 10 →
    Accepts s hd.n 4 m →
    ∃ t d, exec (.sockRead h len) s = .next t ∧ Ended (s.setDest d) t (.stream c none) ∧ d.length = c ∧
      (∀ i (hi : i < d.length),
        peek s (rxBlk hd.n) (rxAddr s.cfg hd.n hd.sRx (bank s hd.n).rxRd + BitVec.ofNat 16 i) = some d[i]) ∧
      t.chip = withBank s.chip hd.n
        (taken { bank s hd.n with rxRd := (bank s hd.n).rxRd + BitVec.ofNat 16 c } 0x40#8) ∧
      ∃ p q, p = (bank s hd.n).rxRd ∧ q = p + BitVec.ofNat 16 c ∧
        t.out =
          ([regRead s.cfg hd.n .rxRsr [(bank s hd.n).rxRsr.extractLsb' 8 8, (bank s hd.n).rxRsr.extractLsb' 0 8],
              regRead s.cfg hd.n .rxRd [p.extractLsb' 8 8, p.extractLsb' 0 8],
              readFrame (rxBlk hd.n) (rxAddr s.cfg hd.n hd.sRx p) d,
              regWrite s.cfg hd.n .rxRd [q.extractLsb' 8 8, q.extractLsb' 0 8]] ++
            commandTrace s.cfg hd.n 0x40#8 m).reverse ++ s.out

/-- R242: when RECV fails, here because the chip never takes it, the count already read is reported beside the error, the
bytes are in the destination and the pointer has advanced. -/
def Obligations.ReadKeepsCountOnFailedRecv : Prop :=
  ∀ (s : State) (h : Half) (hd : Handle) (len c : Nat), Clean s → SockDisjoint s.cfg → handleOf s h = some hd →
    0 < len → QuietFor s 15 → (bank s hd.n).rxRsr ≠ 0#16 → c = min (bank s hd.n).rxRsr.toNat len →
    ∃ t d, exec (.sockRead h len) s = .next t ∧ Ended (s.setDest d) t (.stream c (some (.commandTimeout 0x40#8))) ∧
      d.length = c ∧
      (∀ i (hi : i < d.length),
        peek s (rxBlk hd.n) (rxAddr s.cfg hd.n hd.sRx (bank s hd.n).rxRd + BitVec.ofNat 16 i) = some d[i]) ∧
      t.chip = withBank s.chip hd.n
        (commanded { bank s hd.n with rxRd := (bank s hd.n).rxRd + BitVec.ofNat 16 c } 0x40#8)

/-! Stream Write -/

/-- R323, R256: a payload longer than the configured size is refused with both numbers, with no transaction and no other
change. -/
def Obligations.WriteTooLarge : Prop :=
  ∀ (s : State) (h : Half) (hd : Handle) (data : List Byte), handleOf s h = some hd → hd.sTx.bytes < data.length →
    exec (.sockWrite h data) s =
      .next (((s.setResult (some (.stream 0 (some (.payloadTooLarge data.length hd.sTx.bytes))))).setSeq .idle).setLat
        Latches.dead)

/-- R257, R324: a status that is neither ESTABLISHED nor CLOSE_WAIT ends Write after one status read, with the status. -/
def Obligations.WriteNeedsConnection : Prop :=
  ∀ (s : State) (h : Half) (hd : Handle) (data : List Byte) (st : Byte), Clean s → SockDisjoint s.cfg →
    handleOf s h = some hd → data.length ≤ hd.sTx.bytes → st = (bank (chipTurn s) hd.n).sr →
    st ≠ s.cfg.status.established → st ≠ s.cfg.status.closeWait →
    ∃ t, exec (.sockWrite h data) s = .next t ∧ Ended s t (.stream 0 (some (.writeOnClosedSocket st))) ∧
      t.chip = (chipTurn s).chip ∧ t.out = regRead s.cfg hd.n .sr [st] :: s.out

/-- R255, R258, R262, R95, R98, R259, R260, R282: Write with room at look `j` of the free-space wait (the first, or a later one
before which the chip raised the free size to `f`) and send-ok seen at look `k` of the send-ok wait, each within its budget: the
payload is stored in one frame from the unmasked transmit address, the pointer advances modulo 65536, SEND is issued, and the
looks go on until bit 4 shows: left set from before (R373), or set because the chip performed this SEND; the whole length is
reported. The flag is not cleared; no other byte of any buffer and no register but those named changes. When the chip performed
the SEND it has sent as many bytes as were written, and the payload itself where its buffer wraps with the handle's size (the
chip's side is log entries 16 and 41). -/
def Obligations.WriteSends : Prop :=
  ∀ (s : State) (h : Half) (hd : Handle) (data : List Byte) (f : Half) (j m k : Nat), Clean s → CfgOk s.cfg →
    Memory.wf s.chip.mem = true → handleOf s h = some hd → data.length ≤ hd.sTx.bytes → MaySend s.cfg (bank s hd.n).sr →
    1 ≤ j → j ≤ s.cfg.freeWaitMaxPolls → (j = 1 ∨ (bank s hd.n).txFsr.toNat < data.length) →
    (gapAt s (2 * j - 1) = [] ∧ f = (bank s hd.n).txFsr ∨ gapAt s (2 * j - 1) = [.freeSize hd.n f]) →
    data.length ≤ f.toNat → (∀ i, i < 2 * j + 3 → i ≠ 2 * j - 1 → gapAt s i = []) →
    PlainWrite s.cfg (txBlk hd.n) (txAddr hd.n hd.sTx (bank s hd.n).txWr) data.length → 1 ≤ m → m ≤ 10 →
    Accepts s hd.n (2 * j + 3) m → 1 ≤ k → k ≤ s.cfg.sendOkMaxPolls →
    (∀ i, i < 2 * (k - 1) → gapAt s (2 * j + 4 + m + i) = []) →
    (k = 1 ∧ gapAt s (2 * j + 4 + m) = [] ∧ (bank s hd.n).ir.getLsbD 4 = true ∨
      (k = 1 ∨ (bank s hd.n).ir.getLsbD 4 = false) ∧ gapAt s (2 * j + 4 + m + 2 * (k - 1)) = [.perform hd.n] ∧
        (bank s hd.n).inProgress = [] ∧ data ≠ [] ∧ (bank s hd.n).txRd = (bank s hd.n).txWr) →
    ∃ t mem q, exec (.sockWrite h data) s = .next t ∧ Ended s t (.stream data.length none) ∧
      t.chip = withBank { s.chip with mem := mem } hd.n q ∧ Memory.wf mem = true ∧
      Stored s (s.setChip { s.chip with mem := mem }) (txBlk hd.n) (txAddr hd.n hd.sTx (bank s hd.n).txWr) data ∧
      (gapAt s (2 * j + 4 + m + 2 * (k - 1)) = [] → q = { written (bank s hd.n) data.length with txFsr := f }) ∧
      (gapAt s (2 * j + 4 + m + 2 * (k - 1)) = [.perform hd.n] →
        q = { written (bank s hd.n) data.length with
          inProgress := [], ir := (bank s hd.n).ir ||| 0x10#8, txFsr := q.txFsr,
          txRd := (bank s hd.n).txWr + BitVec.ofNat 16 data.length, sent := q.sent } ∧
        ∃ d, q.sent = (bank s hd.n).sent ++ d ∧ d.length = data.length ∧
          (s.cfg.bufAlias = .wrapS → s.cfg.chipTx.get hd.n = hd.sTx.bytes → d = data)) ∧
      t.out =
        (writeFrames s.cfg hd (bank s hd.n) data f j m ++
          (List.replicate (k - 1) (sendOkAgain s.cfg hd.n (bank s hd.n))).flatten ++
          [regRead s.cfg hd.n .ir [q.ir]]).reverse ++ s.out

/-- R259, R373: whatever the chip and the bus do, Write puts no write frame to the interrupt register on the bus. -/
def Obligations.WriteNeverClearsFlags : Prop :=
  ∀ (s t : State) (h : Half) (hd : Handle) (data : List Byte), SockDisjoint s.cfg → handleOf s h = some hd →
    exec (.sockWrite h data) s = .next t →
    ∃ acts, t.out = acts ++ s.out ∧
      ∀ a ∈ acts, actHeader a ≠ some (header (regBlk hd.n) s.cfg.sock.ir true)

/-- R258, R337, R259, R336: how the two waits of Write fail. The free-space wait: a free size that stays below the length
gives SendWaitTimeout with the last size after as many looks (size, then status) as the budget has; a status outside
{ESTABLISHED, CLOSE_WAIT} shown at look `j` gives EndOfStream. The send-ok wait, with the payload placed and SEND taken: bit 4
clear at as many looks (flags, then status) as the budget has gives SendWaitTimeout with the last flags; CLOSED shown at look
`j` gives SocketClosedDuringWrite. The count is 0 each time. -/
def Obligations.WriteWaitsEnd : Prop :=
  ∀ (s : State) (h : Half) (hd : Handle) (data : List Byte), Clean s → CfgOk s.cfg → handleOf s h = some hd →
    data.length ≤ hd.sTx.bytes → MaySend s.cfg (bank s hd.n).sr →
    ((bank s hd.n).txFsr.toNat < data.length →
      (QuietFor s (1 + 2 * s.cfg.freeWaitMaxPolls) →
        ∃ t, exec (.sockWrite h data) s = .next t ∧
          Ended s t (.stream 0 (some (.sendWaitTimeout .freeSpace (bank s hd.n).txFsr.toNat))) ∧ t.chip = s.chip ∧
          t.out =
            (regRead s.cfg hd.n .sr [(bank s hd.n).sr] ::
              freeLooks s.cfg hd.n (bank s hd.n).txFsr
                (List.replicate s.cfg.freeWaitMaxPolls (bank s hd.n).sr)).reverse ++ s.out) ∧
      (∀ j v, 1 ≤ j → j ≤ s.cfg.freeWaitMaxPolls → QuietFor s (2 * j) → gapAt s (2 * j) = [.status hd.n v] →
        ¬MaySend s.cfg v →
        ∃ t, exec (.sockWrite h data) s = .next t ∧ Ended s t (.stream 0 (some .endOfStream)) ∧
          t.chip = withBank s.chip hd.n { bank s hd.n with sr := v } ∧
          t.out =
            (regRead s.cfg hd.n .sr [(bank s hd.n).sr] ::
              freeLooks s.cfg hd.n (bank s hd.n).txFsr
                (List.replicate (j - 1) (bank s hd.n).sr ++ [v])).reverse ++ s.out)) ∧
    (∀ m, data.length ≤ (bank s hd.n).txFsr.toNat → Memory.wf s.chip.mem = true →
      PlainWrite s.cfg (txBlk hd.n) (txAddr hd.n hd.sTx (bank s hd.n).txWr) data.length → QuietFor s 5 → 1 ≤ m → m ≤ 10 →
      Accepts s hd.n 5 m → (bank s hd.n).ir.getLsbD 4 = false →
      ((∀ k, k < 2 * s.cfg.sendOkMaxPolls → gapAt s (6 + m + k) = []) →
        ∃ t mem, exec (.sockWrite h data) s = .next t ∧
          Ended s t (.stream 0 (some (.sendWaitTimeout .sendOk (bank s hd.n).ir.toNat))) ∧
          t.chip = withBank { s.chip with mem := mem } hd.n (written (bank s hd.n) data.length) ∧
          Stored s (s.setChip { s.chip with mem := mem }) (txBlk hd.n) (txAddr hd.n hd.sTx (bank s hd.n).txWr) data ∧
          t.out =
            (writeFrames s.cfg hd (bank s hd.n) data (bank s hd.n).txFsr 1 m ++
              sendOkLooks s.cfg hd.n (bank s hd.n).ir
                (List.replicate s.cfg.sendOkMaxPolls (bank s hd.n).sr)).reverse ++ s.out) ∧
      (∀ j, 1 ≤ j → j ≤ s.cfg.sendOkMaxPolls → (∀ k, k < 2 * j - 1 → gapAt s (6 + m + k) = []) →
        gapAt s (6 + m + (2 * j - 1)) = [.status hd.n s.cfg.status.closed] →
        ∃ t mem, exec (.sockWrite h data) s = .next t ∧ Ended s t (.stream 0 (some .socketClosedDuringWrite)) ∧
          t.chip = withBank { s.chip with mem := mem } hd.n
            { written (bank s hd.n) data.length with sr := s.cfg.status.closed } ∧
          Stored s (s.setChip { s.chip with mem := mem }) (txBlk hd.n) (txAddr hd.n hd.sTx (bank s hd.n).txWr) data ∧
          t.out =
            (writeFrames s.cfg hd (bank s hd.n) data (bank s hd.n).txFsr 1 m ++
              sendOkLooks s.cfg hd.n (bank s hd.n).ir
                (List.replicate (j - 1) (bank s hd.n).sr ++ [s.cfg.status.closed])).reverse ++ s.out))

/-! Command and mode bytes on the chip's side. A command byte given as an instruction is written and taken in one step, its
effect in the same step unless the environment defers it (`deferred`, log entry 4); PerformIsTheCommand has the deferred
ones. -/

/-- R277, R132: OPEN on a CLOSED socket gives INIT for the TCP mode byte and UDP for the UDP mode byte; pointers and
counters are free; nothing else changes. On another status the source pairs nothing with it (93 U20): status and flags are
free too. Taking the command in the same step is the model's choice (log entry 4). -/
def Obligations.OpenCommand : Prop :=
  ∀ (s : State) (n : SockIdx), deferred s = false → ∃ t q, exec (.sncrOpen n) s = .next t ∧
    t = ((useDefer s).setChip (withBank s.chip n q)).setFree t.free ∧
    q = { cleared (bank s n) with
      sr := q.sr, ir := q.ir, txFsr := q.txFsr, txRd := q.txRd, txWr := q.txWr, rxRsr := q.rxRsr, rxRd := q.rxRd,
      rxWr := q.rxWr, rxAck := q.rxAck } ∧
    ((bank s n).sr = s.cfg.status.closed →
      q.ir = (bank s n).ir ∧ ((bank s n).mr = 0x21#8 → q.sr = s.cfg.status.init) ∧
        ((bank s n).mr = 0x02#8 → q.sr = s.cfg.status.udp))

/-- R278, R279, R286 (b): LISTEN in INIT gives LISTEN, CONNECT in INIT begins the attempt (SYN_SENT at once is the model's
reading, log entry 15); nothing else changes; in another status only status and flags are free (93 U20). -/
def Obligations.ListenConnectCommands : Prop :=
  ∀ (s : State) (n : SockIdx) (i : Instr) (st : Byte), deferred s = false →
    (i = .sncrListen n ∧ st = s.cfg.status.listen ∨ i = .sncrConnect n ∧ st = s.cfg.status.synSent) →
    ∃ t q, exec i s = .next t ∧ t = ((useDefer s).setChip (withBank s.chip n q)).setFree t.free ∧
      q = { cleared (bank s n) with sr := q.sr, ir := q.ir } ∧
      ((bank s n).sr = s.cfg.status.init → q.sr = st ∧ q.ir = (bank s n).ir)

/-- R280, R281, 93 U21: CLOSE closes the socket at once, in every status; DISCON leaves a status the source does not name;
nothing else changes. -/
def Obligations.CloseDisconCommands : Prop :=
  ∀ (s : State) (n : SockIdx), deferred s = false →
    exec (.sncrClose n) s =
        .next ((useDefer s).setChip
          (withBank s.chip n { cleared (bank s n) with sr := s.cfg.status.closed })) ∧
      ∃ t st, exec (.sncrDiscon n) s = .next t ∧
        t = ((useDefer s).setChip (withBank s.chip n { cleared (bank s n) with sr := st })).setFree t.free

/-- R282, R102: SEND on a connected socket transmits the bytes from the read pointer up to the write pointer, takes the
read pointer there, and sets bit 4 when there were any (93 U12: when there were none it may or may not); the free size is
what the chip then has; nothing else changes. When the chip's size is the handle's and it wraps, the bytes sent are those
that stand at the transmit addresses stream Write uses (where the chip takes them from: log entry 16). That the bytes are
taken, the pointer moved and bit 4 set in one step is the model's choice (log entry 41). -/
def Obligations.SendCommand : Prop :=
  ∀ (s : State) (n : SockIdx) (size : BufSize) (data : List Byte), deferred s = false → MaySend s.cfg (bank s n).sr →
    s.cfg.bufAlias = .wrapS → s.cfg.chipTx.get n = size.bytes →
    data.length = ((bank s n).txWr - (bank s n).txRd).toNat →
    (∀ i (h : i < data.length),
      peek s (txBlk n) (txAddr n size (bank s n).txRd + BitVec.ofNat 16 i) = some data[i]) →
    ∃ t q, exec (.sncrSend n) s = .next t ∧ t = ((useDefer s).setChip (withBank s.chip n q)).setFree t.free ∧
      q = { cleared (bank s n) with
        ir := q.ir, txRd := (bank s n).txWr, txFsr := q.txFsr, sent := (bank s n).sent ++ data } ∧
      (data ≠ [] → q.ir = (bank s n).ir ||| 0x10#8) ∧
      (data = [] → q.ir = (bank s n).ir ∨ q.ir = (bank s n).ir ||| 0x10#8)

/-- R282: on every configuration SEND completes. On a connected socket it appends as many bytes as lie between the pointers,
takes the read pointer to the write pointer, leaves the status, and sets bit 4 when there were any (93 U12: otherwise it may
or may not); a chip that does not wrap and whose positions lie in its window sends the bytes its buffer holds there (log
entry 16). In a status the source does not pair with it (93 U20) status, flags, free size, read pointer and what is sent are
free (the model's choice, log entry 28). Nothing else changes. That the bytes are taken, the pointer moved and bit 4 set in one
step is the model's choice (log entry 41). -/
def Obligations.SendCommandCompletes : Prop :=
  ∀ (s : State) (n : SockIdx), deferred s = false → ∃ t q d, exec (.sncrSend n) s = .next t ∧
    t = ((useDefer s).setChip (withBank s.chip n q)).setFree t.free ∧
    q = { cleared (bank s n) with
      sr := q.sr, ir := q.ir, txRd := q.txRd, txFsr := q.txFsr, sent := (bank s n).sent ++ d } ∧
    (MaySend s.cfg (bank s n).sr →
      q.sr = (bank s n).sr ∧ q.txRd = (bank s n).txWr ∧ d.length = ((bank s n).txWr - (bank s n).txRd).toNat ∧
        (d ≠ [] → q.ir = (bank s n).ir ||| 0x10#8) ∧
        (d = [] → q.ir = (bank s n).ir ∨ q.ir = (bank s n).ir ||| 0x10#8) ∧
        (s.cfg.bufAlias = .flat → (bank s n).txRd.toNat + d.length ≤ s.cfg.chipTx.get n →
          ∀ i (h : i < d.length),
            peek s (txBlk n)
              ((bank s n).txRd + BitVec.ofNat 16 (n.val * s.cfg.chipTx.get n) + BitVec.ofNat 16 i) = some d[i]))

/-- R283: RECV takes the new read pointer and lowers the received size by the number consumed since the last one; nothing
else changes. A number above the received size has no stated result (log entry 17). -/
def Obligations.RecvCommand : Prop :=
  ∀ (s : State) (n : SockIdx), deferred s = false → ∃ t q, exec (.sncrRecv n) s = .next t ∧
    t = ((useDefer s).setChip (withBank s.chip n q)).setFree t.free ∧
    q = { cleared (bank s n) with rxRsr := q.rxRsr, rxAck := (bank s n).rxRd } ∧
    (((bank s n).rxRd - (bank s n).rxAck).toNat ≤ (bank s n).rxRsr.toNat →
      q.rxRsr = (bank s n).rxRsr - ((bank s n).rxRd - (bank s n).rxAck))

/-- R132, R295: the mode byte is stored in the socket's mode register and changes nothing else. -/
def Obligations.ModeBytes : Prop :=
  ∀ (s : State) (n : SockIdx),
    exec (.snmrTcp n) s = .next (s.setChip (withBank s.chip n { bank s n with mr := 0x21#8 })) ∧
      exec (.snmrUdp n) s = .next (s.setChip (withBank s.chip n { bank s n with mr := 0x02#8 }))

/-- R276: the effects of a command come when it is taken or later. A command byte that is deferred is taken and put in
progress, and nothing else changes. The action of a command in progress, when it takes effect, is that of the command's own
instruction, whether it was deferred or taken over the bus: in the state of that moment, whose status (U20) and pointers count,
which is the model's choice (log entry 38). -/
def Obligations.PerformIsTheCommand : Prop :=
  ∀ (s : State) (n : SockIdx) (rest : List Byte) (code : Byte) (i : Instr),
    (code = 0x01#8 ∧ i = .sncrOpen n ∨ code = 0x02#8 ∧ i = .sncrListen n ∨ code = 0x04#8 ∧ i = .sncrConnect n ∨
      code = 0x08#8 ∧ i = .sncrDiscon n ∨ code = 0x10#8 ∧ i = .sncrClose n ∨ code = 0x20#8 ∧ i = .sncrSend n ∨
      code = 0x40#8 ∧ i = .sncrRecv n) →
    (deferred s = true →
      exec i s = .next ((useDefer s).setChip (withBank s.chip n (taken (bank s n) code)))) ∧
    ((bank s n).inProgress = code :: rest → bank s n = cleared (bank s n) → s.env.defer = [] →
      exec i (s.setChip (withBank s.chip n { bank s n with inProgress := rest })) = .next (chipStep s (.perform n)))

/-- R293, R102, R94: bytes that arrive stand where stream Read will look for them: at the receive addresses of the
positions from the receive write pointer on; the received size grows by their number; every buffer byte elsewhere and
every other register stay. It holds when the chip's size is the handle's (where the chip stores them: log entry 16). -/
def Obligations.ArrivedBytesWhereReadLooks : Prop :=
  ∀ (s : State) (n : SockIdx) (size : BufSize) (data : List Byte), Memory.wf s.chip.mem = true →
    s.cfg.chipRx.get n = size.bytes → data.length ≤ size.bytes →
    ∃ mem, (chipStep s (.arrive n data)).chip = withBank { s.chip with mem := mem } n
        { bank s n with
          rxWr := (bank s n).rxWr + BitVec.ofNat 16 data.length
          rxRsr := (bank s n).rxRsr + BitVec.ofNat 16 data.length } ∧
      Memory.wf mem = true ∧
      (∀ i (h : i < data.length),
        peek (chipStep s (.arrive n data)) (rxBlk n)
          (rxAddr s.cfg n size ((bank s n).rxWr + BitVec.ofNat 16 i)) = some data[i]) ∧
      ∀ b o,
        (∀ i, i < data.length →
          target s.cfg b o ≠ target s.cfg (rxBlk n) (rxAddr s.cfg n size ((bank s n).rxWr + BitVec.ofNat 16 i))) →
        peek (s.setChip { s.chip with mem := mem }) b o = peek s b o
end

