-- ==== Sys2Proof/Laws/Memory.lean ====
section
/-! SUPPORT. The laws of the buffer memories: read after write, and every operation keeps the canonical form. -/

namespace Sys2Proof.Machine

theorem Memory.above_trans {a b : Nat} (h : a ≤ b) {m : List Host.Cell} (hm : Memory.above b m = true) :
    Memory.above a m = true := by
  induction m with
  | nil => rfl
  | cons c rest ih =>
    obtain ⟨k, v⟩ := c
    simp only [Memory.above, Bool.and_eq_true, decide_eq_true_eq] at hm ⊢
    exact ⟨by omega, ih hm.2⟩

theorem Memory.read_of_above {a : Nat} {m : List Host.Cell} (h : Memory.above a m = true) :
    Memory.read m a = Memory.unlisted := by
  induction m with
  | nil => rfl
  | cons c rest ih =>
    obtain ⟨k, v⟩ := c
    simp only [Memory.above, Bool.and_eq_true, decide_eq_true_eq] at h
    simp only [Memory.read]
    rw [if_neg (by omega)]
    exact ih h.2

theorem Memory.write_above {a b : Nat} {v : Byte} {m : List Host.Cell} (hb : b < a)
    (h : Memory.above b m = true) : Memory.above b (Memory.write a v m) = true := by
  induction m with
  | nil => by_cases hv : v = Memory.unlisted <;> simp [Memory.write, Memory.above, hv, hb]
  | cons c rest ih =>
    obtain ⟨k, w⟩ := c
    simp only [Memory.above, Bool.and_eq_true, decide_eq_true_eq] at h
    simp only [Memory.write]
    split <;> [split; (split; split)] <;> simp_all [Memory.above]

/-- Writing keeps the canonical form. -/
theorem Memory.write_wf {a : Nat} {v : Byte} {m : List Host.Cell} (h : Memory.wf m = true) :
    Memory.wf (Memory.write a v m) = true := by
  induction m with
  | nil => by_cases hv : v = Memory.unlisted <;> simp [Memory.write, Memory.wf, Memory.above, hv]
  | cons c rest ih =>
    obtain ⟨k, w⟩ := c
    simp only [Memory.wf, Bool.and_eq_true] at h
    obtain ⟨⟨hw, hk⟩, hr⟩ := h
    simp only [Memory.write]
    by_cases h1 : a < k
    · by_cases hv : v = Memory.unlisted
      · simp [h1, hv, Memory.wf, hw, hk, hr]
      · have := Memory.above_trans (Nat.le_of_lt h1) hk
        simp [h1, hv, Memory.wf, Memory.above, hk, hr, this]
        simpa using hw
    · by_cases h2 : a = k
      · by_cases hv : v = Memory.unlisted
        · simp [h2, hv, hr]
        · simp [h2, hv, Memory.wf, hk, hr]
      · simp [h1, h2, Memory.wf, ih hr, Memory.write_above (show k < a by omega) hk]
        simpa using hw

/-- A read after a write to the same cell gives the byte written. -/
theorem Memory.read_write_same {a : Nat} {v : Byte} {m : List Host.Cell} (h : Memory.wf m = true) :
    Memory.read (Memory.write a v m) a = v := by
  induction m with
  | nil => by_cases hv : v = Memory.unlisted <;> simp [Memory.write, Memory.read, hv]
  | cons c rest ih =>
    obtain ⟨k, w⟩ := c
    simp only [Memory.wf, Bool.and_eq_true] at h
    obtain ⟨⟨hw, hk⟩, hr⟩ := h
    simp only [Memory.write]
    by_cases h1 : a < k
    · by_cases hv : v = Memory.unlisted
      · have : k ≠ a := by omega
        simp [h1, hv, Memory.read, this, Memory.read_of_above (Memory.above_trans (Nat.le_of_lt h1) hk)]
      · simp [h1, hv, Memory.read]
    · by_cases h2 : a = k
      · by_cases hv : v = Memory.unlisted
        · subst h2; simp [hv, Memory.read_of_above hk]
        · simp [h2, hv, Memory.read]
      · have : k ≠ a := by omega
        simp [h1, h2, Memory.read, this, ih hr]

/-- A write leaves every other cell alone. -/
theorem Memory.read_write_other {a b : Nat} {v : Byte} {m : List Host.Cell} (hab : b ≠ a)
    (h : Memory.wf m = true) : Memory.read (Memory.write a v m) b = Memory.read m b := by
  induction m with
  | nil => by_cases hv : v = Memory.unlisted <;> simp [Memory.write, Memory.read, hv]; omega
  | cons c rest ih =>
    obtain ⟨k, w⟩ := c
    simp only [Memory.wf, Bool.and_eq_true] at h
    obtain ⟨⟨hw, hk⟩, hr⟩ := h
    simp only [Memory.write]
    by_cases h1 : a < k
    · by_cases hv : v = Memory.unlisted
      · simp [h1, hv]
      · simp [h1, hv, Memory.read]; omega
    · by_cases h2 : a = k
      · have : k ≠ b := by omega
        by_cases hv : v = Memory.unlisted
        · simp [h2, hv, Memory.read, this]
        · simp [h2, hv, Memory.read, this]
      · simp [h1, h2, Memory.read, ih hr]

/-- Free buffer contents are in canonical form. -/
theorem Memory.ofCells_wf (l : List (Nat × Byte)) : Memory.wf (Memory.ofCells l) = true := by
  induction l with
  | nil => rfl
  | cons c rest ih => exact Memory.write_wf ih

end Sys2Proof.Machine
end

