-- ==== Sys2Proof/Laws/State.lean ====
section
/-! SUPPORT. What each one-field update leaves in each field. -/

namespace Sys2Proof.Machine

variable (s : State)

@[simp] theorem State.setFree_cfg (v : Nat) : (s.setFree v).cfg = s.cfg := rfl
@[simp] theorem State.setFree_free (v : Nat) : (s.setFree v).free = v := rfl
@[simp] theorem State.setFree_env (v : Nat) : (s.setFree v).env = s.env := rfl
@[simp] theorem State.setFree_cs (v : Nat) : (s.setFree v).cs = s.cs := rfl
@[simp] theorem State.setFree_bus (v : Nat) : (s.setFree v).bus = s.bus := rfl
@[simp] theorem State.setFree_handles (v : Nat) : (s.setFree v).handles = s.handles := rfl
@[simp] theorem State.setFree_seq (v : Nat) : (s.setFree v).seq = s.seq := rfl
@[simp] theorem State.setFree_lat (v : Nat) : (s.setFree v).lat = s.lat := rfl
@[simp] theorem State.setFree_requests (v : Nat) : (s.setFree v).requests = s.requests := rfl
@[simp] theorem State.setFree_result (v : Nat) : (s.setFree v).result = s.result := rfl
@[simp] theorem State.setFree_dest (v : Nat) : (s.setFree v).dest = s.dest := rfl
@[simp] theorem State.setFree_out (v : Nat) : (s.setFree v).out = s.out := rfl
@[simp] theorem State.setFree_clock (v : Nat) : (s.setFree v).clock = s.clock := rfl
@[simp] theorem State.setFree_chip (v : Nat) : (s.setFree v).chip = s.chip := rfl

@[simp] theorem State.setEnv_cfg (v : Env) : (s.setEnv v).cfg = s.cfg := rfl
@[simp] theorem State.setEnv_free (v : Env) : (s.setEnv v).free = s.free := rfl
@[simp] theorem State.setEnv_env (v : Env) : (s.setEnv v).env = v := rfl
@[simp] theorem State.setEnv_cs (v : Env) : (s.setEnv v).cs = s.cs := rfl
@[simp] theorem State.setEnv_bus (v : Env) : (s.setEnv v).bus = s.bus := rfl
@[simp] theorem State.setEnv_handles (v : Env) : (s.setEnv v).handles = s.handles := rfl
@[simp] theorem State.setEnv_seq (v : Env) : (s.setEnv v).seq = s.seq := rfl
@[simp] theorem State.setEnv_lat (v : Env) : (s.setEnv v).lat = s.lat := rfl
@[simp] theorem State.setEnv_requests (v : Env) : (s.setEnv v).requests = s.requests := rfl
@[simp] theorem State.setEnv_result (v : Env) : (s.setEnv v).result = s.result := rfl
@[simp] theorem State.setEnv_dest (v : Env) : (s.setEnv v).dest = s.dest := rfl
@[simp] theorem State.setEnv_out (v : Env) : (s.setEnv v).out = s.out := rfl
@[simp] theorem State.setEnv_clock (v : Env) : (s.setEnv v).clock = s.clock := rfl
@[simp] theorem State.setEnv_chip (v : Env) : (s.setEnv v).chip = s.chip := rfl

@[simp] theorem State.setCs_cfg (v : CsLevel) : (s.setCs v).cfg = s.cfg := rfl
@[simp] theorem State.setCs_free (v : CsLevel) : (s.setCs v).free = s.free := rfl
@[simp] theorem State.setCs_env (v : CsLevel) : (s.setCs v).env = s.env := rfl
@[simp] theorem State.setCs_cs (v : CsLevel) : (s.setCs v).cs = v := rfl
@[simp] theorem State.setCs_bus (v : CsLevel) : (s.setCs v).bus = s.bus := rfl
@[simp] theorem State.setCs_handles (v : CsLevel) : (s.setCs v).handles = s.handles := rfl
@[simp] theorem State.setCs_seq (v : CsLevel) : (s.setCs v).seq = s.seq := rfl
@[simp] theorem State.setCs_lat (v : CsLevel) : (s.setCs v).lat = s.lat := rfl
@[simp] theorem State.setCs_requests (v : CsLevel) : (s.setCs v).requests = s.requests := rfl
@[simp] theorem State.setCs_result (v : CsLevel) : (s.setCs v).result = s.result := rfl
@[simp] theorem State.setCs_dest (v : CsLevel) : (s.setCs v).dest = s.dest := rfl
@[simp] theorem State.setCs_out (v : CsLevel) : (s.setCs v).out = s.out := rfl
@[simp] theorem State.setCs_clock (v : CsLevel) : (s.setCs v).clock = s.clock := rfl
@[simp] theorem State.setCs_chip (v : CsLevel) : (s.setCs v).chip = s.chip := rfl

@[simp] theorem State.setBus_cfg (v : Option BusSettings) : (s.setBus v).cfg = s.cfg := rfl
@[simp] theorem State.setBus_free (v : Option BusSettings) : (s.setBus v).free = s.free := rfl
@[simp] theorem State.setBus_env (v : Option BusSettings) : (s.setBus v).env = s.env := rfl
@[simp] theorem State.setBus_cs (v : Option BusSettings) : (s.setBus v).cs = s.cs := rfl
@[simp] theorem State.setBus_bus (v : Option BusSettings) : (s.setBus v).bus = v := rfl
@[simp] theorem State.setBus_handles (v : Option BusSettings) : (s.setBus v).handles = s.handles := rfl
@[simp] theorem State.setBus_seq (v : Option BusSettings) : (s.setBus v).seq = s.seq := rfl
@[simp] theorem State.setBus_lat (v : Option BusSettings) : (s.setBus v).lat = s.lat := rfl
@[simp] theorem State.setBus_requests (v : Option BusSettings) : (s.setBus v).requests = s.requests := rfl
@[simp] theorem State.setBus_result (v : Option BusSettings) : (s.setBus v).result = s.result := rfl
@[simp] theorem State.setBus_dest (v : Option BusSettings) : (s.setBus v).dest = s.dest := rfl
@[simp] theorem State.setBus_out (v : Option BusSettings) : (s.setBus v).out = s.out := rfl
@[simp] theorem State.setBus_clock (v : Option BusSettings) : (s.setBus v).clock = s.clock := rfl
@[simp] theorem State.setBus_chip (v : Option BusSettings) : (s.setBus v).chip = s.chip := rfl

@[simp] theorem State.setHandles_cfg (v : List Handle) : (s.setHandles v).cfg = s.cfg := rfl
@[simp] theorem State.setHandles_free (v : List Handle) : (s.setHandles v).free = s.free := rfl
@[simp] theorem State.setHandles_env (v : List Handle) : (s.setHandles v).env = s.env := rfl
@[simp] theorem State.setHandles_cs (v : List Handle) : (s.setHandles v).cs = s.cs := rfl
@[simp] theorem State.setHandles_bus (v : List Handle) : (s.setHandles v).bus = s.bus := rfl
@[simp] theorem State.setHandles_handles (v : List Handle) : (s.setHandles v).handles = v := rfl
@[simp] theorem State.setHandles_seq (v : List Handle) : (s.setHandles v).seq = s.seq := rfl
@[simp] theorem State.setHandles_lat (v : List Handle) : (s.setHandles v).lat = s.lat := rfl
@[simp] theorem State.setHandles_requests (v : List Handle) : (s.setHandles v).requests = s.requests := rfl
@[simp] theorem State.setHandles_result (v : List Handle) : (s.setHandles v).result = s.result := rfl
@[simp] theorem State.setHandles_dest (v : List Handle) : (s.setHandles v).dest = s.dest := rfl
@[simp] theorem State.setHandles_out (v : List Handle) : (s.setHandles v).out = s.out := rfl
@[simp] theorem State.setHandles_clock (v : List Handle) : (s.setHandles v).clock = s.clock := rfl
@[simp] theorem State.setHandles_chip (v : List Handle) : (s.setHandles v).chip = s.chip := rfl

@[simp] theorem State.setSeq_cfg (v : Sequencer) : (s.setSeq v).cfg = s.cfg := rfl
@[simp] theorem State.setSeq_free (v : Sequencer) : (s.setSeq v).free = s.free := rfl
@[simp] theorem State.setSeq_env (v : Sequencer) : (s.setSeq v).env = s.env := rfl
@[simp] theorem State.setSeq_cs (v : Sequencer) : (s.setSeq v).cs = s.cs := rfl
@[simp] theorem State.setSeq_bus (v : Sequencer) : (s.setSeq v).bus = s.bus := rfl
@[simp] theorem State.setSeq_handles (v : Sequencer) : (s.setSeq v).handles = s.handles := rfl
@[simp] theorem State.setSeq_seq (v : Sequencer) : (s.setSeq v).seq = v := rfl
@[simp] theorem State.setSeq_lat (v : Sequencer) : (s.setSeq v).lat = s.lat := rfl
@[simp] theorem State.setSeq_requests (v : Sequencer) : (s.setSeq v).requests = s.requests := rfl
@[simp] theorem State.setSeq_result (v : Sequencer) : (s.setSeq v).result = s.result := rfl
@[simp] theorem State.setSeq_dest (v : Sequencer) : (s.setSeq v).dest = s.dest := rfl
@[simp] theorem State.setSeq_out (v : Sequencer) : (s.setSeq v).out = s.out := rfl
@[simp] theorem State.setSeq_clock (v : Sequencer) : (s.setSeq v).clock = s.clock := rfl
@[simp] theorem State.setSeq_chip (v : Sequencer) : (s.setSeq v).chip = s.chip := rfl

@[simp] theorem State.setLat_cfg (v : Latches) : (s.setLat v).cfg = s.cfg := rfl
@[simp] theorem State.setLat_free (v : Latches) : (s.setLat v).free = s.free := rfl
@[simp] theorem State.setLat_env (v : Latches) : (s.setLat v).env = s.env := rfl
@[simp] theorem State.setLat_cs (v : Latches) : (s.setLat v).cs = s.cs := rfl
@[simp] theorem State.setLat_bus (v : Latches) : (s.setLat v).bus = s.bus := rfl
@[simp] theorem State.setLat_handles (v : Latches) : (s.setLat v).handles = s.handles := rfl
@[simp] theorem State.setLat_seq (v : Latches) : (s.setLat v).seq = s.seq := rfl
@[simp] theorem State.setLat_lat (v : Latches) : (s.setLat v).lat = v := rfl
@[simp] theorem State.setLat_requests (v : Latches) : (s.setLat v).requests = s.requests := rfl
@[simp] theorem State.setLat_result (v : Latches) : (s.setLat v).result = s.result := rfl
@[simp] theorem State.setLat_dest (v : Latches) : (s.setLat v).dest = s.dest := rfl
@[simp] theorem State.setLat_out (v : Latches) : (s.setLat v).out = s.out := rfl
@[simp] theorem State.setLat_clock (v : Latches) : (s.setLat v).clock = s.clock := rfl
@[simp] theorem State.setLat_chip (v : Latches) : (s.setLat v).chip = s.chip := rfl

@[simp] theorem State.setRequests_cfg (v : List Request) : (s.setRequests v).cfg = s.cfg := rfl
@[simp] theorem State.setRequests_free (v : List Request) : (s.setRequests v).free = s.free := rfl
@[simp] theorem State.setRequests_env (v : List Request) : (s.setRequests v).env = s.env := rfl
@[simp] theorem State.setRequests_cs (v : List Request) : (s.setRequests v).cs = s.cs := rfl
@[simp] theorem State.setRequests_bus (v : List Request) : (s.setRequests v).bus = s.bus := rfl
@[simp] theorem State.setRequests_handles (v : List Request) : (s.setRequests v).handles = s.handles := rfl
@[simp] theorem State.setRequests_seq (v : List Request) : (s.setRequests v).seq = s.seq := rfl
@[simp] theorem State.setRequests_lat (v : List Request) : (s.setRequests v).lat = s.lat := rfl
@[simp] theorem State.setRequests_requests (v : List Request) : (s.setRequests v).requests = v := rfl
@[simp] theorem State.setRequests_result (v : List Request) : (s.setRequests v).result = s.result := rfl
@[simp] theorem State.setRequests_dest (v : List Request) : (s.setRequests v).dest = s.dest := rfl
@[simp] theorem State.setRequests_out (v : List Request) : (s.setRequests v).out = s.out := rfl
@[simp] theorem State.setRequests_clock (v : List Request) : (s.setRequests v).clock = s.clock := rfl
@[simp] theorem State.setRequests_chip (v : List Request) : (s.setRequests v).chip = s.chip := rfl

@[simp] theorem State.setResult_cfg (v : Option OpResult) : (s.setResult v).cfg = s.cfg := rfl
@[simp] theorem State.setResult_free (v : Option OpResult) : (s.setResult v).free = s.free := rfl
@[simp] theorem State.setResult_env (v : Option OpResult) : (s.setResult v).env = s.env := rfl
@[simp] theorem State.setResult_cs (v : Option OpResult) : (s.setResult v).cs = s.cs := rfl
@[simp] theorem State.setResult_bus (v : Option OpResult) : (s.setResult v).bus = s.bus := rfl
@[simp] theorem State.setResult_handles (v : Option OpResult) : (s.setResult v).handles = s.handles := rfl
@[simp] theorem State.setResult_seq (v : Option OpResult) : (s.setResult v).seq = s.seq := rfl
@[simp] theorem State.setResult_lat (v : Option OpResult) : (s.setResult v).lat = s.lat := rfl
@[simp] theorem State.setResult_requests (v : Option OpResult) : (s.setResult v).requests = s.requests := rfl
@[simp] theorem State.setResult_result (v : Option OpResult) : (s.setResult v).result = v := rfl
@[simp] theorem State.setResult_dest (v : Option OpResult) : (s.setResult v).dest = s.dest := rfl
@[simp] theorem State.setResult_out (v : Option OpResult) : (s.setResult v).out = s.out := rfl
@[simp] theorem State.setResult_clock (v : Option OpResult) : (s.setResult v).clock = s.clock := rfl
@[simp] theorem State.setResult_chip (v : Option OpResult) : (s.setResult v).chip = s.chip := rfl

@[simp] theorem State.setDest_cfg (v : List Byte) : (s.setDest v).cfg = s.cfg := rfl
@[simp] theorem State.setDest_free (v : List Byte) : (s.setDest v).free = s.free := rfl
@[simp] theorem State.setDest_env (v : List Byte) : (s.setDest v).env = s.env := rfl
@[simp] theorem State.setDest_cs (v : List Byte) : (s.setDest v).cs = s.cs := rfl
@[simp] theorem State.setDest_bus (v : List Byte) : (s.setDest v).bus = s.bus := rfl
@[simp] theorem State.setDest_handles (v : List Byte) : (s.setDest v).handles = s.handles := rfl
@[simp] theorem State.setDest_seq (v : List Byte) : (s.setDest v).seq = s.seq := rfl
@[simp] theorem State.setDest_lat (v : List Byte) : (s.setDest v).lat = s.lat := rfl
@[simp] theorem State.setDest_requests (v : List Byte) : (s.setDest v).requests = s.requests := rfl
@[simp] theorem State.setDest_result (v : List Byte) : (s.setDest v).result = s.result := rfl
@[simp] theorem State.setDest_dest (v : List Byte) : (s.setDest v).dest = v := rfl
@[simp] theorem State.setDest_out (v : List Byte) : (s.setDest v).out = s.out := rfl
@[simp] theorem State.setDest_clock (v : List Byte) : (s.setDest v).clock = s.clock := rfl
@[simp] theorem State.setDest_chip (v : List Byte) : (s.setDest v).chip = s.chip := rfl

@[simp] theorem State.setOut_cfg (v : List BusAct) : (s.setOut v).cfg = s.cfg := rfl
@[simp] theorem State.setOut_free (v : List BusAct) : (s.setOut v).free = s.free := rfl
@[simp] theorem State.setOut_env (v : List BusAct) : (s.setOut v).env = s.env := rfl
@[simp] theorem State.setOut_cs (v : List BusAct) : (s.setOut v).cs = s.cs := rfl
@[simp] theorem State.setOut_bus (v : List BusAct) : (s.setOut v).bus = s.bus := rfl
@[simp] theorem State.setOut_handles (v : List BusAct) : (s.setOut v).handles = s.handles := rfl
@[simp] theorem State.setOut_seq (v : List BusAct) : (s.setOut v).seq = s.seq := rfl
@[simp] theorem State.setOut_lat (v : List BusAct) : (s.setOut v).lat = s.lat := rfl
@[simp] theorem State.setOut_requests (v : List BusAct) : (s.setOut v).requests = s.requests := rfl
@[simp] theorem State.setOut_result (v : List BusAct) : (s.setOut v).result = s.result := rfl
@[simp] theorem State.setOut_dest (v : List BusAct) : (s.setOut v).dest = s.dest := rfl
@[simp] theorem State.setOut_out (v : List BusAct) : (s.setOut v).out = v := rfl
@[simp] theorem State.setOut_clock (v : List BusAct) : (s.setOut v).clock = s.clock := rfl
@[simp] theorem State.setOut_chip (v : List BusAct) : (s.setOut v).chip = s.chip := rfl

@[simp] theorem State.setClock_cfg (v : Nat) : (s.setClock v).cfg = s.cfg := rfl
@[simp] theorem State.setClock_free (v : Nat) : (s.setClock v).free = s.free := rfl
@[simp] theorem State.setClock_env (v : Nat) : (s.setClock v).env = s.env := rfl
@[simp] theorem State.setClock_cs (v : Nat) : (s.setClock v).cs = s.cs := rfl
@[simp] theorem State.setClock_bus (v : Nat) : (s.setClock v).bus = s.bus := rfl
@[simp] theorem State.setClock_handles (v : Nat) : (s.setClock v).handles = s.handles := rfl
@[simp] theorem State.setClock_seq (v : Nat) : (s.setClock v).seq = s.seq := rfl
@[simp] theorem State.setClock_lat (v : Nat) : (s.setClock v).lat = s.lat := rfl
@[simp] theorem State.setClock_requests (v : Nat) : (s.setClock v).requests = s.requests := rfl
@[simp] theorem State.setClock_result (v : Nat) : (s.setClock v).result = s.result := rfl
@[simp] theorem State.setClock_dest (v : Nat) : (s.setClock v).dest = s.dest := rfl
@[simp] theorem State.setClock_out (v : Nat) : (s.setClock v).out = s.out := rfl
@[simp] theorem State.setClock_clock (v : Nat) : (s.setClock v).clock = v := rfl
@[simp] theorem State.setClock_chip (v : Nat) : (s.setClock v).chip = s.chip := rfl

@[simp] theorem State.setChip_cfg (v : Chip) : (s.setChip v).cfg = s.cfg := rfl
@[simp] theorem State.setChip_free (v : Chip) : (s.setChip v).free = s.free := rfl
@[simp] theorem State.setChip_env (v : Chip) : (s.setChip v).env = s.env := rfl
@[simp] theorem State.setChip_cs (v : Chip) : (s.setChip v).cs = s.cs := rfl
@[simp] theorem State.setChip_bus (v : Chip) : (s.setChip v).bus = s.bus := rfl
@[simp] theorem State.setChip_handles (v : Chip) : (s.setChip v).handles = s.handles := rfl
@[simp] theorem State.setChip_seq (v : Chip) : (s.setChip v).seq = s.seq := rfl
@[simp] theorem State.setChip_lat (v : Chip) : (s.setChip v).lat = s.lat := rfl
@[simp] theorem State.setChip_requests (v : Chip) : (s.setChip v).requests = s.requests := rfl
@[simp] theorem State.setChip_result (v : Chip) : (s.setChip v).result = s.result := rfl
@[simp] theorem State.setChip_dest (v : Chip) : (s.setChip v).dest = s.dest := rfl
@[simp] theorem State.setChip_out (v : Chip) : (s.setChip v).out = s.out := rfl
@[simp] theorem State.setChip_clock (v : Chip) : (s.setChip v).clock = s.clock := rfl
@[simp] theorem State.setChip_chip (v : Chip) : (s.setChip v).chip = v := rfl

end Sys2Proof.Machine
end

