-- ==== Sys2Proof/Laws/Chip.lean ====
section
/-! SUPPORT. The chip's steps change the chip and the free-value counter only (R275), and keep the memories canonical. -/

namespace Sys2Proof.Machine

/-- Only the chip and the free-value counter differ. -/
def ChipOnly (s t : State) : Prop := ∃ c k, t = (s.setChip c).setFree k

theorem ChipOnly.refl (s : State) : ChipOnly s s := ⟨s.chip, s.free, rfl⟩

theorem ChipOnly.trans {s t u : State} (h : ChipOnly s t) (g : ChipOnly t u) : ChipOnly s u := by
  obtain ⟨c, k, rfl⟩ := h
  obtain ⟨d, l, rfl⟩ := g
  exact ⟨d, l, rfl⟩

theorem chipOnly_setChip (c : Chip) (s : State) : ChipOnly s (s.setChip c) := ⟨c, s.free, rfl⟩

theorem chipOnly_tick (s : State) : ChipOnly s (tick s) := ⟨s.chip, s.free + 1, rfl⟩

theorem chipOnly_modSock (n : SockIdx) (f : Socket → Socket) (s : State) : ChipOnly s (modSock n f s) :=
  chipOnly_setChip _ s

theorem chipOnly_modMem (f : List Host.Cell → List Host.Cell) (s : State) : ChipOnly s (modMem f s) :=
  chipOnly_setChip _ s

theorem chipOnly_havoc (s : State) : ChipOnly s (havocChip s) := (chipOnly_setChip _ s).trans (chipOnly_tick _)

theorem chipOnly_actCommand (n : SockIdx) (code : Byte) (s : State) : ChipOnly s (actCommand n code s) := by
  unfold actCommand
  repeat' split
  case isFalse => exact chipOnly_havoc s
  all_goals first
    | exact ⟨_, s.free + 1, rfl⟩
    | (unfold actClose; exact chipOnly_modSock ..)

theorem chipOnly_chipStep (s : State) (e : ChipEvent) : ChipOnly s (chipStep s e) := by
  cases e <;> simp only [chipStep]
  case accept n =>
    unfold acceptCommand
    split
    · exact .refl s
    · exact (chipOnly_modSock ..).trans (chipOnly_modSock ..)
  case sentUpTo n v =>
    unfold sendUpTo
    split
    exacts [(chipOnly_modSock ..).trans (chipOnly_tick _), .refl s]
  case perform n =>
    unfold performCommand
    split
    · exact .refl s
    · exact (chipOnly_modSock ..).trans (chipOnly_actCommand ..)
  case crShows n v => unfold showCommand; split; exacts [.refl s, chipOnly_modSock ..]
  case arrive n data => unfold arrive; exact (chipOnly_modMem ..).trans (chipOnly_modSock ..)
  case mrShows v => split; exacts [chipOnly_setChip _ s, .refl s]
  case resetDone => split; exacts [(chipOnly_setChip _ s).trans (chipOnly_tick _), .refl s]
  all_goals exact chipOnly_modSock ..

theorem chipOnly_foldl (l : List ChipEvent) (s : State) : ChipOnly s (l.foldl chipStep s) := by
  induction l generalizing s with
  | nil => exact .refl s
  | cons e rest ih => exact (chipOnly_chipStep s e).trans (ih _)

theorem chipOnly_writeMr (v : Byte) (s : State) : ChipOnly s (writeMr v s) := by
  unfold writeMr
  repeat' split
  all_goals first
    | exact chipOnly_setChip _ s
    | exact (chipOnly_setChip _ s).trans (chipOnly_tick _)

theorem chipOnly_storeByte (t : Target) (v : Byte) (s : State) : ChipOnly s (storeByte t v s) := by
  cases t with
  | common r i =>
    cases r <;> simp only [storeByte, storeCommon]
    · exact chipOnly_writeMr v s
    all_goals first
      | exact chipOnly_setChip _ s
      | exact (chipOnly_setChip _ s).trans (chipOnly_tick _)
  | sock n r i =>
    cases r <;> simp only [storeByte, storeSock]
    all_goals first
      | exact chipOnly_modSock ..
      | exact (chipOnly_modSock ..).trans (chipOnly_tick _)
  | cell key => exact chipOnly_modMem ..
  | unnamed => exact .refl s

theorem chipOnly_storeBytes (blk : Selector) (off : Half) (data : List Byte) (s : State) :
    ChipOnly s (storeBytes blk off data s) := by
  induction data generalizing off s with
  | nil => exact .refl s
  | cons v rest ih => exact (chipOnly_storeByte ..).trans (ih ..)

theorem chipOnly_storeFrame (blk : Selector) (off : Half) (data : List Byte) (s : State) :
    ChipOnly s (storeFrame blk off data s) := by
  unfold storeFrame
  split
  · exact (chipOnly_storeBytes ..).trans (chipOnly_havoc _)
  · exact chipOnly_storeBytes ..

theorem chipOnly_scrambleByte (t : Target) (s : State) : ChipOnly s (scrambleByte t s) := by
  unfold scrambleByte
  cases t with
  | common r i => cases r <;> exact (chipOnly_setChip _ s).trans (chipOnly_tick _)
  | sock n r i => exact (chipOnly_modSock ..).trans (chipOnly_tick _)
  | cell key => exact (chipOnly_modMem ..).trans (chipOnly_tick _)
  | unnamed => exact .refl s

theorem chipOnly_scrambleBytes (blk : Selector) (off : Half) (n : Nat) (s : State) :
    ChipOnly s (scrambleBytes blk off n s) := by
  induction n generalizing off s with
  | zero => exact .refl s
  | succ n ih => exact (chipOnly_scrambleByte ..).trans (ih ..)

theorem chipOnly_scrambleFrame (blk : Selector) (off : Half) (n : Nat) (s : State) :
    ChipOnly s (scrambleFrame blk off n s) := by
  unfold scrambleFrame
  split
  · exact (chipOnly_scrambleBytes ..).trans (chipOnly_havoc _)
  · exact chipOnly_scrambleBytes ..

/-- The memories are in canonical form. -/
abbrev memOk (s : State) : Prop := Memory.wf s.chip.mem = true

theorem memOk_modSock {n : SockIdx} {f : Socket → Socket} {s : State} (h : memOk s) : memOk (modSock n f s) := h

theorem memOk_havoc (s : State) : memOk (havocChip s) := Memory.ofCells_wf _

theorem memOk_actCommand {n : SockIdx} {code : Byte} {s : State} (h : memOk s) : memOk (actCommand n code s) := by
  unfold actCommand
  repeat' split
  case isFalse => exact memOk_havoc s
  all_goals exact h

theorem storeArrived_wf {c : Cfg} {n : SockIdx} {size : Nat} {base q : Half} {data : List Byte} {m : List Host.Cell}
    (h : Memory.wf m = true) : Memory.wf (storeArrived c n size base q data m) = true := by
  induction data generalizing q m with
  | nil => exact h
  | cons v rest ih => exact ih (Memory.write_wf h)

theorem memOk_chipStep {s : State} (e : ChipEvent) (h : memOk s) : memOk (chipStep s e) := by
  cases e <;> simp only [chipStep]
  case accept n => unfold acceptCommand; split <;> exact h
  case perform n =>
    unfold performCommand
    split
    · exact h
    · exact memOk_actCommand (memOk_modSock h)
  case crShows n v => unfold showCommand; split <;> exact h
  case arrive n data => exact storeArrived_wf h
  case sentUpTo n v => unfold sendUpTo; split <;> exact h
  case mrShows v => split <;> exact h
  case resetDone => split; exacts [Memory.ofCells_wf _, h]
  all_goals exact h

theorem memOk_foldl {l : List ChipEvent} {s : State} (h : memOk s) : memOk (l.foldl chipStep s) := by
  induction l generalizing s with
  | nil => exact h
  | cons e rest ih => exact ih (memOk_chipStep e h)

theorem memOk_storeByte {t : Target} {v : Byte} {s : State} (h : memOk s) : memOk (storeByte t v s) := by
  cases t with
  | common r i =>
    cases r <;> simp only [storeByte, storeCommon, writeMr]
    · repeat' split
      all_goals exact h
    all_goals exact h
  | sock n r i => cases r <;> exact h
  | cell key => exact Memory.write_wf h
  | unnamed => exact h

theorem memOk_storeBytes {blk : Selector} {off : Half} {data : List Byte} {s : State} (h : memOk s) :
    memOk (storeBytes blk off data s) := by
  induction data generalizing off s with
  | nil => exact h
  | cons v rest ih => exact ih (memOk_storeByte h)

theorem memOk_storeFrame {blk : Selector} {off : Half} {data : List Byte} {s : State} (h : memOk s) :
    memOk (storeFrame blk off data s) := by
  unfold storeFrame
  split
  · exact memOk_havoc _
  · exact memOk_storeBytes h

theorem memOk_scrambleByte {t : Target} {s : State} (h : memOk s) : memOk (scrambleByte t s) := by
  unfold scrambleByte
  cases t with
  | common r i => cases r <;> exact h
  | sock n r i => exact h
  | cell key => exact Memory.write_wf h
  | unnamed => exact h

theorem memOk_scrambleBytes {blk : Selector} {off : Half} {n : Nat} {s : State} (h : memOk s) :
    memOk (scrambleBytes blk off n s) := by
  induction n generalizing off s with
  | zero => exact h
  | succ n ih => exact ih (memOk_scrambleByte h)

theorem memOk_scrambleFrame {blk : Selector} {off : Half} {n : Nat} {s : State} (h : memOk s) :
    memOk (scrambleFrame blk off n s) := by
  unfold scrambleFrame
  split
  · exact memOk_havoc _
  · exact memOk_scrambleBytes h

end Sys2Proof.Machine
end

