-- ==== Sys2Proof/Laws/Kept.lean ====
section
/-! SUPPORT. What every sequence of the sequencer keeps, whatever the environment does: the parameters, handles, pending
requests, bus settings and the host's last result; CS is as before or high; the clock does not go back; the memories stay
canonical; the trace only grows, by actions that meet a given condition. -/

namespace Sys2Proof.Machine

/-- What a sequence of steps keeps; `P` holds of every action it adds to the trace. -/
structure Kept (P : BusAct → Prop) (s t : State) : Prop where
  cfg : t.cfg = s.cfg
  handles : t.handles = s.handles
  requests : t.requests = s.requests
  result : t.result = s.result
  bus : t.bus = s.bus
  cs : t.cs = s.cs ∨ t.cs = .high
  clock : s.clock ≤ t.clock
  mem : memOk s → memOk t
  out : ∃ l, t.out = l ++ s.out ∧ ∀ a ∈ l, P a

variable {P : BusAct → Prop} {s t u : State}

theorem Kept.refl (s : State) : Kept P s s :=
  ⟨rfl, rfl, rfl, rfl, rfl, .inl rfl, Nat.le_refl _, id, [], rfl, by simp⟩

theorem Kept.trans (h : Kept P s t) (g : Kept P t u) : Kept P s u where
  cfg := g.cfg.trans h.cfg
  handles := g.handles.trans h.handles
  requests := g.requests.trans h.requests
  result := g.result.trans h.result
  bus := g.bus.trans h.bus
  cs := by
    rcases g.cs with g | g
    · rcases h.cs with h | h
      · exact .inl (g.trans h)
      · exact .inr (g.trans h)
    · exact .inr g
  clock := h.clock.trans g.clock
  mem := g.mem ∘ h.mem
  out := by
    obtain ⟨l, hl, hp⟩ := h.out
    obtain ⟨m, hm, hq⟩ := g.out
    refine ⟨m ++ l, by rw [hm, hl, List.append_assoc], ?_⟩
    intro a ha
    rcases List.mem_append.mp ha with ha | ha
    exacts [hq a ha, hp a ha]

theorem Kept.mono {Q : BusAct → Prop} (h : Kept P s t) (pq : ∀ a, P a → Q a) : Kept Q s t :=
  { h with out := by obtain ⟨l, hl, hp⟩ := h.out; exact ⟨l, hl, fun a ha => pq a (hp a ha)⟩ }

theorem kept_of_chipOnly (h : ChipOnly s t) (hm : memOk s → memOk t) : Kept P s t := by
  obtain ⟨c, k, rfl⟩ := h
  exact ⟨rfl, rfl, rfl, rfl, rfl, .inl rfl, Nat.le_refl _, hm, [], rfl, by simp⟩

theorem kept_setEnv (e : Env) (s : State) : Kept P s (s.setEnv e) :=
  ⟨rfl, rfl, rfl, rfl, rfl, .inl rfl, Nat.le_refl _, id, [], rfl, by simp⟩

theorem kept_setLat (l : Latches) (s : State) : Kept P s (s.setLat l) :=
  ⟨rfl, rfl, rfl, rfl, rfl, .inl rfl, Nat.le_refl _, id, [], rfl, by simp⟩

theorem kept_setSeq (q : Sequencer) (s : State) : Kept P s (s.setSeq q) :=
  ⟨rfl, rfl, rfl, rfl, rfl, .inl rfl, Nat.le_refl _, id, [], rfl, by simp⟩

theorem kept_setDest (d : List Byte) (s : State) : Kept P s (s.setDest d) :=
  ⟨rfl, rfl, rfl, rfl, rfl, .inl rfl, Nat.le_refl _, id, [], rfl, by simp⟩

theorem kept_tick (s : State) : Kept P s (tick s) :=
  ⟨rfl, rfl, rfl, rfl, rfl, .inl rfl, Nat.le_refl _, id, [], rfl, by simp⟩

theorem kept_emit {a : BusAct} (h : P a) (s : State) : Kept P s (emit a s) :=
  ⟨rfl, rfl, rfl, rfl, rfl, .inl rfl, Nat.le_refl _, id, [a], rfl, by simpa using h⟩

theorem kept_chipTurn (s : State) : Kept P s (chipTurn s) := by
  unfold chipTurn
  split
  · exact .refl s
  · exact (kept_setEnv _ s).trans (kept_of_chipOnly (chipOnly_foldl _ _) memOk_foldl)

theorem kept_useTransfer (s : State) : Kept P s (useTransfer s) := by
  unfold useTransfer
  split
  exacts [.refl s, kept_setEnv _ s]

theorem kept_useMissed (s : State) : Kept P s (useMissed s) := by
  unfold useMissed
  split
  exacts [.refl s, kept_setEnv _ s]

theorem kept_advance (ms : Nat) (s : State) : Kept P s (advance ms s) := by
  unfold advance
  split
  · exact ⟨rfl, rfl, rfl, rfl, rfl, .inl rfl, Nat.le_add_right _ _, id, [], rfl, by simp⟩
  · exact ⟨rfl, rfl, rfl, rfl, rfl, .inl rfl, by simp; omega, id, [], rfl, by simp⟩

theorem kept_storeFrame (blk : Selector) (off : Half) (d : List Byte) (s : State) : Kept P s (storeFrame blk off d s) :=
  kept_of_chipOnly (chipOnly_storeFrame ..) memOk_storeFrame

theorem kept_scrambleFrame (blk : Selector) (off : Half) (n : Nat) (s : State) : Kept P s (scrambleFrame blk off n s) :=
  kept_of_chipOnly (chipOnly_scrambleFrame ..) memOk_scrambleFrame

/-- The actions a frame with this header may add meet `P`. -/
structure FrameOk (P : BusAct → Prop) (hdr : Header) : Prop where
  frame : ∀ d, P (.frame hdr d)
  headerFailed : P (.headerFailed hdr)
  dataFailed : P (.dataFailed hdr)

/-- The state a sequence leaves, whether it ends with a value or an error. -/
def Res.state {α : Type} : Res α → State
  | .ok _ s => s
  | .err _ s => s

@[simp] theorem Res.state_ok {α : Type} (a : α) (s : State) : (Res.ok a s).state = s := rfl
@[simp] theorem Res.state_err {α : Type} (e : Err) (s : State) : (Res.err e s : Res α).state = s := rfl
@[simp] theorem Res.andThen_ok {α β : Type} (a : α) (s : State) (f : α → State → Res β) :
    (Res.ok a s).andThen f = f a s := rfl
@[simp] theorem Res.andThen_err {α β : Type} (e : Err) (s : State) (f : α → State → Res β) :
    (Res.err e s : Res α).andThen f = .err e s := rfl
@[simp] theorem Res.mapErr_ok {α : Type} (f : Err → Err) (a : α) (s : State) : (Res.ok a s).mapErr f = .ok a s := rfl
@[simp] theorem Res.mapErr_err {α : Type} (f : Err → Err) (e : Err) (s : State) :
    (Res.err e s : Res α).mapErr f = .err (f e) s := rfl
@[simp] theorem Res.state_mapErr {α : Type} (f : Err → Err) (r : Res α) : (r.mapErr f).state = r.state := by
  cases r <;> rfl

theorem Kept.andThen {α β : Type} {r : Res α} {f : α → State → Res β} (h : Kept P s r.state)
    (g : ∀ a t, r = .ok a t → Kept P t (f a t).state) : Kept P s (r.andThen f).state := by
  cases r with
  | ok a t => exact h.trans (g a t rfl)
  | err e t => exact h

/-- The state when CS rises at the end of a frame, from what it was before the frame. -/
theorem kept_frame {hdr : Header} {a : BusAct} (ha : P a)
    (h : Kept P ((setHdr hdr ((chipTurn s).setCs .low)).setCs .high) (t.setCs .high)) :
    Kept P s (endFrame a t) := by
  have h1 : Kept P s ((setHdr hdr ((chipTurn s).setCs .low)).setCs .high) := by
    have := kept_chipTurn (P := P) s
    exact { this with cs := .inr rfl }
  exact (h1.trans h).trans (kept_emit ha _)

theorem Kept.withCs (h : Kept P s t) (c : CsLevel) : Kept P (s.setCs c) (t.setCs c) :=
  { h with cs := .inl rfl }

theorem kept_memRead {blk : Selector} {off : Half} (hP : FrameOk P (header blk off false)) (n : Nat) (s : State) :
    Kept P s (memRead blk off n s).state := by
  unfold memRead beginFrame
  simp only
  split
  · exact kept_frame hP.headerFailed (((kept_useMissed _).trans (kept_useTransfer _)).withCs _)
  · split
    · exact kept_frame hP.dataFailed
        ((((kept_useMissed _).trans (kept_useTransfer _)).trans (kept_useTransfer _)).withCs _)
    · exact kept_frame (hP.frame _)
        (((((kept_useMissed _).trans (kept_useTransfer _)).trans (kept_useTransfer _)).trans (kept_tick _)).withCs _)

theorem kept_spoil (missed : Bool) (blk : Selector) (off : Half) (n : Nat) (s : State) :
    Kept P s (if missed then s else scrambleFrame blk off n s) := by
  split
  exacts [.refl s, kept_scrambleFrame ..]

theorem kept_deliver (missed : Bool) (blk : Selector) (off : Half) (d : List Byte) (s : State) :
    Kept P s (if missed then s else storeFrame blk off d s) := by
  split
  exacts [.refl s, kept_storeFrame ..]

theorem kept_memWrite {blk : Selector} {off : Half} (hP : FrameOk P (header blk off true)) (d : List Byte) (s : State) :
    Kept P s (memWrite blk off d s).state := by
  unfold memWrite beginFrame
  simp only
  split
  · exact kept_frame hP.headerFailed
      ((((kept_useMissed _).trans (kept_useTransfer _)).trans (kept_spoil ..)).withCs _)
  · split
    · exact kept_frame hP.dataFailed
        (((((kept_useMissed _).trans (kept_useTransfer _)).trans (kept_useTransfer _)).trans (kept_spoil ..)).withCs _)
    · exact kept_frame (hP.frame _)
        (((((kept_useMissed _).trans (kept_useTransfer _)).trans (kept_useTransfer _)).trans (kept_deliver ..)).withCs _)

/-- Every frame to one of the selectors that `A` admits may be added. -/
structure BlocksOk (P : BusAct → Prop) (A : Selector → Prop) : Prop where
  ok : ∀ blk, A blk → ∀ off w, FrameOk P (header blk off w)
  sleep : ∀ ms, P (.sleep ms)
  now : ∀ t, P (.now t)
  rand : ∀ v, P (.rand v)
  log : P .log

/-! From here on each lemma carries a fact about the start of a sequence over one more operation. -/

variable {A : Selector → Prop} {α β : Type}

theorem Kept.goto (h : Kept P s t) (op : SeqOp) (k : Nat) : Kept P s (goto op k t) := h.trans (kept_setSeq _ t)
theorem Kept.gotoSub (h : Kept P s t) (op : SeqOp) (k j : Nat) : Kept P s (gotoSub op k j t) :=
  h.trans (kept_setSeq _ t)
theorem Kept.setDest (h : Kept P s t) (d : List Byte) : Kept P s (t.setDest d) := h.trans (kept_setDest _ t)
theorem Kept.setHdr (h : Kept P s t) (v : Header) : Kept P s (setHdr v t) := h.trans (kept_setLat _ t)
theorem Kept.setSt (h : Kept P s t) (v : Byte) : Kept P s (setSt v t) := h.trans (kept_setLat _ t)
theorem Kept.setCmd (h : Kept P s t) (v : Byte) : Kept P s (setCmd v t) := h.trans (kept_setLat _ t)
theorem Kept.setCrv (h : Kept P s t) (v : Byte) : Kept P s (setCrv v t) := h.trans (kept_setLat _ t)
theorem Kept.setPoll (h : Kept P s t) (v : Nat) : Kept P s (setPoll v t) := h.trans (kept_setLat _ t)
theorem Kept.setT0 (h : Kept P s t) (v : Nat) : Kept P s (setT0 v t) := h.trans (kept_setLat _ t)
theorem Kept.setSz (h : Kept P s t) (v : Half) : Kept P s (setSz v t) := h.trans (kept_setLat _ t)
theorem Kept.setPtr (h : Kept P s t) (v : Half) : Kept P s (setPtr v t) := h.trans (kept_setLat _ t)
theorem Kept.setCnt (h : Kept P s t) (v : Nat) : Kept P s (setCnt v t) := h.trans (kept_setLat _ t)
theorem Kept.setAddr (h : Kept P s t) (v : Half) : Kept P s (setAddr v t) := h.trans (kept_setLat _ t)
theorem Kept.setPort (h : Kept P s t) (v : Half) : Kept P s (setPort v t) := h.trans (kept_setLat _ t)
theorem Kept.setIrv (h : Kept P s t) (v : Byte) : Kept P s (setIrv v t) := h.trans (kept_setLat _ t)
theorem Kept.setMrv (h : Kept P s t) (v : Byte) : Kept P s (setMrv v t) := h.trans (kept_setLat _ t)

theorem Kept.seq {r : Res α} {f : α → State → Res β} (h : Kept P s r.state)
    (g : ∀ a t, Kept P s t → Kept P s (f a t).state) : Kept P s (r.andThen f).state := by
  cases r with
  | ok a t => exact g a t h
  | err e t => exact h

theorem Kept.ite {c : Prop} [Decidable c] {a b : Res α} (ha : Kept P s a.state) (hb : Kept P s b.state) :
    Kept P s (if c then a else b).state := by
  split
  exacts [ha, hb]

theorem Kept.memRead (h : Kept P s t) (hP : BlocksOk P A) {blk : Selector} (hA : A blk) (off : Half) (n : Nat) :
    Kept P s (memRead blk off n t).state := h.trans (kept_memRead (hP.ok _ hA _ _) n t)

theorem Kept.memWrite (h : Kept P s t) (hP : BlocksOk P A) {blk : Selector} (hA : A blk) (off : Half) (d : List Byte) :
    Kept P s (memWrite blk off d t).state := h.trans (kept_memWrite (hP.ok _ hA _ _) d t)

theorem Kept.readByte (h : Kept P s t) (hP : BlocksOk P A) {blk : Selector} (hA : A blk) (off : Half) :
    Kept P s (readByte blk off t).state := (h.memRead hP hA off 1).seq fun _ _ h => h

theorem Kept.read16 (h : Kept P s t) (hP : BlocksOk P A) {blk : Selector} (hA : A blk) (off : Half) :
    Kept P s (read16 blk off t).state := (h.memRead hP hA off 2).seq fun _ _ h => h

theorem Kept.sleep (h : Kept P s t) (hP : BlocksOk P A) (ms : Nat) : Kept P s (sleep ms t) :=
  h.trans ((kept_advance ms t).trans (kept_emit (hP.sleep _) _))

theorem Kept.setSeq (h : Kept P s t) (q : Sequencer) : Kept P s (t.setSeq q) := h.trans (kept_setSeq q t)

theorem Kept.nextPoll (h : Kept P s t) (hP : BlocksOk P A) (w : WaitSteps) (interval : Nat) :
    Kept P s (nextPoll w interval t) :=
  (((h.setSeq _).sleep hP interval).setSeq _).trans (kept_setLat _ _)

theorem Kept.pollLoop (hP : BlocksOk P A) {w : WaitSteps} {budget interval : Nat} {timeout : State → Err}
    {body : State → Res Bool} (hb : ∀ t, Kept P s t → Kept P s (body t).state) (fuel : Nat) (h : Kept P s t) :
    Kept P s (pollLoop w budget interval timeout body fuel t).state := by
  induction fuel generalizing t with
  | zero => exact h
  | succ fuel ih =>
    exact (hb t h).seq fun ready u hu =>
      .ite hu (.ite (hu.setSeq _) (ih ((hu.setSeq _).nextPoll hP w interval)))

theorem Kept.readClock (h : Kept P s t) (hP : BlocksOk P A) : Kept P s (readClock t) :=
  h.trans ((kept_advance 0 t).trans (kept_emit (hP.now _) _))

theorem Kept.useRand (h : Kept P s t) (hP : BlocksOk P A) : Kept P s (useRand t) := by
  refine h.trans ?_
  unfold Machine.useRand
  simp only
  split
  · exact (kept_tick t).trans (kept_emit (hP.rand _) _)
  · exact (kept_setEnv _ t).trans (kept_emit (hP.rand _) _)

section socket

variable (hP : BlocksOk P A) {n : SockIdx}
include hP

theorem Kept.readStatus (h : Kept P s t) (hA : A (regBlk n)) : Kept P s (readStatus n t).state :=
  (h.readByte hP hA _).seq fun _ _ h => h.setSt _

theorem Kept.execPoll (h : Kept P s t) (hA : A (regBlk n)) : Kept P s (execPoll n t).state :=
  ((h.goto _ _).readByte hP hA _).seq fun _ _ h => 
    .ite ((h.setCrv _).goto _ _) (.ite (((h.setCrv _).goto _ _).goto _ _) (((h.setCrv _).goto _ _).goto _ _))

theorem Kept.execProtocol (h : Kept P s t) (hA : A (regBlk n)) (c : Byte) : Kept P s (execProtocol n c t).state :=
  (((h.goto _ _).setCmd c).memWrite hP hA _ _).seq fun _ _ h =>
    ((h.goto _ _).setPoll 1).pollLoop hP (fun _ h => h.execPoll hP hA) _

theorem Kept.choosePort (h : Kept P s t) (port : Half) : Kept P s (choosePort port t) := by
  unfold Machine.choosePort
  split
  exacts [(h.useRand hP).setPort _, h.setPort _]

theorem Kept.forceClose (h : Kept P s t) (hA : A (regBlk n)) : Kept P s (forceClose n t).state :=
  .ite (Kept.execProtocol hP (h.trans (kept_emit hP.log _)) hA _) h

theorem Kept.openSocket {hd : Handle} (h : Kept P s t) (hA : A (regBlk hd.n)) (p : List Byte) (port : Half) :
    Kept P s (openSocket hd p port t).state := by
  unfold Machine.openSocket
  simp only
  split
  · exact h.goto _ _
  exact (((h.goto _ _).goto _ _).memWrite hP hA _ _).seq fun _ _ h =>
    ((h.goto _ _).memWrite hP hA _ _).seq fun _ _ h =>
    (Kept.readStatus hP (h.goto _ _) hA).seq fun _ _ h =>
    (Kept.forceClose hP (h.goto _ _) hA).seq fun _ _ h =>
    ((h.goto _ _).memWrite hP hA _ _).seq fun _ _ h =>
    ((h.goto _ _).memWrite hP hA _ _).seq fun _ _ h =>
    (((Kept.choosePort hP (h.goto _ _) port).goto _ _).memWrite hP hA _ _).seq fun _ _ h =>
    (Kept.execProtocol hP (h.goto _ _) hA _).seq fun _ _ h => h.goto _ _

theorem Kept.listen (h : Kept P s t) (hA : A (regBlk n)) : Kept P s (listen n t).state :=
  (Kept.readStatus hP (h.goto _ _) hA).seq fun _ _ h =>
    .ite (h.goto _ _) ((Kept.execProtocol hP ((h.goto _ _).goto _ _) hA _).seq fun _ _ h => h.goto _ _)

theorem Kept.connectPoll (h : Kept P s t) (hA : A (regBlk n)) : Kept P s (connectPoll n t).state :=
  (Kept.readStatus hP (h.goto _ _) hA).seq fun _ _ h =>
    .ite (h.goto _ _) <| .ite ((h.goto _ _).goto _ _) <|
      .ite ((((h.goto _ _).goto _ _).goto _ _).readClock hP) ((((h.goto _ _).goto _ _).goto _ _).readClock hP)

theorem Kept.connectLoop (hA : A (regBlk n)) (fuel : Nat) (h : Kept P s t) :
    Kept P s (connectLoop n fuel t).state := by
  induction fuel generalizing t with
  | zero => exact h
  | succ fuel ih => exact (Kept.connectPoll hP h hA).seq fun _ _ h => .ite h (ih ((h.goto _ _).sleep hP _))

theorem Kept.connect (h : Kept P s t) (hA : A (regBlk n)) (ip : Quad) (port : Half) :
    Kept P s (connect n ip port t).state :=
  (Kept.readStatus hP (h.goto _ _) hA).seq fun _ _ h =>
    .ite (h.goto _ _) <|
    (((h.goto _ _).goto _ _).memWrite hP hA _ _).seq fun _ _ h =>
    ((h.goto _ _).memWrite hP hA _ _).seq fun _ _ h =>
    (Kept.execProtocol hP (h.goto _ _) hA _).seq fun _ _ h =>
    Kept.connectLoop hP hA _ (((h.goto _ _).readClock hP).setT0 _)

theorem Kept.acknowledge (h : Kept P s t) (hA : A (regBlk n)) : Kept P s (acknowledge n t).state := by
  have h := Kept.execProtocol hP (h.goto .streamRead 6) hA cmdRecv
  unfold Machine.acknowledge
  split <;> rename_i heq <;> rw [heq] at h
  exacts [h.goto _ _, h]

theorem Kept.nothingReceived (h : Kept P s t) (hA : A (regBlk n)) : Kept P s (nothingReceived n t).state :=
  (Kept.readStatus hP h hA).seq fun _ _ h => .ite h h

theorem Kept.takeReceived {hd : Handle} (h : Kept P s t) (hA : A (regBlk hd.n)) (hR : A (rxBlk hd.n)) (len : Nat) :
    Kept P s (takeReceived hd len t).state :=
  ((((h.goto _ _).setCnt _).goto _ _).read16 hP hA _).seq fun _ _ h =>
    (((h.setPtr _).setAddr _).memRead hP hR _ _).seq fun _ _ h =>
    (((h.goto _ _).setDest _).memWrite hP hA _ _).seq fun _ _ h => Kept.acknowledge hP h hA

theorem Kept.streamRead {hd : Handle} (h : Kept P s t) (hA : A (regBlk hd.n)) (hR : A (rxBlk hd.n)) (len : Nat) :
    Kept P s (streamRead hd len t).state :=
  .ite ((h.goto _ _).setDest _) <|
    ((((h.goto _ _).setDest _).goto _ _).read16 hP hA _).seq fun _ _ h =>
    .ite (Kept.nothingReceived hP (h.setSz _) hA) (Kept.takeReceived hP (h.setSz _) hA hR _)

theorem Kept.freePoll (h : Kept P s t) (hA : A (regBlk n)) : Kept P s (freePoll n t).state :=
  ((h.gotoSub _ _ _).read16 hP hA _).seq fun _ _ h =>
    .ite ((h.setSz _).gotoSub _ _ _) <|
    (Kept.readStatus hP (((h.setSz _).gotoSub _ _ _).gotoSub _ _ _) hA).seq fun _ _ h =>
    .ite h h

theorem Kept.sendOkPoll (h : Kept P s t) (hA : A (regBlk n)) : Kept P s (sendOkPoll n t).state :=
  ((h.gotoSub _ _ _).readByte hP hA _).seq fun _ _ h =>
    .ite ((h.setIrv _).gotoSub _ _ _) <|
    (Kept.readStatus hP (((h.setIrv _).gotoSub _ _ _).gotoSub _ _ _) hA).seq fun _ _ h =>
    .ite h h

theorem Kept.placePayload {hd : Handle} (h : Kept P s t) (hA : A (regBlk hd.n)) (hT : A (txBlk hd.n)) (d : List Byte) :
    Kept P s (placePayload hd d t).state :=
  ((h.goto _ _).read16 hP hA _).seq fun _ _ h =>
    (((h.setPtr _).setAddr _).memWrite hP hT _ _).seq fun _ _ h => (h.goto _ _).memWrite hP hA _ _

theorem Kept.waitFree (h : Kept P s t) (hA : A (regBlk n)) : Kept P s (waitFree n t).state :=
  ((h.goto _ _).setPoll 1).pollLoop hP (fun _ h => Kept.freePoll hP h hA) _

theorem Kept.waitSendOk (h : Kept P s t) (hA : A (regBlk n)) : Kept P s (waitSendOk n t).state :=
  ((h.goto _ _).setPoll 1).pollLoop hP (fun _ h => Kept.sendOkPoll hP h hA) _

theorem Kept.streamWrite {hd : Handle} (h : Kept P s t) (hA : A (regBlk hd.n)) (hT : A (txBlk hd.n)) (d : List Byte) :
    Kept P s (streamWrite hd d t).state :=
  .ite ((h.goto _ _).setCnt _) <|
    (Kept.readStatus hP (((h.goto _ _).setCnt _).goto _ _) hA).seq fun _ _ h =>
    .ite
      ((Kept.waitFree hP h hA).seq fun _ _ h =>
        (Kept.placePayload hP h hA hT d).seq fun _ _ h =>
        (Kept.execProtocol hP (h.goto _ _) hA _).seq fun _ _ h =>
        (Kept.waitSendOk hP h hA).seq fun _ _ h => h.goto _ _)
      h

end socket

section control

variable (hP : BlocksOk P A) (hA : A 0#5)
include hP hA

theorem Kept.readMr (h : Kept P s t) : Kept P s (readMr t).state := (h.readByte hP hA _).seq fun _ _ h => h.setMrv _

theorem Kept.resetPoll (h : Kept P s t) : Kept P s (resetPoll t).state :=
  (Kept.readMr hP hA (h.goto _ _)).seq fun _ _ h => h.goto _ _

theorem Kept.softReset (h : Kept P s t) : Kept P s (softReset t).state :=
  ((h.goto _ _).memWrite hP hA _ _).seq fun _ _ h =>
    ((h.goto _ _).setPoll 1).pollLoop hP (fun _ h => Kept.resetPoll hP hA h) _

theorem Kept.fingerprint (h : Kept P s t) (k : Nat) (v : Byte) : Kept P s (fingerprint k v t).state :=
  ((h.goto _ _).memWrite hP hA _ _).seq fun _ _ h => (Kept.readMr hP hA h).seq fun _ _ h => .ite h h

theorem Kept.versionCheck (h : Kept P s t) : Kept P s (versionCheck t).state :=
  ((h.goto _ _).readByte hP hA _).seq fun _ _ h => .ite h h

theorem Kept.verifyIdentity (h : Kept P s t) : Kept P s (verifyIdentity t).state :=
  (Kept.fingerprint hP hA h _ _).seq fun _ _ h =>
    (Kept.fingerprint hP hA h _ _).seq fun _ _ h =>
    (Kept.fingerprint hP hA h _ _).seq fun _ _ h =>
    (Kept.versionCheck hP hA h).seq fun _ _ h => h.goto _ _

theorem kept_configure (s : State) : Kept P (applyBus s) (configure s).state := by
  unfold configure
  rw [Res.state_mapErr]
  exact (Kept.softReset hP hA ((Kept.refl _).goto _ _)).seq fun _ _ h => Kept.verifyIdentity hP hA (h.goto _ _)

end control

end Sys2Proof.Machine
end

