-- ==== Sys2Proof/Laws/Exec.lean ====
section
/-! SUPPORT. What one execution can do, whatever the chip and the bus do: a command or mode byte changes the chip only;
every other instruction is a kept sequence of steps and then the end of an operation. -/

namespace Sys2Proof.Machine

open Sys2Proof.Safety

variable {P : BusAct → Prop}

/-- An operation: a sequence that keeps what `Kept` says, then its end with the result `r`. -/
def Finishes (P : BusAct → Prop) (s t : State) : Prop := ∃ r u, t = complete r u ∧ Kept P s u

theorem finishes_finish {s : State} {r : Res OpValue} (h : Kept P s r.state) : Finishes P s (finish r) := by
  cases r with
  | ok v u => exact ⟨_, u, rfl, h⟩
  | err e u => exact ⟨_, u, rfl, h⟩

theorem finishes_stream {s : State} {r : Res (Nat × Option Err)} (h : Kept P s r.state) :
    Finishes P s (finishStream r) := by
  cases r with
  | ok v u => exact ⟨_, u, rfl, h⟩
  | err e u => exact ⟨_, u, rfl, h⟩

theorem onHandle_next {h : Half} {f : Handle → State → State} {s t : State} (e : onHandle h f s = .next t) :
    ∃ hd, handleOf s h = some hd ∧ t = f hd s := by
  unfold onHandle at e
  split at e
  · rename_i hd heq; cases e; exact ⟨hd, heq, rfl⟩
  · cases e

/-- The handle table after SOCK.NEW. -/
def newStart (r : Except Nat Handle) (s : State) : State :=
  match r with
  | .ok hd => s.setHandles (s.handles ++ [hd])
  | .error _ => s

/-- The state an operation starts its kept sequence from. -/
def opStart (i : Instr) (s : State) : State :=
  match i with
  | .ctlConfigure => applyBus s
  | .sockNew n sTx sRx => newStart (newHandle n sTx sRx) s
  | _ => s

/-- Every action an operation may add meets `P`. -/
abbrev OpOk (P : BusAct → Prop) (s : State) (i : Instr) : Prop := BlocksOk P (fun b => ownsBlock s i b = true)

theorem owns_socket {s : State} {h : Half} {hd : Handle} (hh : handleOf s h = some hd) {b : Selector}
    (hb : b = regBlk hd.n ∨ b = txBlk hd.n ∨ b = rxBlk hd.n) : ownsSocket s h b = true := by
  simp only [ownsSocket, hh]
  rcases hb with rfl | rfl | rfl <;> simp

theorem finishes_of {s t : State} {r : Res OpValue}
    (e : (Host.Outcome.next (finish r) : Host.Outcome State Fault Refusal) = .next t) (h : Kept P s r.state) :
    Finishes P s t := by
  cases e; exact finishes_finish h

/-- What a command or mode byte changes: the chip, the free-value counter, and which choices of R276 are used up. -/
def ChipSide (s t : State) : Prop := ∃ d c k, t = ((s.setEnv { s.env with defer := d }).setChip c).setFree k

theorem chipSide_of_chipOnly {s t : State} (h : ChipOnly s t) : ChipSide s t := by
  obtain ⟨c, k, rfl⟩ := h; exact ⟨s.env.defer, c, k, rfl⟩

theorem useDefer_eq (s : State) : useDefer s = s.setEnv { s.env with defer := s.env.defer.drop 1 } := by
  unfold useDefer
  split
  · rename_i h; rw [h, List.drop_nil, ← h]; rfl
  · rename_i h; rw [h]; rfl

theorem chipOnly_runCommand {n : SockIdx} {code : Byte} {act : State → State} (h : ∀ s, ChipOnly s (act s)) (s : State) :
    ChipOnly (useDefer s) (runCommand n code act s) := by
  unfold runCommand
  split
  · exact (chipOnly_modSock ..).trans (chipOnly_modSock ..)
  · exact (chipOnly_modSock ..).trans (h _)

theorem memOk_runCommand {n : SockIdx} {code : Byte} {act : State → State} (h : ∀ s, memOk s → memOk (act s)) {s : State}
    (m : memOk s) : memOk (runCommand n code act s) := by
  have u : memOk (useDefer s) := by rw [useDefer_eq]; exact m
  unfold runCommand
  split
  · exact memOk_modSock (memOk_modSock u)
  · exact h _ (memOk_modSock u)

theorem chip_of {s t u : State} (e : (Host.Outcome.next u : Host.Outcome State Fault Refusal) = .next t)
    (h : ChipOnly s u) (m : memOk s → memOk u) : ChipSide s t ∧ (memOk s → memOk t) := by
  cases e; exact ⟨chipSide_of_chipOnly h, m⟩

theorem command_of {n : SockIdx} {code : Byte} {act : State → State} {s t : State}
    (e : (Host.Outcome.next (runCommand n code act s) : Host.Outcome State Fault Refusal) = .next t)
    (h : ∀ s, ChipOnly s (act s)) (m : ∀ s, memOk s → memOk (act s)) : ChipSide s t ∧ (memOk s → memOk t) := by
  cases e
  refine ⟨?_, memOk_runCommand m⟩
  obtain ⟨c, k, g⟩ := chipOnly_runCommand (n := n) (code := code) h s
  rw [g, useDefer_eq]
  exact ⟨_, c, k, rfl⟩

theorem chipOnly_sockTick {s : State} (n : SockIdx) (f : Socket → Socket) : ChipOnly s (tick (modSock n f s)) :=
  (chipOnly_modSock ..).trans (chipOnly_tick _)

/-- One execution that answers a next state. -/
theorem exec_next {i : Instr} {s t : State} (e : exec i s = .next t) (hP : OpOk P s i) :
    (chipSide i = true ∧ ChipSide s t ∧ (memOk s → memOk t)) ∨
      (chipSide i = false ∧ Finishes P (opStart i s) t) := by
  cases i
  case sncrOpen n => exact .inl ⟨rfl, command_of e (fun _ => chipOnly_sockTick ..) (fun _ h => h)⟩
  case sncrListen n => exact .inl ⟨rfl, command_of e (fun _ => chipOnly_sockTick ..) (fun _ h => h)⟩
  case sncrConnect n => exact .inl ⟨rfl, command_of e (fun _ => chipOnly_sockTick ..) (fun _ h => h)⟩
  case sncrDiscon n => exact .inl ⟨rfl, command_of e (fun _ => chipOnly_sockTick ..) (fun _ h => h)⟩
  case sncrClose n => exact .inl ⟨rfl, command_of e (fun _ => by unfold actClose; exact chipOnly_modSock ..) (fun _ h => h)⟩
  case sncrSend n => exact .inl ⟨rfl, command_of e (fun _ => chipOnly_sockTick ..) (fun _ h => h)⟩
  case sncrRecv n => exact .inl ⟨rfl, command_of e (fun _ => chipOnly_sockTick ..) (fun _ h => h)⟩
  case snmrTcp n => exact .inl ⟨rfl, chip_of e (chipOnly_modSock ..) id⟩
  case snmrUdp n => exact .inl ⟨rfl, chip_of e (chipOnly_modSock ..) id⟩
  all_goals refine .inr ⟨rfl, ?_⟩
  case spiRead blk off len =>
    exact finishes_of e <| (((Kept.refl s).goto _ _).memRead hP (beq_self_eq_true blk) _ _).seq fun _ _ h => h
  case spiWrite blk off d =>
    exact finishes_of e <| (((Kept.refl s).goto _ _).memWrite hP (beq_self_eq_true blk) _ _).seq fun _ _ h => h
  case ctlRead blk off len =>
    exact finishes_of e <| (((Kept.refl s).goto _ _).memRead hP (beq_self_eq_true blk) _ _).seq fun _ _ h => h
  case ctlWrite blk off d =>
    exact finishes_of e <| (((Kept.refl s).goto _ _).memWrite hP (beq_self_eq_true blk) _ _).seq fun _ _ h => h
  case ctlReadByte blk off =>
    exact finishes_of e <| (((Kept.refl s).goto _ _).readByte hP (beq_self_eq_true blk) _).seq fun _ _ h => h
  case ctlRead16 blk off =>
    exact finishes_of e <| (((Kept.refl s).goto _ _).read16 hP (beq_self_eq_true blk) _).seq fun _ _ h => h
  case ctlWriteByte blk off v =>
    exact finishes_of e <| (((Kept.refl s).goto _ _).memWrite hP (beq_self_eq_true blk) _ _).seq fun _ _ h => h
  case ctlWrite16 blk off v =>
    exact finishes_of e <| (((Kept.refl s).goto _ _).memWrite hP (beq_self_eq_true blk) _ _).seq fun _ _ h => h
  case ctlConfigure =>
    exact finishes_of e <| (kept_configure hP rfl s).seq fun _ _ h => h.goto _ _
  case ctlSoftReset =>
    exact finishes_of e <| (Kept.softReset hP rfl (Kept.refl s)).seq fun _ _ h => h
  case ctlVerifyId =>
    exact finishes_of e <| (Kept.verifyIdentity hP rfl (Kept.refl s)).seq fun _ _ h => h
  case sockNew n sTx sRx =>
    simp only [exec, execSockNew] at e
    simp only [opStart]
    cases hn : newHandle n sTx sRx <;> rw [hn] at e <;> cases e
    · exact ⟨_, _, rfl, (Kept.refl s).goto .newSocket (newSocketStep n)⟩
    · exact ⟨_, _, rfl, (Kept.refl (s.setHandles (s.handles ++ [_]))).goto .newSocket 3⟩
  case sockStatus h =>
    obtain ⟨hd, hh, rfl⟩ := onHandle_next (by unfold exec execSockStatus at e; exact e)
    have hA := owns_socket hh (b := regBlk hd.n) (.inl rfl)
    exact finishes_finish <| (Kept.readStatus hP ((Kept.refl s).goto _ _) hA).seq fun _ _ h => h
  case sockExec h c =>
    obtain ⟨hd, hh, rfl⟩ := onHandle_next (by unfold exec execSockExec at e; exact e)
    have hA := owns_socket hh (b := regBlk hd.n) (.inl rfl)
    exact finishes_finish <| (Kept.execProtocol hP (Kept.refl s) hA _).seq fun _ _ h => h
  case sockOpen h p port =>
    obtain ⟨hd, hh, rfl⟩ := onHandle_next (by unfold exec execSockOpen at e; exact e)
    have hA := owns_socket hh (b := regBlk hd.n) (.inl rfl)
    exact finishes_finish <| (Kept.openSocket hP (Kept.refl s) hA _ _).seq fun _ _ h => h
  case sockListen h =>
    obtain ⟨hd, hh, rfl⟩ := onHandle_next (by unfold exec execSockListen at e; exact e)
    have hA := owns_socket hh (b := regBlk hd.n) (.inl rfl)
    exact finishes_finish <| (Kept.listen hP (Kept.refl s) hA).seq fun _ _ h => h
  case sockConnect h ip port =>
    obtain ⟨hd, hh, rfl⟩ := onHandle_next (by unfold exec execSockConnect at e; exact e)
    have hA := owns_socket hh (b := regBlk hd.n) (.inl rfl)
    exact finishes_finish <| (Kept.connect hP (Kept.refl s) hA _ _).seq fun _ _ h => h
  case sockDisconnect h =>
    obtain ⟨hd, hh, rfl⟩ := onHandle_next (by unfold exec execSockDisconnect at e; exact e)
    have hA := owns_socket hh (b := regBlk hd.n) (.inl rfl)
    exact finishes_finish <| (Kept.execProtocol hP ((Kept.refl s).goto _ _) hA _).seq fun _ _ h => h
  case sockClose h =>
    obtain ⟨hd, hh, rfl⟩ := onHandle_next (by unfold exec execSockClose at e; exact e)
    have hA := owns_socket hh (b := regBlk hd.n) (.inl rfl)
    exact finishes_finish <| (Kept.execProtocol hP ((Kept.refl s).goto _ _) hA _).seq fun _ _ h => h
  case sockRead h len =>
    obtain ⟨hd, hh, rfl⟩ := onHandle_next (by unfold exec execSockRead at e; exact e)
    have hA := owns_socket hh (b := regBlk hd.n) (.inl rfl)
    have hR := owns_socket hh (b := rxBlk hd.n) (.inr (.inr rfl))
    exact finishes_stream (Kept.streamRead hP (Kept.refl s) hA hR _)
  case sockWrite h d =>
    obtain ⟨hd, hh, rfl⟩ := onHandle_next (by unfold exec execSockWrite at e; exact e)
    have hA := owns_socket hh (b := regBlk hd.n) (.inl rfl)
    have hT := owns_socket hh (b := txBlk hd.n) (.inr (.inl rfl))
    exact finishes_stream (Kept.streamWrite hP (Kept.refl s) hA hT _)
  all_goals
    first
      | exact finishes_of e <| (((Kept.refl s).goto _ _).memRead hP rfl _ _).seq fun _ _ h => h
      | exact finishes_of e <| (((Kept.refl s).goto _ _).memWrite hP rfl _ _).seq fun _ _ h => h

/-- Every action may be added. -/
theorem opOk_true (s : State) (i : Instr) : OpOk (fun _ => True) s i :=
  ⟨fun _ _ _ _ => ⟨fun _ => trivial, trivial, trivial⟩, fun _ => trivial, fun _ => trivial, fun _ => trivial, trivial⟩

theorem opStart_facts (i : Instr) (s : State) :
    (opStart i s).cfg = s.cfg ∧ s.handles <+: (opStart i s).handles ∧ (opStart i s).clock = s.clock ∧
      (opStart i s).out = s.out ∧ (opStart i s).chip = s.chip ∧ (opStart i s).requests = s.requests := by
  cases i
  case sockNew n a b =>
    simp only [opStart]
    cases newHandle n a b
    · exact ⟨rfl, List.prefix_refl _, rfl, rfl, rfl, rfl⟩
    · exact ⟨rfl, List.prefix_append _ _, rfl, rfl, rfl, rfl⟩
  all_goals exact ⟨rfl, List.prefix_refl _, rfl, rfl, rfl, rfl⟩

end Sys2Proof.Machine
end

