-- ==== Sys2Proof/Laws/BusFaults.lean ====
section
/-! SUPPORT. What a failed transfer does to a sequence, whatever the chip does (R162, R312): its frame is the last action and
the sequence ends with the transfer primitive's cause; a sequence that ends otherwise has no failed frame. -/

namespace Sys2Proof.Machine

open Sys2Proof.Safety

/-- From `s` to `t` no frame has failed; the choices of the transfer primitive were used from the head. -/
structure Via (s t : State) : Prop where
  out : ∃ l, t.out = l ++ s.out ∧ ∀ a ∈ l, busFailed a = false
  transfers : t.env.transfers <:+ s.env.transfers

variable {s t u : State} {α β : Type}

theorem Via.refl (s : State) : Via s s := ⟨⟨[], rfl, by simp⟩, List.suffix_refl _⟩

/-- A step that adds no action and uses no choice of the transfer primitive. -/
theorem Via.keep (h : Via s t) (ho : u.out = t.out) (ht : u.env.transfers = t.env.transfers) : Via s u :=
  ⟨by rw [ho]; exact h.out, by rw [ht]; exact h.transfers⟩

theorem Via.chipOnly (h : Via s t) (c : ChipOnly t u) : Via s u := by
  obtain ⟨c, k, rfl⟩ := c; exact h.keep rfl rfl

/-- One action that is no failed frame. -/
theorem Via.act (h : Via s t) {a : BusAct} (ha : busFailed a = false) (ho : u.out = a :: t.out)
    (ht : u.env.transfers = t.env.transfers) : Via s u := by
  obtain ⟨l, hl, hp⟩ := h.out
  refine ⟨⟨a :: l, by rw [ho, hl]; rfl, fun b hb => ?_⟩, by rw [ht]; exact h.transfers⟩
  rcases List.mem_cons.mp hb with rfl | hb
  exacts [ha, hp b hb]

/-- What a failed frame leaves: it is the last action, and `c` is the transfer primitive's cause. -/
structure Broken (s t : State) (c : Nat) : Prop where
  out : ∃ a l, t.out = a :: l ++ s.out ∧ busFailed a = true ∧ ∀ b ∈ l, busFailed b = false
  cause : some c ∈ s.env.transfers
  cs : t.cs = .high

/-- R312: an error carries a cause of the transfer primitive exactly when a frame has failed. -/
def Honest (s : State) : Res α → Prop
  | .ok _ t => Via s t
  | .err e t =>
    match ioCause e with
    | none => Via s t
    | some c => Broken s t c

theorem Honest.seq {r : Res α} {f : α → State → Res β} (h : Honest s r) (g : ∀ a t, Via s t → Honest s (f a t)) :
    Honest s (r.andThen f) := by
  cases r with
  | ok a t => exact g a t h
  | err e t => exact h

theorem Honest.ite {c : Prop} [Decidable c] {a b : Res α} (ha : Honest s a) (hb : Honest s b) :
    Honest s (if c then a else b) := by
  split
  exacts [ha, hb]

theorem Honest.wrapped {r : Res α} (h : Honest s r) : Honest s (r.mapErr .configurationError) := by
  cases r with
  | ok a t => exact h
  | err e t => exact h

theorem Via.chipTurn (h : Via s t) : Via s (chipTurn t) := by
  unfold Machine.chipTurn
  split
  · exact h
  · rename_i events rest _
    exact Via.chipOnly (t := t.setEnv { t.env with chip := rest }) (h.keep rfl rfl) (chipOnly_foldl _ _)

theorem Via.useMissed (h : Via s t) : Via s (useMissed t) := by
  unfold Machine.useMissed
  split
  exacts [h, h.keep rfl rfl]

theorem Via.useTransfer (h : Via s t) : Via s (useTransfer t) := by
  unfold Machine.useTransfer
  split
  · exact h
  · rename_i heq
    exact ⟨h.out, (List.suffix_cons ..).trans (heq ▸ h.transfers)⟩

theorem Via.cause (h : Via s t) {c : Nat} (hf : transferFails t = some c) : some c ∈ s.env.transfers := by
  refine h.transfers.subset ?_
  unfold transferFails at hf
  split at hf
  · cases hf
  · rename_i heq; rw [heq, hf]; exact List.mem_cons_self

theorem Via.broken (h : Via s t) {c : Nat} (hc : some c ∈ s.env.transfers) {a : BusAct} (ha : busFailed a = true) :
    Broken s (endFrame a t) c := by
  obtain ⟨l, hl, hp⟩ := h.out
  exact ⟨⟨a, l, congrArg (a :: ·) hl, ha, hp⟩, hc, rfl⟩

theorem Via.beginFrame (h : Via s t) (hdr : Header) : Via s (Machine.useMissed (Machine.beginFrame hdr t)) :=
  (h.chipTurn.keep (u := Machine.beginFrame hdr t) rfl rfl).useMissed

theorem Via.memRead (h : Via s t) (blk : Selector) (off : Half) (n : Nat) : Honest s (memRead blk off n t) := by
  have h := h.beginFrame (header blk off false)
  unfold Machine.memRead
  simp only
  split
  · rename_i hf; exact h.useTransfer.broken (h.cause hf) rfl
  · split
    · rename_i hf; exact h.useTransfer.useTransfer.broken (h.useTransfer.cause hf) rfl
    · exact h.useTransfer.useTransfer.act (a := .frame _ _) rfl rfl rfl

theorem Via.spoil (h : Via s t) (missed : Bool) (blk : Selector) (off : Half) (n : Nat) :
    Via s (if missed then t else scrambleFrame blk off n t) := by
  split
  exacts [h, h.chipOnly (chipOnly_scrambleFrame ..)]

theorem Via.deliver (h : Via s t) (missed : Bool) (blk : Selector) (off : Half) (d : List Byte) :
    Via s (if missed then t else storeFrame blk off d t) := by
  split
  exacts [h, h.chipOnly (chipOnly_storeFrame ..)]

theorem Via.memWrite (h : Via s t) (blk : Selector) (off : Half) (d : List Byte) : Honest s (memWrite blk off d t) := by
  have h := h.beginFrame (header blk off true)
  unfold Machine.memWrite
  simp only
  split
  · rename_i hf; exact (h.useTransfer.spoil ..).broken (h.cause hf) rfl
  · split
    · rename_i hf; exact (h.useTransfer.useTransfer.spoil ..).broken (h.useTransfer.cause hf) rfl
    · exact (h.useTransfer.useTransfer.deliver ..).act (a := .frame _ _) rfl rfl rfl

theorem Via.advance (h : Via s t) (ms : Nat) : Via s (advance ms t) := by
  unfold Machine.advance
  split
  exacts [h.keep rfl rfl, h.keep rfl rfl]

theorem Via.sleep (h : Via s t) (ms : Nat) : Via s (sleep ms t) := (h.advance ms).act (a := .sleep ms) rfl rfl rfl

theorem Via.readClock (h : Via s t) : Via s (readClock t) := (h.advance 0).act (a := .now _) rfl rfl rfl

theorem Via.nextPoll (h : Via s t) (w : WaitSteps) (ms : Nat) : Via s (nextPoll w ms t) :=
  ((h.keep (u := t.setSeq w.sleep) rfl rfl).sleep ms).keep rfl rfl

theorem Via.pollLoop {w : WaitSteps} {budget interval : Nat} {timeout : State → Err} {body : State → Res Bool}
    (ht : ∀ t, ioCause (timeout t) = none) (hb : ∀ t, Via s t → Honest s (body t)) (fuel : Nat) (h : Via s t) :
    Honest s (pollLoop w budget interval timeout body fuel t) := by
  induction fuel generalizing t with
  | zero => simp only [Machine.pollLoop, Honest, ht]; exact h
  | succ fuel ih =>
    refine (hb t h).seq fun ready u hu => .ite hu (.ite ?_ (ih ((hu.keep (u := u.setSeq w.test) rfl rfl).nextPoll ..)))
    simp only [Honest, ht]; exact hu.keep rfl rfl

theorem Via.useRand (h : Via s t) : Via s (useRand t) := by
  unfold Machine.useRand
  simp only
  split
  exacts [h.act (a := .rand _) rfl rfl rfl, h.act (a := .rand _) rfl rfl rfl]

theorem Via.lat (h : Via s t) (l : Latches) : Via s (t.setLat l) := h.keep rfl rfl

theorem Via.at (h : Via s t) (op : SeqOp) (k : Nat) : Via s (goto op k t) := h.keep rfl rfl

theorem Via.sub (h : Via s t) (op : SeqOp) (k j : Nat) : Via s (gotoSub op k j t) := h.keep rfl rfl

theorem Via.dest (h : Via s t) (d : List Byte) : Via s (t.setDest d) := h.keep rfl rfl

theorem Via.choosePort (h : Via s t) (port : Half) : Via s (choosePort port t) := by
  unfold Machine.choosePort
  split
  exacts [h.useRand.lat _, h.lat _]

theorem Via.readByte (h : Via s t) (blk : Selector) (off : Half) : Honest s (readByte blk off t) :=
  (h.memRead ..).seq fun _ _ h => h

theorem Via.read16 (h : Via s t) (blk : Selector) (off : Half) : Honest s (read16 blk off t) :=
  (h.memRead ..).seq fun _ _ h => h

theorem Via.readStatus (h : Via s t) (n : SockIdx) : Honest s (readStatus n t) :=
  (h.readByte ..).seq fun _ _ h => h.keep rfl rfl

theorem Via.execPoll (h : Via s t) (n : SockIdx) : Honest s (execPoll n t) :=
  ((h.at ..).readByte ..).seq fun _ _ h =>
    .ite ((h.lat _).at ..) (.ite (((h.lat _).at ..).at ..) (((h.lat _).at ..).at ..))

theorem Via.execProtocol (h : Via s t) (n : SockIdx) (c : Byte) : Honest s (execProtocol n c t) :=
  (((h.at ..).lat _).memWrite ..).seq fun _ _ h =>
    Via.pollLoop (fun _ => rfl) (fun _ h => h.execPoll n) _ ((h.at ..).lat _)

theorem Via.forceClose (h : Via s t) (n : SockIdx) : Honest s (forceClose n t) :=
  .ite ((h.act (u := logLine t) (a := .log) rfl rfl rfl).execProtocol ..) h

theorem Via.openSocket (h : Via s t) (hd : Handle) (p : List Byte) (port : Half) :
    Honest s (openSocket hd p port t) := by
  unfold Machine.openSocket
  simp only
  split
  · exact h.at ..
  exact (((h.at ..).at ..).memWrite ..).seq fun _ _ h =>
    ((h.at ..).memWrite ..).seq fun _ _ h =>
    ((h.at ..).readStatus _).seq fun _ _ h =>
    ((h.at ..).forceClose _).seq fun _ _ h =>
    ((h.at ..).memWrite ..).seq fun _ _ h =>
    ((h.at ..).memWrite ..).seq fun _ _ h =>
    ((((h.at ..).choosePort port).at ..).memWrite ..).seq fun _ _ h =>
    ((h.at ..).execProtocol ..).seq fun _ _ h => h.at ..

theorem Via.listen (h : Via s t) (n : SockIdx) : Honest s (listen n t) :=
  ((h.at ..).readStatus _).seq fun _ _ h =>
    .ite (h.at ..) ((((h.at ..).at ..).execProtocol ..).seq fun _ _ h => h.at ..)

theorem Via.connectPoll (h : Via s t) (n : SockIdx) : Honest s (connectPoll n t) :=
  ((h.at ..).readStatus _).seq fun _ _ h =>
    .ite (h.at ..) <| .ite ((h.at ..).at ..) <|
      .ite (((h.at ..).at ..).at ..).readClock (((h.at ..).at ..).at ..).readClock

theorem Via.connectLoop (n : SockIdx) (fuel : Nat) (h : Via s t) : Honest s (connectLoop n fuel t) := by
  induction fuel generalizing t with
  | zero => exact h
  | succ fuel ih => exact (h.connectPoll n).seq fun _ _ h => .ite h (ih ((h.at ..).sleep _))

theorem Via.connect (h : Via s t) (n : SockIdx) (ip : Quad) (port : Half) : Honest s (connect n ip port t) :=
  ((h.at ..).readStatus _).seq fun _ _ h =>
    .ite (h.at ..) <|
    (((h.at ..).at ..).memWrite ..).seq fun _ _ h =>
    ((h.at ..).memWrite ..).seq fun _ _ h =>
    ((h.at ..).execProtocol ..).seq fun _ _ h =>
    Via.connectLoop n _ ((h.at ..).readClock.lat _)

theorem Via.readMr (h : Via s t) : Honest s (readMr t) := (h.readByte ..).seq fun _ _ h => h.lat _

theorem Via.resetPoll (h : Via s t) : Honest s (resetPoll t) := (h.at ..).readMr.seq fun _ _ h => h.at ..

theorem Via.softReset (h : Via s t) : Honest s (softReset t) :=
  ((h.at ..).memWrite ..).seq fun _ _ h =>
    Via.pollLoop (fun _ => rfl) (fun _ h => h.resetPoll) _ ((h.at ..).lat _)

theorem Via.fingerprint (h : Via s t) (k : Nat) (v : Byte) : Honest s (fingerprint k v t) :=
  ((h.at ..).memWrite ..).seq fun _ _ h => h.readMr.seq fun _ _ h => .ite h h

theorem Via.versionCheck (h : Via s t) : Honest s (versionCheck t) :=
  ((h.at ..).readByte ..).seq fun _ _ h => .ite h h

theorem Via.verifyIdentity (h : Via s t) : Honest s (verifyIdentity t) :=
  (h.fingerprint ..).seq fun _ _ h =>
    (h.fingerprint ..).seq fun _ _ h =>
    (h.fingerprint ..).seq fun _ _ h =>
    h.versionCheck.seq fun _ _ h => h.at ..

theorem honest_configure (s : State) : Honest s (configure s) :=
  Honest.wrapped ((((Via.refl s).keep (u := applyBus s) rfl rfl).at ..).softReset.seq fun _ _ h => (h.at ..).verifyIdentity)

/-- R240, R255: a stream operation's pair, or the error that ends it with the count 0. -/
def HonestPair (s : State) : Res (Nat × Option Err) → Prop
  | .ok (_, none) t => Via s t
  | .ok (_, some e) t | .err e t =>
    match ioCause e with
    | none => Via s t
    | some c => Broken s t c

theorem HonestPair.seq {r : Res α} {f : α → State → Res (Nat × Option Err)} (h : Honest s r)
    (g : ∀ a t, Via s t → HonestPair s (f a t)) : HonestPair s (r.andThen f) := by
  cases r with
  | ok a t => exact g a t h
  | err e t => exact h

theorem HonestPair.ite {c : Prop} [Decidable c] {a b : Res (Nat × Option Err)} (ha : HonestPair s a)
    (hb : HonestPair s b) : HonestPair s (if c then a else b) := by
  split
  exacts [ha, hb]

theorem Via.acknowledge (h : Via s t) (n : SockIdx) : HonestPair s (acknowledge n t) := by
  have h := (h.at .streamRead 6).execProtocol n cmdRecv
  unfold Machine.acknowledge
  split <;> rename_i heq <;> rw [heq] at h
  exacts [Via.at h .., h]

theorem Via.nothingReceived (h : Via s t) (n : SockIdx) : HonestPair s (nothingReceived n t) :=
  .seq (h.readStatus n) fun _ _ h => .ite h h

theorem Via.takeReceived (h : Via s t) (hd : Handle) (len : Nat) : HonestPair s (takeReceived hd len t) :=
  .seq ((((h.at ..).lat _).at ..).read16 ..) fun _ _ h =>
  .seq (((h.lat _).lat _).memRead ..) fun _ _ h =>
  .seq (((h.at ..).dest _).memWrite ..) fun _ _ h => h.acknowledge _

theorem Via.streamRead (h : Via s t) (hd : Handle) (len : Nat) : HonestPair s (streamRead hd len t) :=
  .ite ((h.at ..).dest _) <|
    .seq ((((h.at ..).dest _).at ..).read16 ..) fun _ _ h =>
    .ite ((h.lat _).nothingReceived _) ((h.lat _).takeReceived ..)

theorem Via.freePoll (h : Via s t) (n : SockIdx) : Honest s (freePoll n t) :=
  ((h.sub ..).read16 ..).seq fun _ _ h =>
    .ite ((h.lat _).sub ..) <|
    ((((h.lat _).sub ..).sub ..).readStatus _).seq fun _ _ h =>
    .ite h h

theorem Via.sendOkPoll (h : Via s t) (n : SockIdx) : Honest s (sendOkPoll n t) :=
  ((h.sub ..).readByte ..).seq fun _ _ h =>
    .ite ((h.lat _).sub ..) <|
    ((((h.lat _).sub ..).sub ..).readStatus _).seq fun _ _ h =>
    .ite h h

theorem Via.placePayload (h : Via s t) (hd : Handle) (d : List Byte) : Honest s (placePayload hd d t) :=
  ((h.at ..).read16 ..).seq fun _ _ h =>
    (((h.lat _).lat _).memWrite ..).seq fun _ _ h => (h.at ..).memWrite ..

theorem Via.waitFree (h : Via s t) (n : SockIdx) : Honest s (waitFree n t) :=
  Via.pollLoop (fun _ => rfl) (fun _ h => h.freePoll n) _ ((h.at ..).lat _)

theorem Via.waitSendOk (h : Via s t) (n : SockIdx) : Honest s (waitSendOk n t) :=
  Via.pollLoop (fun _ => rfl) (fun _ h => h.sendOkPoll n) _ ((h.at ..).lat _)

theorem Via.streamWrite (h : Via s t) (hd : Handle) (d : List Byte) : HonestPair s (streamWrite hd d t) :=
  .ite ((h.at ..).lat _) <|
    .seq ((((h.at ..).lat _).at ..).readStatus _) fun _ _ h =>
    .ite
      (.seq (h.waitFree _) fun _ _ h =>
        .seq (h.placePayload ..) fun _ _ h =>
        .seq ((h.at ..).execProtocol ..) fun _ _ h =>
        .seq (h.waitSendOk _) fun _ _ h => h.at ..)
      h

/-- R312: what a result says of the frames since `s`. -/
def Faithful (s t : State) : Prop :=
  ∃ r, t.result = some r ∧
    match resultCause r with
    | none => Via s t
    | some c => Broken s t c

theorem faithful_finish {r : Res OpValue} (h : Honest s r) : Faithful s (finish r) := by
  cases r with
  | ok v u => exact ⟨_, rfl, Via.keep h rfl rfl⟩
  | err e u =>
    refine ⟨_, rfl, ?_⟩
    simp only [Honest, resultCause] at h ⊢
    split at h
    · exact h.keep rfl rfl
    · exact ⟨h.out, h.cause, h.cs⟩

theorem faithful_stream {r : Res (Nat × Option Err)} (h : HonestPair s r) : Faithful s (finishStream r) := by
  have aux : ∀ {n : Nat} {e : Err} {u : State}, HonestPair s (.err e u) → Faithful s (complete (.stream n (some e)) u) := by
    intro n e u h
    refine ⟨_, rfl, ?_⟩
    simp only [HonestPair, resultCause, Option.bind_some] at h ⊢
    split at h
    · exact h.keep rfl rfl
    · exact ⟨h.out, h.cause, h.cs⟩
  rcases r with ⟨⟨n, _ | e⟩, u⟩ | ⟨e, u⟩
  · exact ⟨_, rfl, Via.keep h rfl rfl⟩
  · exact aux h
  · exact aux h

end Sys2Proof.Machine
end

