-- ==== Sys2Proof/Laws/Operands.lean ====
section
/-! SUPPORT. What an address names: each register is found at its own offset, each buffer block is a range of cells
(R80, R81, R99); the byte helpers undo each other (R9, R85, R128). -/

namespace Sys2Proof.Machine

open Sys2Proof.Safety

@[simp] theorem be16_hi_lo (v : Half) : be16 (hi8 v) (lo8 v) = v := by
  unfold be16 hi8 lo8
  ext i hi
  simp only [BitVec.getElem_append, BitVec.getElem_extractLsb', Nat.zero_add]
  by_cases h : i < 8
  · simp [h, BitVec.getLsbD_eq_getElem hi]
  · have : 8 + (i - 8) = i := by omega
    simp [h, this, BitVec.getLsbD_eq_getElem hi]

@[simp] theorem hi8_be16 (a b : Byte) : hi8 (be16 a b) = a := by
  unfold be16 hi8
  ext i hi
  simp only [BitVec.getElem_extractLsb', BitVec.getLsbD_append]
  rw [if_neg (by omega)]
  simp [BitVec.getLsbD_eq_getElem hi]

@[simp] theorem lo8_be16 (a b : Byte) : lo8 (be16 a b) = b := by
  unfold be16 lo8
  ext i hi
  simp only [BitVec.getElem_extractLsb', BitVec.getLsbD_append, Nat.zero_add]
  simp [hi]

theorem off_add_sub (a : Half) {i : Nat} (hi : i < 65536) : (a + BitVec.ofNat 16 i - a).toNat = i := by
  have : a + BitVec.ofNat 16 i - a = BitVec.ofNat 16 i := by
    rw [BitVec.add_comm]; exact BitVec.add_sub_cancel _ _
  rw [this, BitVec.toNat_ofNat]
  exact Nat.mod_eq_of_lt hi

theorem off_of_sub {a b : Half} {w : Nat} (h : (a - b).toNat < w) : ∃ j, j < w ∧ a = b + BitVec.ofNat 16 j := by
  refine ⟨(a - b).toNat, h, ?_⟩
  rw [BitVec.ofNat_toNat, BitVec.setWidth_eq, BitVec.add_comm]
  exact (BitVec.sub_add_cancel a b).symm

theorem CommonReg.mem_all (r : CommonReg) : r ∈ CommonReg.all := by cases r <;> decide

theorem SockReg.mem_all (r : SockReg) : r ∈ SockReg.all := by cases r <;> decide

theorem CommonReg.width_le (r : CommonReg) : r.width ≤ 6 := by cases r <;> decide

theorem SockReg.width_le (r : SockReg) : r.width ≤ 4 := by cases r <;> decide

theorem findCommon_self {c : Cfg} (hc : CommonDisjoint c) {r : CommonReg} {i : Nat} (hi : i < r.width)
    {l : List CommonReg} (hr : r ∈ l) : findCommon c (commonOff c r + BitVec.ofNat 16 i) l = some (r, i) := by
  have hw := r.width_le
  induction l with
  | nil => cases hr
  | cons q rest ih =>
    by_cases hq : r = q
    · subst hq
      simp only [findCommon, off_add_sub _ (show i < 65536 by omega), hi, if_true]
    · have hr : r ∈ rest := by simpa [hq] using hr
      simp only [findCommon]
      rw [if_neg, ih hr]
      intro hlt
      obtain ⟨j, hj, e⟩ := off_of_sub hlt
      exact hc r r.mem_all q q.mem_all hq i (List.mem_range.mpr hi) j (List.mem_range.mpr hj) e

theorem findSock_self {c : Cfg} (hc : SockDisjoint c) {r : SockReg} {i : Nat} (hi : i < r.width)
    {l : List SockReg} (hr : r ∈ l) : findSock c (sockOff c r + BitVec.ofNat 16 i) l = some (r, i) := by
  have hw := r.width_le
  induction l with
  | nil => cases hr
  | cons q rest ih =>
    by_cases hq : r = q
    · subst hq
      simp only [findSock, off_add_sub _ (show i < 65536 by omega), hi, if_true]
    · have hr : r ∈ rest := by simpa [hq] using hr
      simp only [findSock]
      rw [if_neg, ih hr]
      intro hlt
      obtain ⟨j, hj, e⟩ := off_of_sub hlt
      exact hc r r.mem_all q q.mem_all hq i (List.mem_range.mpr hi) j (List.mem_range.mpr hj) e

/-- R26: byte `i` of a common register is at its offset plus `i` in block 0. -/
theorem target_common {c : Cfg} (hc : CommonDisjoint c) {r : CommonReg} {i : Nat} (hi : i < r.width) :
    target c 0#5 (commonOff c r + BitVec.ofNat 16 i) = .common r i := by
  simp [target, findCommon_self hc hi r.mem_all]

theorem regBlk_facts (n : SockIdx) : regBlk n ≠ 0#5 ∧ (regBlk n).toNat % 4 = 1 ∧ selectorSocket (regBlk n) = n := by
  revert n; decide

theorem txBlk_facts (n : SockIdx) : txBlk n ≠ 0#5 ∧ (txBlk n).toNat % 4 = 2 ∧ selectorSocket (txBlk n) = n := by
  revert n; decide

theorem rxBlk_facts (n : SockIdx) : rxBlk n ≠ 0#5 ∧ (rxBlk n).toNat % 4 = 3 ∧ selectorSocket (rxBlk n) = n := by
  revert n; decide

/-- R26, R34: byte `i` of a socket register is at its offset plus `i` in the socket's register block. -/
theorem target_sock {c : Cfg} (hc : SockDisjoint c) (n : SockIdx) {r : SockReg} {i : Nat} (hi : i < r.width) :
    target c (regBlk n) (sockOff c r + BitVec.ofNat 16 i) = .sock n r i := by
  obtain ⟨h0, h1, h2⟩ := regBlk_facts n
  simp [target, h0, h1, h2, findSock_self hc hi r.mem_all]

/-- R81, R99: an offset of a transmit buffer block is a cell. -/
theorem target_tx (c : Cfg) (n : SockIdx) (off : Half) :
    target c (txBlk n) off = .cell (memKey (txBlk n) (bufCell c (c.chipTx.get n) off)) := by
  obtain ⟨h0, h1, h2⟩ := txBlk_facts n
  simp [target, h0, h1, h2]

/-- R81, R99: an offset of a receive buffer block is a cell. -/
theorem target_rx (c : Cfg) (n : SockIdx) (off : Half) :
    target c (rxBlk n) off = .cell (memKey (rxBlk n) (bufCell c (c.chipRx.get n) off)) := by
  obtain ⟨h0, h1, h2⟩ := rxBlk_facts n
  simp [target, h0, h1, h2]

@[simp] theorem halfBytes_length (v : Half) : (halfBytes v).length = 2 := rfl
@[simp] theorem Quad.toList_length (q : Quad) : q.toList.length = 4 := rfl
@[simp] theorem Mac.toList_length (m : Mac) : m.toList.length = 6 := rfl

end Sys2Proof.Machine
end

