-- ==== Sys2Proof/Laws/Run.lean ====
section
/-! SUPPORT. What each shared operation does when the bus is configured, no transfer fails and a chip answers (Safety.Clean): its value,
the chip it leaves, and that the block keeps everything else. -/

namespace Sys2Proof.Machine

open Sys2Proof.Safety

/-- What stays as it was, the chip, the sequencer, the latches, the trace and the clock apart; `g` gaps are used up. -/
structure Ran (g : Nat) (s t : State) : Prop where
  cfg : t.cfg = s.cfg
  bus : t.bus = s.bus
  handles : t.handles = s.handles
  requests : t.requests = s.requests
  result : t.result = s.result
  dest : t.dest = s.dest
  transfers : t.env.transfers = s.env.transfers
  gaps : t.env.chip = s.env.chip.drop g
  missed : t.env.missed = s.env.missed
  clock : s.clock ≤ t.clock

theorem Ran.refl (s : State) : Ran 0 s s := ⟨rfl, rfl, rfl, rfl, rfl, rfl, rfl, rfl, rfl, Nat.le_refl _⟩

theorem Ran.trans {g k : Nat} {s t u : State} (h : Ran g s t) (i : Ran k t u) : Ran (g + k) s u where
  cfg := i.cfg.trans h.cfg
  bus := i.bus.trans h.bus
  handles := i.handles.trans h.handles
  requests := i.requests.trans h.requests
  result := i.result.trans h.result
  dest := i.dest.trans h.dest
  transfers := i.transfers.trans h.transfers
  gaps := by rw [i.gaps, h.gaps, List.drop_drop]
  missed := i.missed.trans h.missed
  clock := h.clock.trans i.clock

theorem Ran.clean {g : Nat} {s t : State} (h : Ran g s t) (hs : Clean s) : Clean t :=
  ⟨by rw [h.bus]; exact hs.configured, by rw [h.transfers]; exact hs.noFault, by rw [h.missed]; exact hs.chipAnswers⟩

/-- A step on sequencer and latches only. -/
theorem ran_inside {s t : State} (h : t = (s.setSeq t.seq).setLat t.lat) : Ran 0 s t := by
  rw [h]; exact ⟨rfl, rfl, rfl, rfl, rfl, rfl, rfl, rfl, rfl, Nat.le_refl _⟩

/-- R275: a gap is the steps the environment lists for it, one after the other. -/
theorem chipTurn_eq (s : State) :
    chipTurn s = (gapAt s 0).foldl chipStep (s.setEnv { s.env with chip := s.env.chip.drop 1 }) := by
  unfold chipTurn gapAt
  split
  · rename_i h; simp only [h, List.drop_nil, List.getD_nil, List.foldl_nil]; rw [← h]; rfl
  · rename_i h; simp only [h, List.drop_succ_cons, List.drop_zero]; rfl

theorem chipStep_setSeq (s : State) (q : Sequencer) (e : ChipEvent) :
    chipStep (s.setSeq q) e = (chipStep s e).setSeq q := by
  cases e with
  | accept n =>
    show acceptCommand n (s.setSeq q) = (acceptCommand n s).setSeq q
    unfold acceptCommand
    simp only [State.setSeq_chip]
    split <;> rfl
  | perform n =>
    show performCommand n (s.setSeq q) = (performCommand n s).setSeq q
    unfold performCommand actCommand; simp only [State.setSeq_chip]; split
    · rfl
    · repeat' split
      all_goals rfl
  | crShows n v =>
    show showCommand n v (s.setSeq q) = (showCommand n v s).setSeq q
    unfold showCommand
    by_cases h : (s.chip.sock.get n).pending = none ∨ v = 0#8
    · rw [if_pos h, if_pos (by exact h)]
    · rw [if_neg h, if_neg (by exact h)]; rfl
  | sentUpTo n v =>
    show sendUpTo n v (s.setSeq q) = (sendUpTo n v s).setSeq q
    unfold sendUpTo
    by_cases h : sendsPart s.cfg.status (s.chip.sock.get n) v
    · rw [if_pos h, if_pos (by exact h)]; rfl
    · rw [if_neg h, if_neg (by exact h)]
  | mrShows v =>
    simp only [chipStep]
    by_cases h : s.chip.resetting = true ∧ v ≠ 0#8
    · rw [if_pos h, if_pos (by exact h)]; rfl
    · rw [if_neg h, if_neg (by exact h)]
  | resetDone =>
    simp only [chipStep]
    by_cases h : s.chip.resetting = true
    · rw [if_pos h, if_pos (by exact h)]; rfl
    · rw [if_neg h, if_neg (by exact h)]
  | _ => rfl

theorem chipStep_setLat (s : State) (l : Latches) (e : ChipEvent) :
    chipStep (s.setLat l) e = (chipStep s e).setLat l := by
  cases e with
  | accept n =>
    show acceptCommand n (s.setLat l) = (acceptCommand n s).setLat l
    unfold acceptCommand
    simp only [State.setLat_chip]
    split <;> rfl
  | perform n =>
    show performCommand n (s.setLat l) = (performCommand n s).setLat l
    unfold performCommand actCommand; simp only [State.setLat_chip]; split
    · rfl
    · repeat' split
      all_goals rfl
  | crShows n v =>
    show showCommand n v (s.setLat l) = (showCommand n v s).setLat l
    unfold showCommand
    by_cases h : (s.chip.sock.get n).pending = none ∨ v = 0#8
    · rw [if_pos h, if_pos (by exact h)]
    · rw [if_neg h, if_neg (by exact h)]; rfl
  | sentUpTo n v =>
    show sendUpTo n v (s.setLat l) = (sendUpTo n v s).setLat l
    unfold sendUpTo
    by_cases h : sendsPart s.cfg.status (s.chip.sock.get n) v
    · rw [if_pos h, if_pos (by exact h)]; rfl
    · rw [if_neg h, if_neg (by exact h)]
  | mrShows v =>
    simp only [chipStep]
    by_cases h : s.chip.resetting = true ∧ v ≠ 0#8
    · rw [if_pos h, if_pos (by exact h)]; rfl
    · rw [if_neg h, if_neg (by exact h)]
  | resetDone =>
    simp only [chipStep]
    by_cases h : s.chip.resetting = true
    · rw [if_pos h, if_pos (by exact h)]; rfl
    · rw [if_neg h, if_neg (by exact h)]
  | _ => rfl

/-- R24: the chip's steps do not look at the sequencer. -/
theorem chipTurn_setSeq (s : State) (q : Sequencer) : chipTurn (s.setSeq q) = (chipTurn s).setSeq q := by
  have h : ∀ (l : List ChipEvent) (s : State), l.foldl chipStep (s.setSeq q) = (l.foldl chipStep s).setSeq q := by
    intro l
    induction l with
    | nil => intro s; rfl
    | cons e rest ih => intro s; simp only [List.foldl_cons, chipStep_setSeq, ih]
  rw [chipTurn_eq, chipTurn_eq, ← h]; rfl

/-- R23: the chip's steps do not look at the latches. -/
theorem chipTurn_setLat (s : State) (v : Latches) : chipTurn (s.setLat v) = (chipTurn s).setLat v := by
  have h : ∀ (l : List ChipEvent) (s : State), l.foldl chipStep (s.setLat v) = (l.foldl chipStep s).setLat v := by
    intro l
    induction l with
    | nil => intro s; rfl
    | cons e rest ih => intro s; simp only [List.foldl_cons, chipStep_setLat, ih]
  rw [chipTurn_eq, chipTurn_eq, ← h]; rfl

theorem chipTurn_quiet {s : State} (h : gapAt s 0 = []) : (chipTurn s).chip = s.chip := by
  rw [chipTurn_eq, h]; rfl

theorem Ran.gapAt {g : Nat} {s t : State} (h : Ran g s t) (j : Nat) : gapAt t j = gapAt s (g + j) := by
  simp only [Safety.gapAt, h.gaps, List.getD_eq_getElem?_getD, List.getElem?_drop]

/-- One completed frame: what the block keeps, the header latch, the trace and the level of CS. -/
structure Framed (hdr : Header) (data : List Byte) (s t : State) : Prop extends Ran 1 s t where
  seq : t.seq = s.seq
  lat : t.lat = { s.lat with hdr := hdr }
  out : t.out = .frame hdr data :: s.out
  cs : t.cs = .high
  now : t.clock = s.clock
  draws : t.env.rand = s.env.rand

theorem ran_chipOnly {s t : State} (h : ChipOnly s t) : Ran 0 s t := by
  obtain ⟨c, k, rfl⟩ := h; exact ⟨rfl, rfl, rfl, rfl, rfl, rfl, rfl, rfl, rfl, Nat.le_refl _⟩

theorem chipOnly_chipTurn (s : State) :
    ChipOnly (s.setEnv { s.env with chip := s.env.chip.drop 1 }) (chipTurn s) := by
  rw [chipTurn_eq]; exact chipOnly_foldl _ _

theorem frameData_congr {s t : State} (hc : t.cfg = s.cfg) (hf : t.free = s.free) (hh : t.chip = s.chip)
    (missed : Bool) (blk : Selector) (off : Half) (n : Nat) :
    frameData t missed blk off n = frameData s missed blk off n := by
  induction n generalizing off with
  | zero => rfl
  | succ n ih => simp only [frameData, frameByte, peek, hc, hf, hh, ih]

theorem frameData_length (s : State) (missed : Bool) (blk : Selector) (off : Half) (n : Nat) :
    (frameData s missed blk off n).length = n := by
  induction n generalizing off with
  | zero => rfl
  | succ n ih => simp [frameData, ih]

theorem transferFails_none {s : State} (h : s.env.transfers = []) : transferFails s = none := by
  unfold transferFails; rw [h]

theorem useTransfer_none {s : State} (h : s.env.transfers = []) : useTransfer s = s := by
  unfold useTransfer; rw [h]

theorem frameMissed_none {s : State} (h : s.env.missed = []) : frameMissed s = false := by
  unfold frameMissed; rw [h]

theorem useMissed_none {s : State} (h : s.env.missed = []) : useMissed s = s := by
  unfold useMissed; rw [h]

theorem beginFrame_clean {s : State} (hs : Clean s) (hdr : Header) : Clean (beginFrame hdr s) := by
  obtain ⟨c, k, h⟩ := chipOnly_chipTurn s
  unfold beginFrame
  rw [h]
  exact ⟨hs.configured, hs.noFault, hs.chipAnswers⟩

/-- R160: a read frame that completes. -/
theorem memRead_run {s : State} (hs : Clean s) (blk : Selector) (off : Half) (n : Nat) :
    ∃ t, memRead blk off n s = .ok (frameData (chipTurn s) false blk off n) t ∧
      Framed (header blk off false) (frameData (chipTurn s) false blk off n) s t ∧ t.chip = (chipTurn s).chip := by
  have hb := beginFrame_clean hs (header blk off false)
  have hd : frameData (beginFrame (header blk off false) s) false blk off n =
      frameData (chipTurn s) false blk off n :=
    frameData_congr (s := chipTurn s) (t := beginFrame (header blk off false) s) rfl rfl rfl ..
  simp only [memRead, frameMissed_none hb.chipAnswers, useMissed_none hb.chipAnswers,
    transferFails_none hb.noFault, useTransfer_none hb.noFault, hd]
  refine ⟨_, rfl, ?_, rfl⟩
  generalize frameData (chipTurn s) false blk off n = d
  obtain ⟨c, k, h⟩ := chipOnly_chipTurn s
  unfold endFrame beginFrame
  rw [h]
  exact ⟨⟨rfl, rfl, rfl, rfl, rfl, rfl, rfl, rfl, rfl, Nat.le_refl _⟩, rfl, rfl, rfl, rfl, rfl, rfl⟩

theorem storeByte_congr {s t : State} {t' : Target} {v : Byte} (hf : t.free = s.free) (hh : t.chip = s.chip) :
    (storeByte t' v t).free = (storeByte t' v s).free ∧ (storeByte t' v t).chip = (storeByte t' v s).chip := by
  cases t' with
  | common r i =>
    cases r <;> simp only [storeByte, storeCommon, writeMr, tick, State.setFree, State.setChip, hh, hf, and_self]
    repeat' split
    all_goals simp_all
  | sock n r i =>
    cases r <;> simp only [storeByte, storeSock, modSock, tick, State.setFree, State.setChip, hh, hf, and_self]
  | cell key => simp only [storeByte, modMem, State.setChip, hh, hf, and_self]
  | unnamed => exact ⟨hf, hh⟩

theorem storeBytes_congr {s t : State} (hc : t.cfg = s.cfg) (hf : t.free = s.free) (hh : t.chip = s.chip)
    (blk : Selector) (off : Half) (d : List Byte) :
    (storeBytes blk off d t).free = (storeBytes blk off d s).free ∧
      (storeBytes blk off d t).chip = (storeBytes blk off d s).chip := by
  induction d generalizing off s t with
  | nil => exact ⟨hf, hh⟩
  | cons v rest ih =>
    obtain ⟨e1, e2⟩ := storeByte_congr (t' := target s.cfg blk off) (v := v) hf hh
    have k1 := (ran_chipOnly (chipOnly_storeByte (target s.cfg blk off) v s)).cfg
    have k2 := (ran_chipOnly (chipOnly_storeByte (target s.cfg blk off) v t)).cfg
    simp only [storeBytes]
    rw [hc]
    exact ih (by rw [k1, k2, hc]) e1 e2 _

theorem storeFrame_congr {s t : State} (hc : t.cfg = s.cfg) (hf : t.free = s.free) (hh : t.chip = s.chip)
    (blk : Selector) (off : Half) (d : List Byte) : (storeFrame blk off d t).chip = (storeFrame blk off d s).chip := by
  obtain ⟨e1, e2⟩ := storeBytes_congr hc hf hh blk off d
  simp only [storeFrame, hc]
  split
  · simp only [havocChip, tick, State.setFree, State.setChip, e1]
  · exact e2

/-- R161: a write frame that completes. -/
theorem memWrite_run {s : State} (hs : Clean s) (blk : Selector) (off : Half) (d : List Byte) :
    ∃ t, memWrite blk off d s = .ok () t ∧ Framed (header blk off true) d s t ∧
      t.chip = (storeFrame blk off d (chipTurn s)).chip := by
  have hb := beginFrame_clean hs (header blk off true)
  simp only [memWrite, frameMissed_none hb.chipAnswers, useMissed_none hb.chipAnswers,
    transferFails_none hb.noFault, useTransfer_none hb.noFault, Bool.false_eq_true, if_false]
  refine ⟨_, rfl, ?_,
    storeFrame_congr (s := chipTurn s) (t := beginFrame (header blk off true) s) rfl rfl rfl ..⟩
  obtain ⟨c, k, h⟩ := chipOnly_storeFrame blk off d (beginFrame (header blk off true) s)
  obtain ⟨c', k', h'⟩ := chipOnly_chipTurn s
  rw [h]
  unfold endFrame beginFrame
  rw [h']
  exact ⟨⟨rfl, rfl, rfl, rfl, rfl, rfl, rfl, rfl, rfl, Nat.le_refl _⟩, rfl, rfl, rfl, rfl, rfl, rfl⟩

end Sys2Proof.Machine
end

