-- ==== Sys2Proof/Laws/Registers.lean ====
section
/-! SUPPORT. Reads and writes of whole registers and of buffer ranges when no transfer fails: the value read, the bank or
the memory left (R26, R160, R161, R163 to R166). -/

namespace Sys2Proof.Machine

open Sys2Proof.Safety

theorem off_succ (a : Half) (i : Nat) : a + BitVec.ofNat 16 i + 1 = a + BitVec.ofNat 16 (i + 1) := by
  rw [BitVec.add_assoc]; congr 1; rw [BitVec.ofNat_add]; rfl

theorem off_zero (a : Half) : a + BitVec.ofNat 16 0 = a := by simp

/-- A read frame whose bytes all have a meaning. -/
theorem frameData_known {s : State} {blk : Selector} {off : Half} (f : Nat → Byte) {n i : Nat}
    (h : ∀ j, j < n → peek s blk (off + BitVec.ofNat 16 (i + j)) = some (f (i + j))) :
    frameData s false blk (off + BitVec.ofNat 16 i) n = (List.range' i n).map f := by
  induction n generalizing i with
  | zero => rfl
  | succ n ih =>
    have h0 := h 0 (by omega)
    simp only [Nat.add_zero] at h0
    have ih' := ih (i := i + 1) (fun j hj => by
      have := h (j + 1) (by omega)
      rwa [show i + (j + 1) = i + 1 + j by omega] at this)
    simp only [frameData, off_succ, ih', frameByte, h0, List.range'_succ, List.map_cons, Bool.false_eq_true, if_false]

theorem peek_sock {s : State} (hd : SockDisjoint s.cfg) (n : SockIdx) {r : SockReg} {i : Nat} (hi : i < r.width) :
    peek s (regBlk n) (sockOff s.cfg r + BitVec.ofNat 16 i) = some (sockByte (bank s n) r i) := by
  simp [peek, target_sock hd n hi, bank]

theorem peek_common {s : State} (hd : CommonDisjoint s.cfg) {r : CommonReg} {i : Nat} (hi : i < r.width) :
    peek s 0#5 (commonOff s.cfg r + BitVec.ofNat 16 i) = some (commonByte s.chip r i) := by
  simp [peek, target_common hd hi]

/-- A whole socket register, as the bytes of one read frame. -/
theorem frameData_sock {s : State} (hd : SockDisjoint s.cfg) (n : SockIdx) (r : SockReg) :
    frameData s false (regBlk n) (sockOff s.cfg r) r.width = (List.range' 0 r.width).map (sockByte (bank s n) r) := by
  have := frameData_known (s := s) (blk := regBlk n) (off := sockOff s.cfg r) (sockByte (bank s n) r) (n := r.width)
    (i := 0) (fun j hj => by rw [Nat.zero_add]; exact peek_sock hd n hj)
  rwa [off_zero] at this

/-- A whole common register, as the bytes of one read frame. -/
theorem frameData_common {s : State} (hd : CommonDisjoint s.cfg) (r : CommonReg) :
    frameData s false 0#5 (commonOff s.cfg r) r.width = (List.range' 0 r.width).map (commonByte s.chip r) := by
  have := frameData_known (s := s) (blk := 0#5) (off := commonOff s.cfg r) (commonByte s.chip r) (n := r.width)
    (i := 0) (fun j hj => by rw [Nat.zero_add]; exact peek_common hd hj)
  rwa [off_zero] at this

/-- The bytes of a write to a socket register, from byte `i` of the register on. -/
def storeSockFrom (n : SockIdx) (r : SockReg) : Nat → List Byte → State → State
  | _, [], s => s
  | i, v :: rest, s => storeSockFrom n r (i + 1) rest (storeSock n r i v s)

/-- The bytes of a write to a common register, from byte `i` of the register on. -/
def storeCommonFrom (r : CommonReg) : Nat → List Byte → State → State
  | _, [], s => s
  | i, v :: rest, s => storeCommonFrom r (i + 1) rest (storeCommon r i v s)

theorem storeBytes_sock {s : State} {c : Cfg} (hc : s.cfg = c) (hd : SockDisjoint c) (n : SockIdx) {r : SockReg}
    {d : List Byte} {i : Nat} (h : i + d.length ≤ r.width) :
    storeBytes (regBlk n) (sockOff c r + BitVec.ofNat 16 i) d s = storeSockFrom n r i d s := by
  induction d generalizing i s with
  | nil => rfl
  | cons v rest ih =>
    simp only [List.length_cons] at h
    have ht : target s.cfg (regBlk n) (sockOff c r + BitVec.ofNat 16 i) = .sock n r i := by
      rw [hc]; exact target_sock hd n (by omega)
    have hk := (ran_chipOnly (chipOnly_storeByte (.sock n r i) v s)).cfg
    simp only [storeBytes, ht, off_succ, storeSockFrom]
    exact ih (by rw [hk, hc]) (by omega)

theorem storeBytes_common {s : State} {c : Cfg} (hc : s.cfg = c) (hd : CommonDisjoint c) {r : CommonReg}
    {d : List Byte} {i : Nat} (h : i + d.length ≤ r.width) :
    storeBytes 0#5 (commonOff c r + BitVec.ofNat 16 i) d s = storeCommonFrom r i d s := by
  induction d generalizing i s with
  | nil => rfl
  | cons v rest ih =>
    simp only [List.length_cons] at h
    have ht : target s.cfg 0#5 (commonOff c r + BitVec.ofNat 16 i) = .common r i := by
      rw [hc]; exact target_common hd (by omega)
    have hk := (ran_chipOnly (chipOnly_storeByte (.common r i) v s)).cfg
    simp only [storeBytes, ht, off_succ, storeCommonFrom]
    exact ih (by rw [hk, hc]) (by omega)

theorem touchesUnnamed_false {c : Cfg} {blk : Selector} {off : Half} {n i : Nat}
    (h : ∀ j, j < n → target c blk (off + BitVec.ofNat 16 (i + j)) ≠ .unnamed) :
    touchesUnnamed c blk (off + BitVec.ofNat 16 i) n = false := by
  induction n generalizing i with
  | zero => rfl
  | succ n ih =>
    have h0 := h 0 (by omega)
    have := ih (i := i + 1) (fun j hj => by
      have := h (j + 1) (by omega)
      rwa [show i + (j + 1) = i + 1 + j by omega] at this)
    simp only [touchesUnnamed, off_succ, this, Bool.or_false]
    simpa using h0

/-- A write frame to a socket register. -/
theorem storeFrame_sock {s : State} (hd : SockDisjoint s.cfg) (n : SockIdx) {r : SockReg} {d : List Byte}
    (h : d.length ≤ r.width) : storeFrame (regBlk n) (sockOff s.cfg r) d s = storeSockFrom n r 0 d s := by
  have ht := touchesUnnamed_false (c := s.cfg) (blk := regBlk n) (off := sockOff s.cfg r) (n := d.length) (i := 0)
    (fun j hj => by rw [Nat.zero_add, target_sock hd n (by omega)]; simp)
  have hs := storeBytes_sock rfl hd n (r := r) (d := d) (i := 0) (by omega)
  rw [off_zero] at ht hs
  simp only [storeFrame, ht, Bool.false_eq_true, if_false, hs]

/-- A write frame to a common register. -/
theorem storeFrame_common {s : State} (hd : CommonDisjoint s.cfg) {r : CommonReg} {d : List Byte}
    (h : d.length ≤ r.width) : storeFrame 0#5 (commonOff s.cfg r) d s = storeCommonFrom r 0 d s := by
  have ht := touchesUnnamed_false (c := s.cfg) (blk := 0#5) (off := commonOff s.cfg r) (n := d.length) (i := 0)
    (fun j hj => by rw [Nat.zero_add, target_common hd (by omega)]; simp)
  have hs := storeBytes_common rfl hd (r := r) (d := d) (i := 0) (by omega)
  rw [off_zero] at ht hs
  simp only [storeFrame, ht, Bool.false_eq_true, if_false, hs]

theorem bank_withBank (c : Chip) (n : SockIdx) (q : Socket) : (withBank c n q).sock.get n = q := by
  simp [withBank, Vector.get_eq_getElem]

theorem bank_withBank_other (c : Chip) {n m : SockIdx} (h : m ≠ n) (q : Socket) :
    (withBank c n q).sock.get m = c.sock.get m := by
  have : n.val ≠ m.val := fun e => h (Fin.ext e.symm)
  simp [withBank, Vector.get_eq_getElem, this]

theorem withBank_withBank (c : Chip) (n : SockIdx) (q p : Socket) : withBank (withBank c n q) n p = withBank c n p := by
  simp [withBank]

/-- Two changes of one bank are one. -/
theorem modSock_modSock (n : SockIdx) (f g : Socket → Socket) (s : State) :
    modSock n f (modSock n g s) = modSock n (fun q => f (g q)) s := by
  show s.setChip (withBank (withBank s.chip n (g (bank s n))) n
    (f ((withBank s.chip n (g (bank s n))).sock.get n))) = _
  rw [bank_withBank, withBank_withBank]; rfl

theorem withBank_self (c : Chip) (n : SockIdx) : withBank c n (c.sock.get n) = c := by
  unfold withBank
  congr 1
  ext i hi
  simp only [Vector.getElem_set]
  split
  · rename_i h; subst h; rfl
  · rfl

theorem modSock_chip (n : SockIdx) (f : Socket → Socket) (s : State) :
    (modSock n f s).chip = withBank s.chip n (f (bank s n)) := rfl

/-- What writing a socket register makes of its bank (R36, R37, R92). -/
theorem writeSock_run {s : State} (hs : Clean s) (hd : SockDisjoint s.cfg) (n : SockIdx) {r : SockReg} {d : List Byte}
    (h : d.length ≤ r.width) :
    ∃ t, writeSock n r d s = .ok () t ∧ Framed (header (regBlk n) (sockOff s.cfg r) true) d s t ∧
      t.chip = (storeSockFrom n r 0 d (chipTurn s)).chip := by
  obtain ⟨t, h1, h2, h3⟩ := memWrite_run hs (regBlk n) (sockOff s.cfg r) d
  refine ⟨t, h1, h2, h3.trans ?_⟩
  obtain ⟨c, k, e⟩ := chipOnly_chipTurn s
  have hc : (chipTurn s).cfg = s.cfg := by rw [e]; rfl
  rw [← hc] at hd ⊢
  rw [storeFrame_sock hd n h]

/-- R163: a one-byte read of a socket register. -/
theorem readSock8_run {s : State} (hs : Clean s) (hd : SockDisjoint s.cfg) (n : SockIdx) {r : SockReg}
    (h : r.width = 1) :
    ∃ t, readSock8 n r s = .ok (sockByte (bank (chipTurn s) n) r 0) t ∧
      Framed (header (regBlk n) (sockOff s.cfg r) false) [sockByte (bank (chipTurn s) n) r 0] s t ∧
      t.chip = (chipTurn s).chip := by
  obtain ⟨t, h1, h2, h3⟩ := memRead_run hs (regBlk n) (sockOff s.cfg r) 1
  obtain ⟨c, k, e⟩ := chipOnly_chipTurn s
  have hc : (chipTurn s).cfg = s.cfg := by rw [e]; rfl
  have hv := frameData_sock (s := chipTurn s) (by rw [hc]; exact hd) n r
  rw [hc, h] at hv
  have hv : frameData (chipTurn s) false (regBlk n) (sockOff s.cfg r) 1 = [sockByte (bank (chipTurn s) n) r 0] := hv
  rw [hv] at h1 h2
  exact ⟨t, by simp [readSock8, readByte, h1, firstByte], h2, h3⟩

/-- R164: a two-byte read of a socket register. -/
theorem readSock16_run {s : State} (hs : Clean s) (hd : SockDisjoint s.cfg) (n : SockIdx) {r : SockReg}
    (h : r.width = 2) :
    ∃ t, readSock16 n r s =
        .ok (be16 (sockByte (bank (chipTurn s) n) r 0) (sockByte (bank (chipTurn s) n) r 1)) t ∧
      Framed (header (regBlk n) (sockOff s.cfg r) false)
        [sockByte (bank (chipTurn s) n) r 0, sockByte (bank (chipTurn s) n) r 1] s t ∧
      t.chip = (chipTurn s).chip := by
  obtain ⟨t, h1, h2, h3⟩ := memRead_run hs (regBlk n) (sockOff s.cfg r) 2
  obtain ⟨c, k, e⟩ := chipOnly_chipTurn s
  have hc : (chipTurn s).cfg = s.cfg := by rw [e]; rfl
  have hv := frameData_sock (s := chipTurn s) (by rw [hc]; exact hd) n r
  rw [hc, h] at hv
  have hv : frameData (chipTurn s) false (regBlk n) (sockOff s.cfg r) 2 =
      [sockByte (bank (chipTurn s) n) r 0, sockByte (bank (chipTurn s) n) r 1] := hv
  rw [hv] at h1 h2
  exact ⟨t, by simp [readSock16, read16, h1, firstHalf], h2, h3⟩

end Sys2Proof.Machine
end

