-- ==== Sys2Proof/Laws/Commands.lean ====
section
/-! SUPPORT. The command protocol (R212) when no transfer fails: accepted before the m-th poll, or never. -/

namespace Sys2Proof.Machine

open Sys2Proof.Safety

/-- The latches the command protocol and its frames do not write. -/
def SameLat (a b : Latches) : Prop := b = { a with hdr := b.hdr, cmd := b.cmd, crv := b.crv, poll := b.poll }

theorem SameLat.refl (a : Latches) : SameLat a a := rfl

theorem SameLat.trans {a b c : Latches} (h : SameLat a b) (g : SameLat b c) : SameLat a c := by
  unfold SameLat at *; rw [g, h]

theorem SameLat.st {a b : Latches} (h : SameLat a b) : b.st = a.st := by rw [h]
theorem SameLat.cnt {a b : Latches} (h : SameLat a b) : b.cnt = a.cnt := by rw [h]
theorem SameLat.sz {a b : Latches} (h : SameLat a b) : b.sz = a.sz := by rw [h]
theorem SameLat.t0 {a b : Latches} (h : SameLat a b) : b.t0 = a.t0 := by rw [h]

theorem chipStep_accept {s : State} {n : SockIdx} {code : Byte} (h : (bank s n).pending = some code) :
    (chipStep s (.accept n)).chip = withBank s.chip n (taken (bank s n) code) := by
  simp only [chipStep, acceptCommand, show (s.chip.sock.get n).pending = some code from h]
  unfold startCommand takeCommand
  rw [modSock_modSock]
  rfl

theorem ran_sleep (ms : Nat) (s : State) :
    Ran 0 s (sleep ms s) ∧ (sleep ms s).chip = s.chip ∧ (sleep ms s).lat = s.lat ∧
      (sleep ms s).out = .sleep ms :: s.out ∧ (sleep ms s).cs = s.cs ∧ s.clock + ms ≤ (sleep ms s).clock ∧
      (sleep ms s).env.rand = s.env.rand := by
  unfold sleep advance
  split
  · exact ⟨⟨rfl, rfl, rfl, rfl, rfl, rfl, rfl, rfl, rfl, Nat.le_add_right _ _⟩, rfl, rfl, rfl, rfl, Nat.le_refl _, rfl⟩
  · exact ⟨⟨rfl, rfl, rfl, rfl, rfl, rfl, rfl, rfl, rfl, Nat.le_trans (Nat.le_add_right _ _) (Nat.le_add_right _ _)⟩, rfl, rfl, rfl, rfl,
      Nat.le_add_right _ _, rfl⟩

/-- Between two polls: a sleep, and POLL counts up. -/
theorem ran_nextPoll (w : WaitSteps) (ms : Nat) (s : State) :
    Ran 0 s (nextPoll w ms s) ∧ (nextPoll w ms s).chip = s.chip ∧
      (nextPoll w ms s).lat = { s.lat with poll := s.lat.poll + 1 } ∧ (nextPoll w ms s).out = .sleep ms :: s.out ∧
      (nextPoll w ms s).cs = s.cs ∧ s.clock + ms ≤ (nextPoll w ms s).clock ∧
      (nextPoll w ms s).env.rand = s.env.rand := by
  obtain ⟨h1, h2, h3, h4, h5, h6, h7⟩ := ran_sleep ms (s.setSeq w.sleep)
  refine ⟨⟨h1.cfg, h1.bus, h1.handles, h1.requests, h1.result, h1.dest, h1.transfers, h1.gaps, h1.missed, h1.clock⟩,
    h2, ?_, h4, h5, h6, h7⟩
  show { (sleep ms (s.setSeq w.sleep)).lat with poll := (sleep ms (s.setSeq w.sleep)).lat.poll + 1 } = _
  rw [h3]; rfl

section loops

variable {w : WaitSteps} {budget interval fuel : Nat} {timeout : State → Err} {body : State → Res Bool} {s t : State}

theorem pollLoop_done (h : body s = .ok true t) :
    pollLoop w budget interval timeout body (fuel + 1) s = .ok () t := by
  simp [pollLoop, h]

theorem pollLoop_err {e : Err} (h : body s = .err e t) :
    pollLoop w budget interval timeout body (fuel + 1) s = .err e t := by
  simp [pollLoop, h]

theorem pollLoop_spent (h : body s = .ok false t) (hp : t.lat.poll = budget) :
    pollLoop w budget interval timeout body (fuel + 1) s = .err (timeout t) (t.setSeq w.test) := by
  simp [pollLoop, h, hp]

theorem pollLoop_again (h : body s = .ok false t) (hp : t.lat.poll ≠ budget) :
    pollLoop w budget interval timeout body (fuel + 1) s =
      pollLoop w budget interval timeout body fuel (nextPoll w interval (t.setSeq w.test)) := by
  simp [pollLoop, h, hp]

end loops

/-- What a run of the command protocol leaves, besides the chip and the trace. -/
structure Polled (g : Nat) (s t : State) : Prop extends Ran g s t where
  lat : SameLat s.lat t.lat
  cs : t.cs = .high
  draws : t.env.rand = s.env.rand

theorem Ran.goto {g : Nat} {s t : State} (h : Ran g s t) (op : SeqOp) (k : Nat) : Ran g s (goto op k t) :=
  ⟨h.cfg, h.bus, h.handles, h.requests, h.result, h.dest, h.transfers, h.gaps, h.missed, h.clock⟩

theorem Ran.setSeq {g : Nat} {s t : State} (h : Ran g s t) (q : Sequencer) : Ran g s (t.setSeq q) :=
  ⟨h.cfg, h.bus, h.handles, h.requests, h.result, h.dest, h.transfers, h.gaps, h.missed, h.clock⟩

theorem Ran.ofSeq {g : Nat} {s t : State} {q : Sequencer} (h : Ran g (s.setSeq q) t) : Ran g s t :=
  ⟨h.cfg, h.bus, h.handles, h.requests, h.result, h.dest, h.transfers, h.gaps, h.missed, h.clock⟩

theorem Ran.setLat {g : Nat} {s t : State} (h : Ran g s t) (l : Latches) : Ran g s (t.setLat l) :=
  ⟨h.cfg, h.bus, h.handles, h.requests, h.result, h.dest, h.transfers, h.gaps, h.missed, h.clock⟩

theorem Ran.ofGoto {g : Nat} {s t : State} {op : SeqOp} {k : Nat} (h : Ran g (Machine.goto op k s) t) : Ran g s t :=
  ⟨h.cfg, h.bus, h.handles, h.requests, h.result, h.dest, h.transfers, h.gaps, h.missed, h.clock⟩

theorem Ran.ofSub {g : Nat} {s t : State} {op : SeqOp} {k j : Nat} (h : Ran g (gotoSub op k j s) t) : Ran g s t :=
  ⟨h.cfg, h.bus, h.handles, h.requests, h.result, h.dest, h.transfers, h.gaps, h.missed, h.clock⟩

theorem Ran.ofLat {g : Nat} {s t : State} {l : Latches} (h : Ran g (s.setLat l) t) : Ran g s t :=
  ⟨h.cfg, h.bus, h.handles, h.requests, h.result, h.dest, h.transfers, h.gaps, h.missed, h.clock⟩

/-- One poll of the command register. -/
theorem execPoll_run {s : State} (hs : Clean s) (hd : SockDisjoint s.cfg) (n : SockIdx) :
    ∃ t, Polled 1 s t ∧ t.chip = (chipTurn s).chip ∧ t.lat.cmd = s.lat.cmd ∧ t.lat.poll = s.lat.poll ∧
      t.out = commandRead s.cfg n (bank (chipTurn s) n).cr :: s.out ∧ t.lat.crv = (bank (chipTurn s) n).cr ∧
      t.clock = s.clock ∧
      execPoll n s =
        if (bank (chipTurn s) n).cr = 0x00#8 then .ok true t
        else if (bank (chipTurn s) n).cr ≠ s.lat.cmd then
          .err (.invalidCommandState s.lat.cmd (bank (chipTurn s) n).cr) (goto .exec 5 t)
        else .ok false (goto .exec 5 t) := by
  obtain ⟨t, h1, h2, h3⟩ := readSock8_run (s := goto .exec 3 s) ⟨hs.configured, hs.noFault, hs.chipAnswers⟩ hd n (r := .cr) rfl
  have hb : bank (chipTurn (goto .exec 3 s)) n = bank (chipTurn s) n := by
    unfold goto; rw [chipTurn_setSeq]; rfl
  have hc : (chipTurn (goto .exec 3 s)).chip = (chipTurn s).chip := by
    unfold goto; rw [chipTurn_setSeq]; rfl
  have hv : sockByte (bank (chipTurn s) n) .cr 0 = (bank (chipTurn s) n).cr := rfl
  rw [hb, hv] at h1 h2
  rw [hc] at h3
  refine ⟨goto .exec 4 (setCrv (bank (chipTurn s) n).cr t), ⟨((h2.toRan.ofGoto).setLat _).goto _ _, ?_, h2.cs, h2.draws⟩, h3, ?_,
    ?_, h2.out, rfl, h2.now, ?_⟩
  · simp [SameLat, goto, setCrv, h2.lat]
  · simp [goto, setCrv, h2.lat]
  · simp [goto, setCrv, h2.lat]
  · simp only [execPoll, h1, Res.andThen_ok]
    simp [goto, setCrv, h2.lat]

theorem Polled.clean {g : Nat} {s t : State} (h : Polled g s t) (hs : Clean s) : Clean t := h.toRan.clean hs

/-- R212 steps 3 to 5 and 7: a poll in a quiet gap shows the command pending, then the sleep. -/
theorem execPoll_again {s : State} (hs : Clean s) (hd : SockDisjoint s.cfg) {n : SockIdx} {code : Byte}
    (hcode : code ≠ 0x00#8) (hq : gapAt s 0 = []) (hcr : (bank s n).cr = code) (hcmd : s.lat.cmd = code) :
    ∃ t u, execPoll n s = .ok false t ∧ t.lat.poll = s.lat.poll ∧ t.lat.cmd = code ∧ t.chip = s.chip ∧ Polled 1 s t ∧
      t.out = commandRead s.cfg n code :: s.out ∧
      u = nextPoll execSteps cmdIntervalMs (t.setSeq execSteps.test) ∧ Polled 1 s u ∧ u.chip = s.chip ∧
      u.lat.poll = s.lat.poll + 1 ∧ u.lat.cmd = code ∧
      u.out = .sleep cmdIntervalMs :: commandRead s.cfg n code :: s.out := by
  obtain ⟨t, h1, h2, h3, h4, h5, -, -, h6⟩ := execPoll_run hs hd n
  have hc := chipTurn_quiet hq
  have hb : bank (chipTurn s) n = bank s n := by rw [bank, hc]
  rw [hb, hcr] at h5 h6
  rw [if_neg hcode, if_neg (by simp [hcmd])] at h6
  obtain ⟨p1, p2, p3, p4, p5, p6, p7⟩ := ran_nextPoll execSteps cmdIntervalMs ((goto .exec 5 t).setSeq execSteps.test)
  have hr := h1.toRan.trans p1.ofSeq.ofGoto
  refine ⟨goto .exec 5 t, _, h6, h4, h3.trans hcmd, h2.trans hc, ⟨h1.toRan.goto _ _, h1.lat, h1.cs, h1.draws⟩, h5, rfl,
    ⟨hr, ?_, p5.trans h1.cs, p7.trans h1.draws⟩, p2.trans (h2.trans hc), ?_, ?_, ?_⟩
  · refine h1.lat.trans ?_
    rw [p3]; rfl
  · rw [p3]; exact congrArg (· + 1) h4
  · rw [p3]; exact h3.trans hcmd
  · rw [p4]; exact congrArg _ h5

/-- R212 steps 3 to 8: `k` polls show the command pending, then the chip takes it. -/
theorem execPolls_run {n : SockIdx} {timeout : State → Err} {code : Byte} (hcode : code ≠ 0x00#8) {budget k fuel : Nat}
    (hk : k < fuel) {s : State} (hb : s.lat.poll + k ≤ budget) (hs : Clean s) (hd : SockDisjoint s.cfg)
    (hq : QuietFor s k) (ha : gapAt s k = [.accept n]) (hcr : (bank s n).cr = code) (hpd : (bank s n).pending = some code)
    (hcmd : s.lat.cmd = code) :
    ∃ t, pollLoop execSteps budget cmdIntervalMs timeout (execPoll n) fuel s = .ok () t ∧ Polled (k + 1) s t ∧
      t.chip = withBank s.chip n (taken (bank s n) code) ∧
      t.out = (pendingPolls s.cfg n code k ++ [commandRead s.cfg n 0x00#8]).reverse ++ s.out := by
  induction k generalizing fuel s with
  | zero =>
    obtain ⟨fuel, rfl⟩ : ∃ l, fuel = l + 1 := ⟨fuel - 1, by omega⟩
    obtain ⟨t, h1, h2, -, -, h4, -, -, h6⟩ := execPoll_run hs hd n
    have hc : (chipTurn s).chip = withBank s.chip n (taken (bank s n) code) := by
      rw [chipTurn_eq, ha]
      exact chipStep_accept (s := s.setEnv _) hpd
    have hb : bank (chipTurn s) n = taken (bank s n) code := by rw [bank, hc, bank_withBank]
    rw [hb] at h4 h6
    refine ⟨t, pollLoop_done (h6.trans (if_pos rfl)), h1, h2.trans hc, ?_⟩
    · rw [h4]; simp [pendingPolls, taken]
  | succ k ih =>
    obtain ⟨fuel, rfl⟩ : ∃ l, fuel = l + 1 := ⟨fuel - 1, by omega⟩
    obtain ⟨t, u, h1, h2, h3, -, -, -, h4, h5, h6, h7, h8, h9⟩ := execPoll_again hs hd hcode (hq 0 (by omega)) hcr hcmd
    obtain ⟨v, i1, i2, i3, i4⟩ := ih (fuel := fuel) (by omega) (s := u) (by rw [h7]; omega) (h5.clean hs)
      (by rw [h5.cfg]; exact hd) (fun j hj => by rw [h5.toRan.gapAt]; exact hq _ (by omega))
      (by rw [h5.toRan.gapAt, Nat.add_comm]; exact ha) (by rw [bank, h6]; exact hcr) (by rw [bank, h6]; exact hpd) h8
    refine ⟨v, ?_, ⟨by have := h5.toRan.trans i2.toRan; rwa [show 1 + (k + 1) = k + 1 + 1 by omega] at this,
      h5.lat.trans i2.lat, i2.cs, i2.draws.trans h5.draws⟩, ?_, ?_⟩
    · rw [pollLoop_again h1 (by omega), ← h4]; exact i1
    · rw [i3, h6, bank, bank, h6]
    · rw [i4, h5.cfg, h9]
      simp [pendingPolls, List.replicate_succ]

theorem Accepts.after {g k m : Nat} {s t : State} {n : SockIdx} (h : Accepts s n (g + k) m) (r : Ran g s t) :
    Accepts t n k m := by
  refine ⟨fun j hj => ?_, ?_⟩
  · rw [r.gapAt, ← Nat.add_assoc]; exact h.1 j hj
  · rw [r.gapAt, ← Nat.add_assoc]; exact h.2

theorem QuietFor.after {g k : Nat} {s t : State} (h : QuietFor s (g + k)) (r : Ran g s t) : QuietFor t k :=
  fun j hj => by rw [r.gapAt]; exact h _ (by omega)

/-- R212 step 1: the command is written. -/
theorem commandWrite_run {s : State} (hs : Clean s) (hd : SockDisjoint s.cfg) (n : SockIdx) (code : Byte)
    (hq : gapAt s 0 = []) :
    ∃ t, writeSock n .cr [code] (setCmd code (goto .exec 1 s)) = .ok () t ∧ Polled 1 s t ∧
      t.chip = withBank s.chip n (commanded (bank s n) code) ∧ t.lat.cmd = code ∧
      t.out = commandWrite s.cfg n code :: s.out := by
  obtain ⟨t, w1, w2, w3⟩ := writeSock_run (s := setCmd code (goto .exec 1 s)) ⟨hs.configured, hs.noFault, hs.chipAnswers⟩ hd n
    (r := .cr) (d := [code]) (Nat.le_refl 1)
  refine ⟨t, w1, ⟨w2.toRan.ofLat.ofGoto, ?_, w2.cs, w2.draws⟩, ?_, ?_, ?_⟩
  · simp [SameLat, goto, w2.lat, setCmd]
  · rw [w3]
    unfold setCmd goto
    rw [chipTurn_setLat, chipTurn_setSeq]
    show withBank (chipTurn s).chip n (setSockByte ((chipTurn s).chip.sock.get n) .cr 0 code) = _
    rw [chipTurn_quiet hq]
    rfl
  · rw [w2.lat]; rfl
  · rw [w2.out]; rfl

/-- R212: the chip takes the command before poll `m`. -/
theorem execProtocol_run {s : State} (hs : Clean s) (hd : SockDisjoint s.cfg) (n : SockIdx) {code : Byte}
    (hcode : code ≠ 0x00#8) {m : Nat} (h1 : 1 ≤ m) (h10 : m ≤ 10) (ha : Accepts s n 0 m) :
    ∃ t, execProtocol n code s = .ok () t ∧ Polled (m + 1) s t ∧
      t.chip = withBank s.chip n (taken (bank s n) code) ∧ t.out = (commandTrace s.cfg n code m).reverse ++ s.out := by
  obtain ⟨k, rfl⟩ : ∃ k, m = k + 1 := ⟨m - 1, by omega⟩
  obtain ⟨t, w1, w2, w3, w4, w5⟩ := commandWrite_run hs hd n code (by simpa using ha.1 0 (by omega))
  have ha' : Accepts t n 0 k := by
    refine ⟨fun j hj => ?_, ?_⟩
    · rw [w2.gapAt]; have := ha.1 (j + 1) (by omega); rwa [show 0 + (j + 1) = 1 + (0 + j) by omega] at this
    · rw [w2.gapAt]; have := ha.2; rwa [show 0 + (k + 1) = 1 + (0 + k) by omega] at this
  obtain ⟨u, i1, i2, i3, i4⟩ := execPolls_run (n := n) (timeout := fun s => .commandTimeout s.lat.cmd) hcode (k := k)
    (budget := cmdPolls) (fuel := cmdPolls) (by show k < 10; omega) (s := setPoll 1 (goto .exec 2 t))
    (by show 1 + k ≤ 10; omega) ((w2.toRan.goto _ _).setLat _ |>.clean hs)
    (by show SockDisjoint t.cfg; rw [w2.cfg]; exact hd)
    (fun j hj => by show gapAt t j = []; simpa using ha'.1 j hj) (by show gapAt t k = _; simpa using ha'.2)
    (by show (t.chip.sock.get n).cr = code; rw [w3, bank_withBank]; rfl)
    (by show (t.chip.sock.get n).pending = some code; rw [w3, bank_withBank]; rfl) w4
  refine ⟨u, ?_, ⟨?_, ?_, i2.cs, i2.draws.trans w2.draws⟩, ?_, ?_⟩
  · simp only [execProtocol, w1, Res.andThen_ok]
    exact i1
  · have := w2.toRan.trans i2.toRan.ofLat.ofGoto
    rwa [show 1 + (k + 1) = k + 1 + 1 by omega] at this
  · exact (w2.lat.trans (by simp [SameLat, setPoll, goto])).trans i2.lat
  · rw [i3]
    show withBank t.chip n (taken (t.chip.sock.get n) code) = _
    rw [w3, bank_withBank, withBank_withBank]
    rfl
  · rw [i4]
    show (pendingPolls t.cfg n code k ++ [commandRead t.cfg n 0x00#8]).reverse ++ t.out = _
    rw [w5, w2.cfg]
    simp [commandTrace, commandPolls]

/-- R212 steps 3 to 8: the register never clears. -/
theorem execPolls_timeout {n : SockIdx} {timeout : State → Err} {code : Byte} (hcode : code ≠ 0x00#8) {budget k : Nat}
    {s : State} (hb : s.lat.poll + k = budget) (hs : Clean s) (hd : SockDisjoint s.cfg) (hq : QuietFor s (k + 1))
    (hcr : (bank s n).cr = code) (hcmd : s.lat.cmd = code) :
    ∃ t u, pollLoop execSteps budget cmdIntervalMs timeout (execPoll n) (k + 1) s = .err (timeout t) u ∧
      Polled (k + 1) s u ∧ u.chip = s.chip ∧ t.lat.cmd = code ∧
      u.out = (pendingPolls s.cfg n code k ++ [commandRead s.cfg n code]).reverse ++ s.out := by
  induction k generalizing s with
  | zero =>
    obtain ⟨t, -, h1, h2, h3, h4, h5, h6, -⟩ := execPoll_again hs hd hcode (hq 0 (by omega)) hcr hcmd
    refine ⟨t, _, pollLoop_spent h1 (by omega), ⟨h5.toRan.setSeq _, h5.lat, h5.cs, h5.draws⟩, h4, h3, ?_⟩
    show t.out = _
    rw [h6]; simp [pendingPolls]
  | succ k ih =>
    obtain ⟨t, u, h1, h2, h3, -, -, -, h4, h5, h6, h7, h8, h9⟩ := execPoll_again hs hd hcode (hq 0 (by omega)) hcr hcmd
    obtain ⟨x, v, i1, i2, i3, i4, i5⟩ := ih (s := u) (by rw [h7]; omega) (h5.clean hs)
      (by rw [h5.cfg]; exact hd) (fun j hj => by rw [h5.toRan.gapAt]; exact hq _ (by omega))
      (by rw [bank, h6]; exact hcr) h8
    refine ⟨x, v, ?_, ⟨by have := h5.toRan.trans i2.toRan; rwa [show 1 + (k + 1) = k + 1 + 1 by omega] at this,
      h5.lat.trans i2.lat, i2.cs, i2.draws.trans h5.draws⟩, i3.trans h6, i4, ?_⟩
    · rw [pollLoop_again h1 (by omega), ← h4]; exact i1
    · rw [i5, h5.cfg, h9]
      simp [pendingPolls, List.replicate_succ]

/-- R212, R322: ten polls show the command pending. -/
theorem execProtocol_timeout {s : State} (hs : Clean s) (hd : SockDisjoint s.cfg) (n : SockIdx) {code : Byte}
    (hcode : code ≠ 0x00#8) (hq : QuietFor s 11) :
    ∃ t, execProtocol n code s = .err (.commandTimeout code) t ∧ Polled 11 s t ∧
      t.chip = withBank s.chip n (commanded (bank s n) code) ∧
      t.out = (commandPolls s.cfg n code 10 code).reverse ++ s.out := by
  obtain ⟨t, w1, w2, w3, w4, w5⟩ := commandWrite_run hs hd n code (hq 0 (by omega))
  obtain ⟨x, u, i1, i2, i3, i4, i5⟩ := execPolls_timeout (n := n) (timeout := fun s => .commandTimeout s.lat.cmd) hcode
    (budget := cmdPolls) (k := 9) (s := setPoll 1 (goto .exec 2 t)) rfl ((w2.toRan.goto _ _).setLat _ |>.clean hs)
    (by show SockDisjoint t.cfg; rw [w2.cfg]; exact hd)
    (fun j hj => by show gapAt t j = []; rw [w2.gapAt]; exact hq _ (by omega))
    (by show (t.chip.sock.get n).cr = code; rw [w3, bank_withBank]; rfl) w4
  refine ⟨u, ?_, ⟨w2.toRan.trans i2.toRan.ofLat.ofGoto, ?_, i2.cs, i2.draws.trans w2.draws⟩, i3.trans w3, ?_⟩
  · simp only [execProtocol, w1, Res.andThen_ok]
    rw [i4] at i1
    exact i1
  · exact (w2.lat.trans (by simp [SameLat, setPoll, goto])).trans i2.lat
  · rw [i5]
    show (pendingPolls t.cfg n code 9 ++ [commandRead t.cfg n code]).reverse ++ t.out = _
    rw [w5, w2.cfg]
    simp [commandPolls]

/-- R211: a status read. -/
theorem readStatus_run {s : State} (hs : Clean s) (hd : SockDisjoint s.cfg) (n : SockIdx) :
    ∃ t, readStatus n s = .ok () t ∧ Ran 1 s t ∧ t.chip = (chipTurn s).chip ∧
      t.lat = { s.lat with hdr := t.lat.hdr, st := (bank (chipTurn s) n).sr } ∧ t.seq = s.seq ∧ t.cs = .high ∧
      t.env.rand = s.env.rand ∧ t.clock = s.clock ∧
      t.out = regRead s.cfg n .sr [(bank (chipTurn s) n).sr] :: s.out := by
  obtain ⟨t, h1, h2, h3⟩ := readSock8_run hs hd n (r := .sr) rfl
  refine ⟨setSt (bank (chipTurn s) n).sr t, ?_, h2.toRan.setLat _, h3, ?_, h2.seq, h2.cs, h2.draws, h2.now, h2.out⟩
  · simp only [readStatus, h1, Res.andThen_ok]; rfl
  · simp [setSt, h2.lat]

end Sys2Proof.Machine
end

