-- ==== Sys2Proof/Laws/Errors.lean ====
section
/-! SUPPORT. With which values and which errors each sequence can end, whatever the chip and the bus do (R311). -/

namespace Sys2Proof.Machine

open Sys2Proof.Safety

variable {α β : Type}

/-- A sequence ends with a value that meets `V` or an error that meets `E`. -/
def Res.Ends (V : α → State → Prop) (E : Err → State → Prop) : Res α → Prop
  | .ok a s => V a s
  | .err e s => E e s

/-- Any value. -/
abbrev anyVal : α → State → Prop := fun _ _ => True

/-- The errors a test admits. -/
abbrev errs (p : Err → Bool) : Err → State → Prop := fun e _ => p e = true

theorem Res.Ends.andThen {V : α → State → Prop} {W : β → State → Prop} {E : Err → State → Prop} {r : Res α}
    {f : α → State → Res β} (h : r.Ends V E) (g : ∀ a t, V a t → (f a t).Ends W E) : (r.andThen f).Ends W E := by
  cases r with
  | ok a t => exact g a t h
  | err e t => exact h

theorem Res.Ends.mono {V W : α → State → Prop} {E F : Err → State → Prop} {r : Res α} (h : r.Ends V E)
    (hV : ∀ a t, V a t → W a t) (hE : ∀ e t, E e t → F e t) : r.Ends W F := by
  cases r with
  | ok a t => exact hV a t h
  | err e t => exact hE e t h

theorem Res.Ends.ite {V : α → State → Prop} {E : Err → State → Prop} {c : Prop} [Decidable c] {a b : Res α}
    (ha : c → a.Ends V E) (hb : ¬c → b.Ends V E) : (if c then a else b).Ends V E := by
  split
  · rename_i h; exact ha h
  · rename_i h; exact hb h

/-- The bus error. -/
def ioErr : Err → Bool
  | .ioError _ => true
  | _ => false

theorem ends_memRead {E : Err → State → Prop} (hE : ∀ k t, E (.ioError k) t) (blk : Selector) (off : Half) (n : Nat)
    (s : State) : (memRead blk off n s).Ends (fun d _ => d.length = n) E := by
  unfold memRead
  simp only
  split
  · exact hE _ _
  · split
    · exact hE _ _
    · exact frameData_length ..

theorem ends_memWrite {E : Err → State → Prop} (hE : ∀ k t, E (.ioError k) t) (blk : Selector) (off : Half)
    (d : List Byte) (s : State) : (memWrite blk off d s).Ends anyVal E := by
  unfold memWrite
  simp only
  split
  · exact hE _ _
  · split
    · exact hE _ _
    · trivial

theorem ends_readByte {E : Err → State → Prop} (hE : ∀ k t, E (.ioError k) t) (blk : Selector) (off : Half)
    (s : State) : (readByte blk off s).Ends anyVal E := (ends_memRead hE ..).andThen fun _ _ _ => trivial

theorem ends_read16 {E : Err → State → Prop} (hE : ∀ k t, E (.ioError k) t) (blk : Selector) (off : Half)
    (s : State) : (read16 blk off s).Ends anyVal E := (ends_memRead hE ..).andThen fun _ _ _ => trivial

theorem ends_readStatus {E : Err → State → Prop} (hE : ∀ k t, E (.ioError k) t) (n : SockIdx) (s : State) :
    (readStatus n s).Ends anyVal E := (ends_readByte hE ..).andThen fun _ _ _ => trivial

theorem ends_pollLoop {E : Err → State → Prop} {w : WaitSteps} {budget interval : Nat} {timeout : State → Err}
    {body : State → Res Bool} (ht : ∀ t u, E (timeout t) u) (hb : ∀ t, (body t).Ends anyVal E) (fuel : Nat) (s : State) :
    (pollLoop w budget interval timeout body fuel s).Ends anyVal E := by
  induction fuel generalizing s with
  | zero => exact ht s s
  | succ fuel ih =>
    exact (hb s).andThen fun _ t _ => .ite (fun _ => trivial) fun _ => .ite (fun _ => ht t _) fun _ => ih _

/-- The errors of the command protocol are admitted. -/
structure ExecOk (E : Err → State → Prop) : Prop where
  io : ∀ k t, E (.ioError k) t
  timeout : ∀ c t, E (.commandTimeout c) t
  state : ∀ c v t, E (.invalidCommandState c v) t

theorem execOk_errs {p : Err → Bool} (h : ∀ e, execErr e = true → p e = true) : ExecOk (errs p) :=
  ⟨fun _ _ => h _ rfl, fun _ _ => h _ rfl, fun _ _ _ => h _ rfl⟩

theorem ends_execPoll {E : Err → State → Prop} (hE : ExecOk E) (n : SockIdx) (s : State) :
    (execPoll n s).Ends anyVal E :=
  (ends_readByte hE.io ..).andThen fun _ _ _ =>
    .ite (fun _ => trivial) fun _ => .ite (fun _ => hE.state _ _ _) fun _ => trivial

theorem ends_execProtocol {E : Err → State → Prop} (hE : ExecOk E) (n : SockIdx) (c : Byte) (s : State) :
    (execProtocol n c s).Ends anyVal E :=
  (ends_memWrite hE.io ..).andThen fun _ _ _ =>
    ends_pollLoop (fun _ _ => hE.timeout _ _) (fun _ => ends_execPoll hE ..) _ _

theorem ends_openSocket {E : Err → State → Prop} (hE : ExecOk E) (hd : Handle) (p : List Byte) (port : Half)
    (hp : ∀ t, E (.unsupportedProtocol p) t) (s : State) : (openSocket hd p port s).Ends anyVal E := by
  unfold openSocket
  simp only
  split
  · exact hp _
  exact (ends_memWrite hE.io ..).andThen fun _ _ _ => (ends_memWrite hE.io ..).andThen fun _ _ _ =>
    (ends_readStatus hE.io ..).andThen fun _ _ _ =>
    (Res.Ends.ite (fun _ => ends_execProtocol hE ..) fun _ => trivial :
      Res.Ends (anyVal : Unit → State → Prop) E (forceClose hd.n _)).andThen fun _ _ _ =>
    (ends_memWrite hE.io ..).andThen fun _ _ _ => (ends_memWrite hE.io ..).andThen fun _ _ _ =>
    (ends_memWrite hE.io ..).andThen fun _ _ _ => (ends_execProtocol hE ..).andThen fun _ _ _ => trivial

theorem ends_listen {E : Err → State → Prop} (hE : ExecOk E) (hi : ∀ v t, E (.invalidStateError v) t) (n : SockIdx)
    (s : State) : (listen n s).Ends anyVal E :=
  (ends_readStatus hE.io ..).andThen fun _ _ _ => .ite (fun _ => hi _ _) fun _ =>
    (ends_execProtocol hE ..).andThen fun _ _ _ => trivial

theorem ends_connectPoll {E : Err → State → Prop} (hE : ExecOk E) (hr : ∀ t, E .connectionRefused t)
    (ht : ∀ v t, E (.connectTimeout v) t) (n : SockIdx) (s : State) : (connectPoll n s).Ends anyVal E :=
  (ends_readStatus hE.io ..).andThen fun _ _ _ =>
    .ite (fun _ => trivial) fun _ => .ite (fun _ => hr _) fun _ => .ite (fun _ => ht _ _) fun _ => trivial

theorem ends_connectLoop {E : Err → State → Prop} (hE : ExecOk E) (hr : ∀ t, E .connectionRefused t)
    (ht : ∀ v t, E (.connectTimeout v) t) (n : SockIdx) (fuel : Nat) (s : State) :
    (connectLoop n fuel s).Ends anyVal E := by
  induction fuel generalizing s with
  | zero => exact ht _ _
  | succ fuel ih =>
    exact (ends_connectPoll hE hr ht n s).andThen fun _ _ _ => .ite (fun _ => trivial) fun _ => ih _

theorem ends_connect {E : Err → State → Prop} (hE : ExecOk E) (hi : ∀ v t, E (.invalidStateError v) t)
    (hr : ∀ t, E .connectionRefused t) (ht : ∀ v t, E (.connectTimeout v) t) (n : SockIdx) (ip : Quad) (port : Half)
    (s : State) : (connect n ip port s).Ends anyVal E :=
  (ends_readStatus hE.io ..).andThen fun _ _ _ => .ite (fun _ => hi _ _) fun _ =>
    (ends_memWrite hE.io ..).andThen fun _ _ _ => (ends_memWrite hE.io ..).andThen fun _ _ _ =>
    (ends_execProtocol hE ..).andThen fun _ _ _ =>
    ends_connectLoop hE hr ht ..

theorem ends_readMr {E : Err → State → Prop} (hE : ∀ k t, E (.ioError k) t) (s : State) : (readMr s).Ends anyVal E :=
  (ends_readByte hE ..).andThen fun _ _ _ => trivial

theorem ends_resetPoll {E : Err → State → Prop} (hE : ∀ k t, E (.ioError k) t) (s : State) :
    (resetPoll s).Ends anyVal E := (ends_readMr hE _).andThen fun _ _ _ => trivial

theorem ends_softReset {E : Err → State → Prop} (hE : ∀ k t, E (.ioError k) t) (ht : ∀ v t, E (.resetTimeout v) t)
    (s : State) : (softReset s).Ends anyVal E :=
  (ends_memWrite hE ..).andThen fun _ _ _ => ends_pollLoop (fun _ _ => ht _ _) (fun _ => ends_resetPoll hE _) _ _

theorem ends_fingerprint {E : Err → State → Prop} (hE : ∀ k t, E (.ioError k) t)
    (hn : ∀ k v t, E (.chipNotDetected k v) t) (k : Nat) (v : Byte) (s : State) : (fingerprint k v s).Ends anyVal E :=
  (ends_memWrite hE ..).andThen fun _ _ _ => (ends_readMr hE _).andThen fun _ _ _ =>
    .ite (fun _ => hn _ _ _) fun _ => trivial

theorem ends_verifyIdentity {E : Err → State → Prop} (hE : ∀ k t, E (.ioError k) t)
    (hn : ∀ k v t, E (.chipNotDetected k v) t) (s : State) : (verifyIdentity s).Ends anyVal E :=
  (ends_fingerprint hE hn ..).andThen fun _ _ _ => (ends_fingerprint hE hn ..).andThen fun _ _ _ =>
    (ends_fingerprint hE hn ..).andThen fun _ _ _ =>
    ((ends_readByte hE ..).andThen fun _ _ _ => .ite (fun _ => hn _ _ _) fun _ => trivial :
      Res.Ends (anyVal : Unit → State → Prop) E (versionCheck _)).andThen fun _ _ _ => trivial

/-- Configure's errors, before they are wrapped. -/
theorem ends_configure (s : State) :
    (configure s).Ends anyVal (errs fun e => match e with | .configurationError c => identErr c | _ => false) := by
  have h : (((softReset (goto .configure 3 (applyBus s))).andThen fun _ s =>
      verifyIdentity (goto .configure 4 s))).Ends anyVal (errs identErr) :=
    (ends_softReset (fun _ _ => rfl) (fun _ _ => rfl) _).andThen fun _ _ _ =>
      ends_verifyIdentity (fun _ _ => rfl) (fun _ _ _ => rfl) _
  unfold configure
  generalize ((softReset (goto .configure 3 (applyBus s))).andThen fun _ s => verifyIdentity (goto .configure 4 s)) = r at h
  cases r with
  | ok a t => trivial
  | err e t => exact h

theorem lat_useTransfer (s : State) : (useTransfer s).lat = s.lat := by unfold useTransfer; split <;> rfl
theorem lat_useMissed (s : State) : (useMissed s).lat = s.lat := by unfold useMissed; split <;> rfl
theorem lat_chipOnly {s t : State} (h : ChipOnly s t) : t.lat = s.lat := by obtain ⟨c, k, rfl⟩ := h; rfl
theorem lat_chipTurn (s : State) : (chipTurn s).lat = s.lat := by
  obtain ⟨c, k, h⟩ := chipOnly_chipTurn s; rw [h]; rfl
theorem lat_advance (ms : Nat) (s : State) : (advance ms s).lat = s.lat := by unfold advance; split <;> rfl
theorem lat_spoil (missed : Bool) (blk : Selector) (off : Half) (n : Nat) (s : State) :
    (if missed then s else scrambleFrame blk off n s).lat = s.lat := by
  split
  exacts [rfl, lat_chipOnly (chipOnly_scrambleFrame ..)]
theorem lat_deliver (missed : Bool) (blk : Selector) (off : Half) (d : List Byte) (s : State) :
    (if missed then s else storeFrame blk off d s).lat = s.lat := by
  split
  exacts [rfl, lat_chipOnly (chipOnly_storeFrame ..)]

theorem lat_begin (hdr : Header) (s : State) : (beginFrame hdr s).lat = { s.lat with hdr := hdr } := by
  show { (chipTurn s).lat with hdr := hdr } = _; rw [lat_chipTurn]

theorem sameLat_memRead (blk : Selector) (off : Half) (n : Nat) (s : State) :
    SameLat s.lat (memRead blk off n s).state.lat := by
  have h : (memRead blk off n s).state.lat = { s.lat with hdr := header blk off false } := by
    unfold memRead
    simp only
    split
    · show (useTransfer _).lat = _; rw [lat_useTransfer, lat_useMissed, lat_begin]
    · split
      · show (useTransfer _).lat = _; rw [lat_useTransfer, lat_useTransfer, lat_useMissed, lat_begin]
      · show (useTransfer _).lat = _; rw [lat_useTransfer, lat_useTransfer, lat_useMissed, lat_begin]
  rw [h]; rfl

theorem sameLat_memWrite (blk : Selector) (off : Half) (d : List Byte) (s : State) :
    SameLat s.lat (memWrite blk off d s).state.lat := by
  have h : (memWrite blk off d s).state.lat = { s.lat with hdr := header blk off true } := by
    unfold memWrite
    simp only
    split
    · show State.lat (if _ then _ else _) = _; rw [lat_spoil, lat_useTransfer, lat_useMissed, lat_begin]
    · split
      · show State.lat (if _ then _ else _) = _
        rw [lat_spoil, lat_useTransfer, lat_useTransfer, lat_useMissed, lat_begin]
      · show State.lat (if _ then _ else _) = _
        rw [lat_deliver, lat_useTransfer, lat_useTransfer, lat_useMissed, lat_begin]
  rw [h]; rfl

theorem sameLat_andThen {l : Latches} {r : Res α} {f : α → State → Res β} (h : SameLat l r.state.lat)
    (g : ∀ a t, SameLat l t.lat → SameLat l (f a t).state.lat) : SameLat l (r.andThen f).state.lat := by
  cases r with
  | ok a t => exact g a t h
  | err e t => exact h

theorem sameLat_execPoll (n : SockIdx) {l : Latches} {s : State} (h : SameLat l s.lat) :
    SameLat l (execPoll n s).state.lat := by
  refine sameLat_andThen (sameLat_andThen (h.trans (sameLat_memRead _ _ _ (goto .exec 3 s))) fun _ _ h => h)
    fun v t h => ?_
  have h' : SameLat l (goto .exec 4 (setCrv v t)).lat := h.trans rfl
  simp only
  split
  · exact h'
  · split <;> exact h'

theorem sameLat_pollLoop {w : WaitSteps} {budget interval : Nat} {timeout : State → Err} {body : State → Res Bool} {l : Latches}
    (hb : ∀ t, SameLat l t.lat → SameLat l (body t).state.lat) (left : Nat) {s : State} (h : SameLat l s.lat) :
    SameLat l (pollLoop w budget interval timeout body left s).state.lat := by
  induction left generalizing s with
  | zero => exact h
  | succ left ih =>
    refine sameLat_andThen (hb s h) fun ready t ht => ?_
    split
    · exact ht
    · split
      · exact ht
      · refine ih (ht.trans ?_)
        rw [(ran_nextPoll w interval (t.setSeq w.test)).2.2.1]; rfl

/-- The command protocol writes only HDR, CMD, CRV and POLL. -/
theorem sameLat_execProtocol (n : SockIdx) (c : Byte) (s : State) : SameLat s.lat (execProtocol n c s).state.lat := by
  refine sameLat_andThen (SameLat.trans (b := (setCmd c (goto .exec 1 s)).lat) rfl (sameLat_memWrite _ _ _ _))
    fun _ t h => ?_
  exact sameLat_pollLoop (fun t h => sameLat_execPoll n h) _ (h.trans rfl)

theorem Res.Ends.of_state {V : α → State → Prop} {E : Err → State → Prop} {Q : State → Prop} {r : Res α}
    (h : r.Ends V E) (q : Q r.state) : r.Ends (fun a t => V a t ∧ Q t) (fun e t => E e t ∧ Q t) := by
  cases r with
  | ok a t => exact ⟨h, q⟩
  | err e t => exact ⟨h, q⟩

/-- R242: the pair of a Read whose data have been taken. -/
theorem ends_acknowledge {E : Err → State → Prop} (n : SockIdx) (s : State) :
    (acknowledge n s).Ends (fun r _ => r.1 = s.lat.cnt ∧ ∀ e, r.2 = some e → execErr e = true) E := by
  have h := (ends_execProtocol (E := errs execErr) (execOk_errs fun _ h => h) n cmdRecv (goto .streamRead 6 s)).of_state
    (Q := fun t => SameLat s.lat t.lat) (sameLat_execProtocol n cmdRecv (goto .streamRead 6 s))
  unfold acknowledge
  split <;> rename_i heq <;> rw [heq] at h
  · exact ⟨h.2.cnt, by simp⟩
  · exact ⟨h.2.cnt, fun e' he => by cases he; exact h.1⟩

/-- R240: the pairs of a Read. -/
theorem ends_streamRead (hd : Handle) (len : Nat) (s : State) :
    (streamRead hd len s).Ends
      (fun r _ => r.1 ≤ len ∧ ∀ e, r.2 = some e → (r.1 = 0 ∧ e = .endOfStream) ∨ execErr e = true)
      (errs ioErr) := by
  have hio : ∀ k t, errs ioErr (.ioError k) t := fun _ _ => rfl
  unfold streamRead
  refine .ite (fun _ => ⟨Nat.zero_le _, by simp⟩) fun _ => (ends_read16 hio ..).andThen fun v t _ => ?_
  refine .ite (fun _ => ?_) fun _ => ?_
  · exact (ends_readStatus hio ..).andThen fun _ _ _ =>
      .ite (fun _ => ⟨Nat.zero_le _, fun e he => by cases he; exact .inl ⟨rfl, rfl⟩⟩)
        fun _ => ⟨Nat.zero_le _, by simp⟩
  · unfold takeReceived
    have hc : ∀ u : State, SameLat (setCnt (min (setSz v t).lat.sz.toNat len) (goto .streamRead 3 (setSz v t))).lat u.lat →
        u.lat.cnt ≤ len := fun u hu => by rw [hu.cnt]; exact Nat.min_le_right _ _
    generalize hb : setCnt (min (setSz v t).lat.sz.toNat len) (goto .streamRead 3 (setSz v t)) = b at hc
    simp only
    refine ((ends_read16 hio ..).of_state (Q := fun u => SameLat b.lat u.lat)
      (sameLat_andThen (SameLat.trans (b := (goto .streamRead 4 b).lat) rfl (sameLat_memRead ..)) fun _ _ h => h)
      |>.mono (fun _ _ h => h.2) fun _ _ h => h.1).andThen fun p u hu => ?_
    refine ((ends_memRead hio _ _ _ (setAddr _ (setPtr p u))).of_state (Q := fun w => w.lat.cnt = b.lat.cnt)
      ((sameLat_memRead ..).cnt.trans hu.cnt) |>.mono (fun _ _ h => h.2) fun _ _ h => h.1).andThen fun d w hw => ?_
    refine ((ends_memWrite hio _ _ _ ((goto .streamRead 5 w).setDest d)).of_state (Q := fun w => w.lat.cnt = b.lat.cnt)
      ((sameLat_memWrite ..).cnt.trans hw) |>.mono (fun _ _ h => h.2) fun _ _ h => h.1).andThen fun _ x hx => ?_
    refine (ends_acknowledge hd.n x).mono (fun r y hr => ⟨?_, fun e he => .inr (hr.2 e he)⟩) fun _ _ h => h
    rw [hr.1, hx]
    exact hc b rfl

theorem cnt_andThen {c : Nat} {r : Res α} {f : α → State → Res β} (h : r.state.lat.cnt = c)
    (g : ∀ a t, t.lat.cnt = c → (f a t).state.lat.cnt = c) : (r.andThen f).state.lat.cnt = c := by
  cases r with
  | ok a t => exact g a t h
  | err e t => exact h

theorem cnt_ite {c : Nat} {p : Prop} [Decidable p] {a b : Res α} (ha : a.state.lat.cnt = c) (hb : b.state.lat.cnt = c) :
    (if p then a else b).state.lat.cnt = c := by
  split
  exacts [ha, hb]

theorem cnt_readStatus {c : Nat} (n : SockIdx) {s : State} (h : s.lat.cnt = c) : (readStatus n s).state.lat.cnt = c :=
  cnt_andThen (cnt_andThen ((sameLat_memRead ..).cnt.trans h) fun _ _ h => h) fun _ _ h => h

theorem cnt_pollLoop {c budget interval : Nat} {w : WaitSteps} {timeout : State → Err} {body : State → Res Bool}
    (hb : ∀ t, t.lat.cnt = c → (body t).state.lat.cnt = c) (left : Nat) {s : State} (h : s.lat.cnt = c) :
    (pollLoop w budget interval timeout body left s).state.lat.cnt = c := by
  induction left generalizing s with
  | zero => exact h
  | succ left ih =>
    refine cnt_andThen (hb s h) fun ready t ht => cnt_ite ht (cnt_ite ht (ih ?_))
    rw [(ran_nextPoll w interval (t.setSeq w.test)).2.2.1]; exact ht

theorem cnt_freePoll {c : Nat} (n : SockIdx) {s : State} (h : s.lat.cnt = c) : (freePoll n s).state.lat.cnt = c :=
  cnt_andThen (cnt_andThen ((sameLat_memRead _ _ _ (gotoSub .streamWrite 3 1 s)).cnt.trans h) fun _ _ h => h)
    fun _ _ h => cnt_ite h (cnt_andThen (cnt_readStatus n h) fun _ _ h => cnt_ite h h)

theorem cnt_sendOkPoll {c : Nat} (n : SockIdx) {s : State} (h : s.lat.cnt = c) : (sendOkPoll n s).state.lat.cnt = c :=
  cnt_andThen (cnt_andThen ((sameLat_memRead _ _ _ (gotoSub .streamWrite 7 1 s)).cnt.trans h) fun _ _ h => h)
    fun _ _ h => cnt_ite h (cnt_andThen (cnt_readStatus n h) fun _ _ h => cnt_ite h h)

theorem cnt_placePayload {c : Nat} (hd : Handle) (d : List Byte) {s : State} (h : s.lat.cnt = c) :
    (placePayload hd d s).state.lat.cnt = c :=
  cnt_andThen (cnt_andThen ((sameLat_memRead _ _ _ (goto .streamWrite 4 s)).cnt.trans h) fun _ _ h => h)
    fun p t h =>
      cnt_andThen ((sameLat_memWrite _ _ _ (setAddr _ (setPtr p t))).cnt.trans h)
        fun _ t h => (sameLat_memWrite _ _ _ (goto .streamWrite 5 t)).cnt.trans h

/-- The errors of stream Write. -/
structure WriteOk (E : Err → State → Prop) : Prop extends ExecOk E where
  large : ∀ a b t, E (.payloadTooLarge a b) t
  closed : ∀ v t, E (.writeOnClosedSocket v) t
  ends : ∀ t, E .endOfStream t
  waits : ∀ w v t, E (.sendWaitTimeout w v) t
  lost : ∀ t, E .socketClosedDuringWrite t

theorem ends_freePoll {E : Err → State → Prop} (hE : WriteOk E) (n : SockIdx) (s : State) :
    (freePoll n s).Ends anyVal E :=
  (ends_read16 hE.io ..).andThen fun _ _ _ => .ite (fun _ => trivial) fun _ =>
    (ends_readStatus hE.io ..).andThen fun _ _ _ => .ite (fun _ => trivial) fun _ => hE.ends _

theorem ends_sendOkPoll {E : Err → State → Prop} (hE : WriteOk E) (n : SockIdx) (s : State) :
    (sendOkPoll n s).Ends anyVal E :=
  (ends_readByte hE.io ..).andThen fun _ _ _ => .ite (fun _ => trivial) fun _ =>
    (ends_readStatus hE.io ..).andThen fun _ _ _ => .ite (fun _ => hE.lost _) fun _ => trivial

theorem ends_placePayload {E : Err → State → Prop} (hE : WriteOk E) (hd : Handle) (d : List Byte) (s : State) :
    (placePayload hd d s).Ends anyVal E :=
  (ends_read16 hE.io ..).andThen fun _ _ _ => (ends_memWrite hE.io ..).andThen fun _ _ _ => ends_memWrite hE.io ..

/-- R255: the pairs of a Write. -/
theorem ends_streamWrite {E : Err → State → Prop} (hE : WriteOk E) (hd : Handle) (d : List Byte) (s : State) :
    (streamWrite hd d s).Ends (fun r _ => r = (d.length, none)) E := by
  unfold streamWrite
  refine .ite (fun _ => hE.large _ _ _) fun _ => ?_
  have h0 : (goto .streamWrite 2 (setCnt d.length (goto .streamWrite 1 s))).lat.cnt = d.length := rfl
  generalize goto .streamWrite 2 (setCnt d.length (goto .streamWrite 1 s)) = b at h0
  refine ((ends_readStatus hE.io hd.n b).of_state (Q := fun u => u.lat.cnt = d.length)
    (cnt_readStatus hd.n h0) |>.mono (fun _ _ h => h.2)
    fun _ _ h => h.1).andThen fun _ t ht => .ite (fun _ => ?_) fun _ => hE.closed _ _
  refine ((ends_pollLoop (fun _ _ => hE.waits _ _ _) (fun _ => ends_freePoll hE ..) _ _).of_state
    (Q := fun u => u.lat.cnt = d.length) (cnt_pollLoop (fun _ h => cnt_freePoll hd.n h) _ (s := setPoll 1 (goto .streamWrite 3 t)) ht) |>.mono
    (fun _ _ h => h.2) fun _ _ h => h.1).andThen fun _ t ht => ?_
  refine ((ends_placePayload hE hd d t).of_state (Q := fun u => u.lat.cnt = d.length)
    (cnt_placePayload hd d ht) |>.mono (fun _ _ h => h.2)
    fun _ _ h => h.1).andThen fun _ t ht => ?_
  refine ((ends_execProtocol hE.toExecOk hd.n cmdSend (goto .streamWrite 6 t)).of_state
    (Q := fun u => u.lat.cnt = d.length) ((sameLat_execProtocol ..).cnt.trans ht) |>.mono (fun _ _ h => h.2)
    fun _ _ h => h.1).andThen fun _ t ht => ?_
  refine ((ends_pollLoop (fun _ _ => hE.waits _ _ _) (fun _ => ends_sendOkPoll hE ..) _ _).of_state
    (Q := fun u => u.lat.cnt = d.length) (cnt_pollLoop (fun _ h => cnt_sendOkPoll hd.n h) _ (s := setPoll 1 (goto .streamWrite 7 t)) ht) |>.mono
    (fun _ _ h => h.2) fun _ _ h => h.1).andThen fun _ t ht => ?_
  show (t.lat.cnt, none) = _
  rw [ht]

end Sys2Proof.Machine
end

