-- ==== Sys2Proof/Laws/PerInstr.lean ====
section
/-! SUPPORT. Per instruction: its request carries the code, under the mask, that its row of the opcode table gives it. -/

namespace Sys2Proof.Laws.OpcodeByte

/-- The byte of a request that carries the opcode: the control byte of a frame (R121), else the first byte. -/
def opcodeByte (r : Request) : Option Byte :=
  match r.format with
  | .spihdr => r.bytes[2]?
  | .sncr | .snmr | .hostop => r.bytes[0]?

/-- Format, match and mask of the row of each instruction, cut to the byte that carries the opcode. -/
def row : Instr → Format × Byte × Byte
  | .spiRead .. => (.spihdr, 0x00#8, 0x07#8)
  | .spiWrite .. => (.spihdr, 0x04#8, 0x07#8)
  | .sncrOpen .. => (.sncr, 0x01#8, 0xFF#8)
  | .sncrListen .. => (.sncr, 0x02#8, 0xFF#8)
  | .sncrConnect .. => (.sncr, 0x04#8, 0xFF#8)
  | .sncrDiscon .. => (.sncr, 0x08#8, 0xFF#8)
  | .sncrClose .. => (.sncr, 0x10#8, 0xFF#8)
  | .sncrSend .. => (.sncr, 0x20#8, 0xFF#8)
  | .sncrRecv .. => (.sncr, 0x40#8, 0xFF#8)
  | .snmrTcp .. => (.snmr, 0x21#8, 0xFF#8)
  | .snmrUdp .. => (.snmr, 0x02#8, 0xFF#8)
  | .ctlRead .. => (.hostop, 0x01#8, 0xFF#8)
  | .ctlWrite .. => (.hostop, 0x02#8, 0xFF#8)
  | .ctlReadByte .. => (.hostop, 0x03#8, 0xFF#8)
  | .ctlRead16 .. => (.hostop, 0x04#8, 0xFF#8)
  | .ctlWriteByte .. => (.hostop, 0x05#8, 0xFF#8)
  | .ctlWrite16 .. => (.hostop, 0x06#8, 0xFF#8)
  | .ctlSetIP .. => (.hostop, 0x10#8, 0xFF#8)
  | .ctlGetIP => (.hostop, 0x11#8, 0xFF#8)
  | .ctlGetGW => (.hostop, 0x12#8, 0xFF#8)
  | .ctlSetGW .. => (.hostop, 0x13#8, 0xFF#8)
  | .ctlGetSubnet => (.hostop, 0x14#8, 0xFF#8)
  | .ctlSetSubnet .. => (.hostop, 0x15#8, 0xFF#8)
  | .ctlGetMac => (.hostop, 0x16#8, 0xFF#8)
  | .ctlSetMac .. => (.hostop, 0x17#8, 0xFF#8)
  | .ctlConfigure => (.hostop, 0x20#8, 0xFF#8)
  | .ctlSoftReset => (.hostop, 0x21#8, 0xFF#8)
  | .ctlVerifyId => (.hostop, 0x22#8, 0xFF#8)
  | .sockNew .. => (.hostop, 0x30#8, 0xFF#8)
  | .sockStatus .. => (.hostop, 0x31#8, 0xFF#8)
  | .sockExec .. => (.hostop, 0x32#8, 0xFF#8)
  | .sockOpen .. => (.hostop, 0x33#8, 0xFF#8)
  | .sockListen .. => (.hostop, 0x34#8, 0xFF#8)
  | .sockConnect .. => (.hostop, 0x35#8, 0xFF#8)
  | .sockDisconnect .. => (.hostop, 0x36#8, 0xFF#8)
  | .sockClose .. => (.hostop, 0x37#8, 0xFF#8)
  | .sockRead .. => (.hostop, 0x40#8, 0xFF#8)
  | .sockWrite .. => (.hostop, 0x41#8, 0xFF#8)

/-- The request of an instruction is of its row's format and its opcode byte matches the row. -/
def Statement (i : Instr) : Prop :=
  (encode i).format = (row i).1 ∧ ∃ b, opcodeByte (encode i) = some b ∧ b &&& (row i).2.2 = (row i).2.1

/-- R127: the three low bits of a control byte are the access mode and the length mode. -/
theorem ctrlByte_low (blk : Selector) (w : Bool) : ctrlByte blk w &&& 0x07#8 = if w then 0x04#8 else 0x00#8 := by
  revert blk w
  decide

theorem spiRead (blk : Selector) (off : Half) (len : Nat) : Statement (.spiRead blk off len) := ⟨rfl, _, rfl, ctrlByte_low blk false⟩
theorem spiWrite (blk : Selector) (off : Half) (data : List Byte) : Statement (.spiWrite blk off data) := ⟨rfl, _, rfl, ctrlByte_low blk true⟩
theorem sncrOpen (n : SockIdx) : Statement (.sncrOpen n) := ⟨rfl, _, rfl, by simp [row]⟩
theorem sncrListen (n : SockIdx) : Statement (.sncrListen n) := ⟨rfl, _, rfl, by simp [row]⟩
theorem sncrConnect (n : SockIdx) : Statement (.sncrConnect n) := ⟨rfl, _, rfl, by simp [row]⟩
theorem sncrDiscon (n : SockIdx) : Statement (.sncrDiscon n) := ⟨rfl, _, rfl, by simp [row]⟩
theorem sncrClose (n : SockIdx) : Statement (.sncrClose n) := ⟨rfl, _, rfl, by simp [row]⟩
theorem sncrSend (n : SockIdx) : Statement (.sncrSend n) := ⟨rfl, _, rfl, by simp [row]⟩
theorem sncrRecv (n : SockIdx) : Statement (.sncrRecv n) := ⟨rfl, _, rfl, by simp [row]⟩
theorem snmrTcp (n : SockIdx) : Statement (.snmrTcp n) := ⟨rfl, _, rfl, by simp [row]⟩
theorem snmrUdp (n : SockIdx) : Statement (.snmrUdp n) := ⟨rfl, _, rfl, by simp [row]⟩
theorem ctlRead (blk : Selector) (off : Half) (len : Nat) : Statement (.ctlRead blk off len) := ⟨rfl, _, rfl, by simp [row]⟩
theorem ctlWrite (blk : Selector) (off : Half) (data : List Byte) : Statement (.ctlWrite blk off data) := ⟨rfl, _, rfl, by simp [row]⟩
theorem ctlReadByte (blk : Selector) (off : Half) : Statement (.ctlReadByte blk off) := ⟨rfl, _, rfl, by simp [row]⟩
theorem ctlRead16 (blk : Selector) (off : Half) : Statement (.ctlRead16 blk off) := ⟨rfl, _, rfl, by simp [row]⟩
theorem ctlWriteByte (blk : Selector) (off : Half) (v : Byte) : Statement (.ctlWriteByte blk off v) := ⟨rfl, _, rfl, by simp [row]⟩
theorem ctlWrite16 (blk : Selector) (off : Half) (v : Half) : Statement (.ctlWrite16 blk off v) := ⟨rfl, _, rfl, by simp [row]⟩
theorem ctlSetIP (a : Quad) : Statement (.ctlSetIP a) := ⟨rfl, _, rfl, by simp [row]⟩
theorem ctlGetIP : Statement .ctlGetIP := ⟨rfl, _, rfl, by simp [row]⟩
theorem ctlGetGW : Statement .ctlGetGW := ⟨rfl, _, rfl, by simp [row]⟩
theorem ctlSetGW (a : Quad) : Statement (.ctlSetGW a) := ⟨rfl, _, rfl, by simp [row]⟩
theorem ctlGetSubnet : Statement .ctlGetSubnet := ⟨rfl, _, rfl, by simp [row]⟩
theorem ctlSetSubnet (a : Quad) : Statement (.ctlSetSubnet a) := ⟨rfl, _, rfl, by simp [row]⟩
theorem ctlGetMac : Statement .ctlGetMac := ⟨rfl, _, rfl, by simp [row]⟩
theorem ctlSetMac (a : Mac) : Statement (.ctlSetMac a) := ⟨rfl, _, rfl, by simp [row]⟩
theorem ctlConfigure : Statement .ctlConfigure := ⟨rfl, _, rfl, by simp [row]⟩
theorem ctlSoftReset : Statement .ctlSoftReset := ⟨rfl, _, rfl, by simp [row]⟩
theorem ctlVerifyId : Statement .ctlVerifyId := ⟨rfl, _, rfl, by simp [row]⟩
theorem sockNew (n : Nat) (sTx sRx : Option Nat) : Statement (.sockNew n sTx sRx) := ⟨rfl, _, rfl, by simp [row]⟩
theorem sockStatus (h : Half) : Statement (.sockStatus h) := ⟨rfl, _, rfl, by simp [row]⟩
theorem sockExec (h : Half) (code : Byte) : Statement (.sockExec h code) := ⟨rfl, _, rfl, by simp [row]⟩
theorem sockOpen (h : Half) (protocol : List Byte) (port : Half) : Statement (.sockOpen h protocol port) := ⟨rfl, _, rfl, by simp [row]⟩
theorem sockListen (h : Half) : Statement (.sockListen h) := ⟨rfl, _, rfl, by simp [row]⟩
theorem sockConnect (h : Half) (ip : Quad) (port : Half) : Statement (.sockConnect h ip port) := ⟨rfl, _, rfl, by simp [row]⟩
theorem sockDisconnect (h : Half) : Statement (.sockDisconnect h) := ⟨rfl, _, rfl, by simp [row]⟩
theorem sockClose (h : Half) : Statement (.sockClose h) := ⟨rfl, _, rfl, by simp [row]⟩
theorem sockRead (h : Half) (len : Nat) : Statement (.sockRead h len) := ⟨rfl, _, rfl, by simp [row]⟩
theorem sockWrite (h : Half) (data : List Byte) : Statement (.sockWrite h data) := ⟨rfl, _, rfl, by simp [row]⟩

end Sys2Proof.Laws.OpcodeByte
end

