-- ==== Sys2Proof/Laws/Store.lean ====
section
/-! SUPPORT. What a write to plain storage does to every byte of the address space (R87, R92, R104), the masks of the
circular addresses (R94), and the ends of the two transactions. -/

namespace Sys2Proof.Machine

open Sys2Proof.Safety

theorem BufSize.bytes_pow (size : BufSize) : ∃ k, size.bytes = 2^k ∧ k ≤ 14 ∧ 10 ≤ k := by
  cases size
  exacts [⟨10, by decide⟩, ⟨11, by decide⟩, ⟨12, by decide⟩, ⟨13, by decide⟩, ⟨14, by decide⟩]

theorem mask_eq_mod (size : BufSize) (p : Half) : p &&& BitVec.ofNat 16 (size.bytes - 1) = BitVec.ofNat 16 (p.toNat % size.bytes) := by
  obtain ⟨k, hk, h14, -⟩ := BufSize.bytes_pow size
  apply BitVec.eq_of_toNat_eq
  rw [hk, BitVec.toNat_and, BitVec.toNat_ofNat, BitVec.toNat_ofNat]
  have h1 : 2^k ≤ 2^14 := Nat.pow_le_pow_right (by decide) h14
  have h2 : 0 < 2^k := Nat.two_pow_pos k
  rw [Nat.mod_eq_of_lt (show 2^k - 1 < 2^16 by omega), Nat.and_two_pow_sub_one_eq_mod, Nat.mod_eq_of_lt (a := p.toNat % 2^k) (b := 2^16)]
  have := Nat.mod_lt p.toNat h2
  omega

theorem pointer_add_mod (size : BufSize) (p : Half) (k : Nat) : (p + BitVec.ofNat 16 (k * size.bytes)).toNat % size.bytes = p.toNat % size.bytes := by
  obtain ⟨j, hj, h14, -⟩ := BufSize.bytes_pow size
  rw [BitVec.toNat_add, BitVec.toNat_ofNat, hj]
  have hd : 2^j ∣ 2^16 := Nat.pow_dvd_pow 2 (by omega)
  rw [Nat.mod_mod_of_dvd _ hd, Nat.add_mod, Nat.mod_mod_of_dvd _ hd, Nat.mul_mod_left, Nat.add_zero, Nat.mod_mod]

theorem chipTurn_goto (op : SeqOp) (k : Nat) (s : State) : chipTurn (goto op k s) = goto op k (chipTurn s) := chipTurn_setSeq _ _

theorem ended_of {g : Nat} {s t : State} (h : Ran g s t) (hcs : t.cs = .high) (r : OpResult) : Ended s (complete r t) r :=
  ⟨h.cfg, h.bus, h.handles, h.requests, h.dest, rfl, rfl, rfl, hcs⟩

theorem frameData_get {s : State} {blk : Selector} {off : Half} {n i j : Nat} (hj : j < n) {v : Byte} (d : List Byte) (hd : d = frameData s false blk (off + BitVec.ofNat 16 i) n)
   (h : peek s blk (off + BitVec.ofNat 16 (i + j)) = some v) (hl : j < d.length) : d[j] = v := by
  subst hd
  induction n generalizing i j with
  | zero => omega
  | succ n ih =>
    cases j with
    | zero => simp only [frameData, frameByte]; rw [Nat.add_zero] at h; simp [h]
    | succ j =>
      simp only [frameData, List.getElem_cons_succ, off_succ]
      apply ih (i := i + 1) (by omega)
      rwa [show i + 1 + j = i + (j + 1) by omega]

theorem writeOp_run {s : State} (hs : Clean s) (blk : Selector) (off : Half) (d : List Byte) :
   ∃ t, (Host.Outcome.next (finish ((memWrite blk off d (goto .write 1 s)).andThen fun _ s => .ok .unit s)) : Host.Outcome State Fault Refusal) = .next t ∧ Ended s t (.done .unit) ∧
     t.chip = (storeFrame blk off d (chipTurn s)).chip ∧ t.out = writeFrame blk off d :: s.out ∧ t.clock = s.clock := by
  obtain ⟨t, h1, h2, h3⟩ := memWrite_run (s := goto .write 1 s) ⟨hs.configured, hs.noFault, hs.chipAnswers⟩ blk off d
  rw [chipTurn_goto] at h3
  exact ⟨complete (.done .unit) t, by rw [h1]; rfl, ended_of h2.toRan.ofGoto h2.cs _, h3.trans (storeFrame_congr (s := chipTurn s) (t := goto .write 1 (chipTurn s)) rfl rfl rfl ..), h2.out, h2.now⟩

theorem chipTurn_cfg (s : State) : (chipTurn s).cfg = s.cfg := by
  obtain ⟨c, k, e⟩ := chipOnly_chipTurn s; rw [e]; rfl

/-- One byte of the chip, by what its address names. -/
def peekAt (ch : Chip) : Target → Option Byte
  | .common r i => some (commonByte ch r i)
  | .sock n r i => some (sockByte (ch.sock.get n) r i)
  | .cell key => some (Memory.read ch.mem key)
  | .unnamed => none

theorem peek_eq (s : State) (b : Selector) (o : Half) : peek s b o = peekAt s.chip (target s.cfg b o) := by
  unfold peek peekAt; cases target s.cfg b o <;> rfl

/-- The byte's place lies in its register. -/
def inRange : Target → Prop
  | .common r i => i < r.width
  | .sock _ r i => i < r.width
  | _ => True

theorem findCommon_range {c : Cfg} {off : Half} {l : List CommonReg} {r i} (h : findCommon c off l = some (r, i)) : i < r.width := by
  induction l with
  | nil => cases h
  | cons q rest ih =>
    simp only [findCommon] at h
    split at h
    · cases h; assumption
    · exact ih h

theorem findSock_range {c : Cfg} {off : Half} {l : List SockReg} {r i} (h : findSock c off l = some (r, i)) : i < r.width := by
  induction l with
  | nil => cases h
  | cons q rest ih =>
    simp only [findSock] at h
    split at h
    · cases h; assumption
    · exact ih h

theorem target_range (c : Cfg) (b : Selector) (o : Half) : inRange (target c b o) := by
  unfold target
  split
  · split
    · rename_i h; exact findCommon_range h
    · trivial
  · split
    · split
      · rename_i h; exact findSock_range h
      · trivial
    · split
      · trivial
      · split <;> trivial

theorem quadByte_set (q : Quad) (v : Byte) (i : Nat) : quadByte (setQuadByte q v i) i = v := by
  rcases i with _ | _ | _ | _ <;> rfl
theorem quadByte_set_other (q : Quad) (v : Byte) {i j : Nat} (hi : i < 4) (hj : j < 4) (h : j ≠ i) : quadByte (setQuadByte q v i) j = quadByte q j := by
  have ha : i = 0 ∨ i = 1 ∨ i = 2 ∨ i = 3 := by omega
  have hb : j = 0 ∨ j = 1 ∨ j = 2 ∨ j = 3 := by omega
  rcases ha with rfl | rfl | rfl | rfl <;> rcases hb with rfl | rfl | rfl | rfl <;> first | rfl | (exact absurd rfl h)
theorem macByte_set (q : Mac) (v : Byte) (i : Nat) : macByte (setMacByte q v i) i = v := by
  rcases i with _ | _ | _ | _ | _ | _ <;> rfl
theorem macByte_set_other (q : Mac) (v : Byte) {i j : Nat} (hi : i < 6) (hj : j < 6) (h : j ≠ i) : macByte (setMacByte q v i) j = macByte q j := by
  have ha : i = 0 ∨ i = 1 ∨ i = 2 ∨ i = 3 ∨ i = 4 ∨ i = 5 := by omega
  have hb : j = 0 ∨ j = 1 ∨ j = 2 ∨ j = 3 ∨ j = 4 ∨ j = 5 := by omega
  rcases ha with rfl | rfl | rfl | rfl | rfl | rfl <;> rcases hb with rfl | rfl | rfl | rfl | rfl | rfl <;> first | rfl | (exact absurd rfl h)
theorem halfByteAt_set (q : Half) (v : Byte) (i : Nat) : halfByteAt (setHalfByteAt q v i) i = v := by
  rcases i with _ | i <;> simp [halfByteAt, setHalfByteAt]
theorem halfByteAt_set_other (q : Half) (v : Byte) {i j : Nat} (hi : i < 2) (hj : j < 2) (h : j ≠ i) : halfByteAt (setHalfByteAt q v i) j = halfByteAt q j := by
  have ha : i = 0 ∨ i = 1 := by omega
  have hb : j = 0 ∨ j = 1 := by omega
  rcases ha with rfl | rfl <;> rcases hb with rfl | rfl <;> first | (exact absurd rfl h) | simp [halfByteAt, setHalfByteAt]

theorem commonByte_set (ch : Chip) (r : CommonReg) (i : Nat) (v : Byte) : commonByte (setCommonByte ch r i v) r i = v := by
  cases r <;> simp [commonByte, setCommonByte, quadByte_set, macByte_set]
theorem commonByte_set_other (ch : Chip) (r q : CommonReg) {i j : Nat} (v : Byte) (hi : i < r.width) (hj : j < q.width) (h : ¬(q = r ∧ j = i)) : commonByte (setCommonByte ch r i v) q j = commonByte ch q j := by
  cases r <;> cases q <;> first | rfl | skip
  all_goals simp only [CommonReg.width] at hi hj
  all_goals first
    | (exact absurd ⟨rfl, by omega⟩ h)
    | (exact quadByte_set_other _ _ hi hj (by simpa using h))
    | (exact macByte_set_other _ _ hi hj (by simpa using h))
theorem sockByte_set (k : Socket) (r : SockReg) (i : Nat) (v : Byte) : sockByte (setSockByte k r i v) r i = v := by
  cases r <;> simp [sockByte, setSockByte, quadByte_set, halfByteAt_set]
theorem sockByte_set_other (k : Socket) (r q : SockReg) {i j : Nat} (v : Byte) (hi : i < r.width) (hj : j < q.width) (h : ¬(q = r ∧ j = i)) : sockByte (setSockByte k r i v) q j = sockByte k q j := by
  by_cases hq : q = r
  · subst hq
    have hji : j ≠ i := by simpa using h
    cases q <;> simp only [SockReg.width] at hi hj <;> first
      | (exact absurd ⟨rfl, by omega⟩ h)
      | (exact quadByte_set_other _ _ hi hj hji)
      | (exact halfByteAt_set_other _ _ hi hj hji)
  · cases r <;> cases q <;> first | rfl | (exact absurd rfl hq)

theorem storeByte_plain {s : State} {t : Target} (hp : plainStorage t = true) (hr : inRange t) (v : Byte) (hm : Memory.wf s.chip.mem = true) :
   peekAt (storeByte t v s).chip t = some v ∧ ∀ u, inRange u → u ≠ t → peekAt (storeByte t v s).chip u = peekAt s.chip u := by
  cases t with
  | unnamed => cases hp
  | cell key =>
    refine ⟨congrArg some (Memory.read_write_same hm), fun u hu hne => ?_⟩
    cases u with
    | cell k2 => exact congrArg some (Memory.read_write_other (fun e => hne (by rw [e])) hm)
    | _ => rfl
  | common r i =>
    have e : (storeByte (.common r i) v s).chip = setCommonByte s.chip r i v := by
      cases r <;> first | rfl | cases hp
    rw [e]
    refine ⟨congrArg some (commonByte_set ..), fun u hu hne => ?_⟩
    cases u with
    | common q j => exact congrArg some (commonByte_set_other _ _ _ _ hr hu (fun ⟨a, b⟩ => hne (by rw [a, b])))
    | sock n q j => cases r <;> rfl
    | cell k => cases r <;> rfl
    | unnamed => rfl
  | sock n r i =>
    have e : (storeByte (.sock n r i) v s).chip = withBank s.chip n (setSockByte (bank s n) r i v) := by
      cases r <;> first | rfl | cases hp
    rw [e]
    refine ⟨by simp only [peekAt, bank_withBank, sockByte_set], fun u hu hne => ?_⟩
    cases u with
    | sock m q j =>
      by_cases hmn : m = n
      · subst hmn
        simp only [peekAt, bank_withBank]
        exact congrArg some (sockByte_set_other _ _ _ _ hr hu (fun ⟨a, b⟩ => hne (by rw [a, b])))
      · simp only [peekAt, bank_withBank_other _ hmn]
    | _ => rfl

theorem storeBytes_plain {blk : Selector} {off : Half} {d : List Byte} {i : Nat} {s : State} (hm : Memory.wf s.chip.mem = true)
    (hp : ∀ j, j < d.length → plainStorage (frameTarget s.cfg blk off (i + j)) = true)
    (hd : ∀ j, j < d.length → ∀ k, k < d.length → j ≠ k → frameTarget s.cfg blk off (i + j) ≠ frameTarget s.cfg blk off (i + k)) :
    (∀ j (h : j < d.length), peekAt (storeBytes blk (off + BitVec.ofNat 16 i) d s).chip (frameTarget s.cfg blk off (i + j)) = some d[j]) ∧
    ∀ u, inRange u → (∀ j, j < d.length → u ≠ frameTarget s.cfg blk off (i + j)) → peekAt (storeBytes blk (off + BitVec.ofNat 16 i) d s).chip u = peekAt s.chip u := by
  induction d generalizing i s with
  | nil => exact ⟨fun j h => absurd h (by simp), fun _ _ _ => rfl⟩
  | cons v rest ih =>
    have h0 := hp 0 (by simp)
    rw [Nat.add_zero] at h0
    obtain ⟨s1, s2⟩ := storeByte_plain (s := s) h0 (target_range ..) v hm
    have hc := (ran_chipOnly (chipOnly_storeByte (frameTarget s.cfg blk off i) v s)).cfg
    have hm' := memOk_storeByte (t := frameTarget s.cfg blk off i) (v := v) (s := s) hm
    obtain ⟨i1, i2⟩ := ih (i := i + 1) (s := storeByte (frameTarget s.cfg blk off i) v s) hm'
      (fun j hj => by rw [hc, show i + 1 + j = i + (j + 1) by omega]; exact hp _ (by simpa using hj))
      (fun j hj k hk hjk => by
        rw [hc, show i + 1 + j = i + (j + 1) by omega, show i + 1 + k = i + (k + 1) by omega]
        exact hd _ (by simpa using hj) _ (by simpa using hk) (by omega))
    rw [hc] at i1 i2
    simp only [storeBytes, off_succ]
    constructor
    · intro j hj
      cases j with
      | zero =>
        rw [show target s.cfg blk (off + BitVec.ofNat 16 i) = frameTarget s.cfg blk off i from rfl, i2 (frameTarget s.cfg blk off (i + 0)) (target_range ..) ?_, Nat.add_zero, s1]; rfl
        intro k hk
        have := hd 0 (by simp) (k + 1) (by simpa using hk) (by omega)
        rwa [show i + (k + 1) = i + 1 + k by omega] at this
      | succ j =>
        have := i1 j (by simpa using hj)
        rwa [show i + 1 + j = i + (j + 1) by omega] at this
    · intro u hu hne
      rw [show target s.cfg blk (off + BitVec.ofNat 16 i) = frameTarget s.cfg blk off i from rfl, i2 u hu ?_, s2 u hu ?_]
      · have := hne 0 (by simp); rwa [Nat.add_zero] at this
      · intro j hj
        have := hne (j + 1) (by simpa using hj)
        rwa [show i + (j + 1) = i + 1 + j by omega] at this

theorem plain_named {t : Target} (h : plainStorage t = true) : t ≠ .unnamed := by
  rintro rfl; cases h

theorem storeFrame_plain {blk : Selector} {off : Half} {d : List Byte} {s : State} (hm : Memory.wf s.chip.mem = true)
   (hp : PlainWrite s.cfg blk off d.length) {t : State} (hc : t.cfg = s.cfg) (ht : t.chip = (storeFrame blk off d s).chip) : Stored s t blk off d := by
  have hu := touchesUnnamed_false (c := s.cfg) (blk := blk) (off := off) (n := d.length) (i := 0)
    (fun j hj => by rw [Nat.zero_add]; exact plain_named (hp.1 j hj))
  rw [off_zero] at hu
  have e : t.chip = (storeBytes blk off d s).chip := by rw [ht, storeFrame, hu]; rfl
  obtain ⟨a, b⟩ := storeBytes_plain (i := 0) (off := off) (blk := blk) (d := d) hm (fun j hj => by rw [Nat.zero_add]; exact hp.1 j hj)
    (fun j hj k hk hjk => by rw [Nat.zero_add, Nat.zero_add]; exact hp.2 j hj k hk hjk)
  rw [off_zero] at a b
  constructor
  · intro i h
    rw [peek_eq, hc, e]
    have := a i h; rwa [Nat.zero_add] at this
  · intro bl o h
    rw [peek_eq, peek_eq, hc, e]
    exact b _ (target_range ..) (fun j hj => by rw [Nat.zero_add]; exact h j hj)

end Sys2Proof.Machine
end

