-- ==== Sys2Proof/Tests/Slice0.lean ====
section
/-! SUPPORT. Tests: ill-formed terms, words written out from the encodings, one-step vectors of 95_test_vectors.md, and for
each statement with hypotheses a state and operands that meet them. -/

namespace Sys2Proof.Tests

open Sys2Proof Sys2Proof.Machine Sys2Proof.Safety

/-! Well-formedness -/

theorem test_index_must_fit_a_byte :
    WellFormed (.sockNew 255 none none) = true ∧ WellFormed (.sockNew 256 none none) = false := by decide

theorem test_tx_size_must_fit :
    WellFormed (.sockNew 0 (some 4294967295) none) = true ∧ WellFormed (.sockNew 0 (some 4294967296) none) = false := by
  decide

theorem test_rx_size_must_fit : WellFormed (.sockNew 0 none (some 4294967296)) = false := by decide

/-! Decoding: R121 and 2.1, 2.2 of the vectors; R131, R132; R137 -/

theorem test_decode_frames :
    decode ⟨.spihdr, [0xFF#8, 0xFF#8, 0b11111000#8, 0x00#8, 0x00#8]⟩ = .ok (.spiRead 31#5 0xFFFF#16 2) ∧
      decode ⟨.spihdr, [0x07#8, 0xFC#8, 0b00010100#8, 0x01#8, 0x02#8, 0x03#8]⟩ =
        .ok (.spiWrite 2#5 0x07FC#16 [0x01#8, 0x02#8, 0x03#8]) ∧
      decode ⟨.spihdr, [0x00#8, 0x03#8, 0b00001000#8]⟩ = .ok (.spiRead 1#5 0x0003#16 0) ∧
      decode ⟨.spihdr, [0x00#8, 0x00#8, 0b00010111#8]⟩ = .error (.reservedLengthMode 3#2) := by decide

theorem test_decode_commands :
    decode ⟨.sncr, [0b00000001#8, 0x00#8]⟩ = .ok (.sncrOpen 0) ∧
      decode ⟨.sncr, [0b00000010#8, 0x01#8]⟩ = .ok (.sncrListen 1) ∧
      decode ⟨.sncr, [0b00000100#8, 0x02#8]⟩ = .ok (.sncrConnect 2) ∧
      decode ⟨.sncr, [0b00001000#8, 0x03#8]⟩ = .ok (.sncrDiscon 3) ∧
      decode ⟨.sncr, [0b00010000#8, 0x04#8]⟩ = .ok (.sncrClose 4) ∧
      decode ⟨.sncr, [0b00100000#8, 0x05#8]⟩ = .ok (.sncrSend 5) ∧
      decode ⟨.sncr, [0b01000000#8, 0x07#8]⟩ = .ok (.sncrRecv 7) ∧
      decode ⟨.sncr, [0b00000011#8, 0x00#8]⟩ = .error (.reservedCommand 0x03#8) := by decide

theorem test_decode_modes :
    decode ⟨.snmr, [0b00100001#8, 0x07#8]⟩ = .ok (.snmrTcp 7) ∧
      decode ⟨.snmr, [0b00000010#8, 0x00#8]⟩ = .ok (.snmrUdp 0) ∧
      decode ⟨.snmr, [0b00000001#8, 0x00#8]⟩ = .error (.reservedMode 0x01#8) := by decide

theorem test_decode_memory_operations :
    decode ⟨.hostop, [0x01#8, 0x02#8, 0x12#8, 0x34#8, 0x00#8]⟩ = .ok (.ctlRead 2#5 0x1234#16 1) ∧
      decode ⟨.hostop, [0x02#8, 0x02#8, 0x12#8, 0x34#8, 0xAB#8]⟩ = .ok (.ctlWrite 2#5 0x1234#16 [0xAB#8]) ∧
      decode ⟨.hostop, [0x03#8, 0x1F#8, 0x00#8, 0x39#8]⟩ = .ok (.ctlReadByte 31#5 0x0039#16) ∧
      decode ⟨.hostop, [0x04#8, 0x01#8, 0x00#8, 0x26#8]⟩ = .ok (.ctlRead16 1#5 0x0026#16) ∧
      decode ⟨.hostop, [0x05#8, 0x00#8, 0x00#8, 0x00#8, 0x80#8]⟩ = .ok (.ctlWriteByte 0#5 0#16 0x80#8) ∧
      decode ⟨.hostop, [0x06#8, 0x01#8, 0x00#8, 0x04#8, 0xC3#8, 0xE8#8]⟩ = .ok (.ctlWrite16 1#5 4#16 0xC3E8#16) := by
  decide

theorem test_decode_address_operations :
    decode ⟨.hostop, [0x10#8, 0x01#8, 0x02#8, 0x03#8, 0x04#8]⟩ = .ok (.ctlSetIP ⟨1, 2, 3, 4⟩) ∧
      decode ⟨.hostop, [0x11#8]⟩ = .ok .ctlGetIP ∧ decode ⟨.hostop, [0x12#8]⟩ = .ok .ctlGetGW ∧
      decode ⟨.hostop, [0x13#8, 0x01#8, 0x02#8, 0x03#8, 0x04#8]⟩ = .ok (.ctlSetGW ⟨1, 2, 3, 4⟩) ∧
      decode ⟨.hostop, [0x14#8]⟩ = .ok .ctlGetSubnet ∧
      decode ⟨.hostop, [0x15#8, 0x01#8, 0x02#8, 0x03#8, 0x04#8]⟩ = .ok (.ctlSetSubnet ⟨1, 2, 3, 4⟩) ∧
      decode ⟨.hostop, [0x16#8]⟩ = .ok .ctlGetMac ∧
      decode ⟨.hostop, [0x17#8, 0x01#8, 0x02#8, 0x03#8, 0x04#8, 0x05#8, 0x06#8]⟩ =
        .ok (.ctlSetMac ⟨1, 2, 3, 4, 5, 6⟩) := by decide

theorem test_decode_control_operations :
    decode ⟨.hostop, [0x20#8]⟩ = .ok .ctlConfigure ∧ decode ⟨.hostop, [0x21#8]⟩ = .ok .ctlSoftReset ∧
      decode ⟨.hostop, [0x22#8]⟩ = .ok .ctlVerifyId ∧
      decode ⟨.hostop, [0x22#8, 0x00#8]⟩ = .error .malformed ∧
      decode ⟨.hostop, [0x23#8]⟩ = .error (.unknownOperation 0x23#8) := by decide

theorem test_decode_socket_operations :
    decode ⟨.hostop, [0x30#8, 0x07#8, 0x01#8, 0x00#8, 0x00#8, 0x08#8, 0x00#8, 0x00#8]⟩ =
        .ok (.sockNew 7 (some 2048) none) ∧
      decode ⟨.hostop, [0x31#8, 0x01#8, 0x02#8]⟩ = .ok (.sockStatus 0x0102#16) ∧
      decode ⟨.hostop, [0x32#8, 0x00#8, 0x01#8, 0x40#8]⟩ = .ok (.sockExec 1#16 0x40#8) ∧
      decode ⟨.hostop, [0x33#8, 0x00#8, 0x01#8, 0x13#8, 0x88#8, 0x74#8, 0x63#8, 0x70#8]⟩ =
        .ok (.sockOpen 1#16 [0x74#8, 0x63#8, 0x70#8] 5000#16) ∧
      decode ⟨.hostop, [0x34#8, 0x00#8, 0x01#8]⟩ = .ok (.sockListen 1#16) ∧
      decode ⟨.hostop, [0x35#8, 0x00#8, 0x01#8, 0x0A#8, 0x00#8, 0x00#8, 0x01#8, 0x00#8, 0x50#8]⟩ =
        .ok (.sockConnect 1#16 ⟨10, 0, 0, 1⟩ 80#16) ∧
      decode ⟨.hostop, [0x36#8, 0x00#8, 0x01#8]⟩ = .ok (.sockDisconnect 1#16) ∧
      decode ⟨.hostop, [0x37#8, 0x00#8, 0x01#8]⟩ = .ok (.sockClose 1#16) ∧
      decode ⟨.hostop, [0x40#8, 0x00#8, 0x01#8, 0x00#8, 0x00#8]⟩ = .ok (.sockRead 1#16 2) ∧
      decode ⟨.hostop, [0x41#8, 0x00#8, 0x01#8, 0x55#8]⟩ = .ok (.sockWrite 1#16 [0x55#8]) := by decide

/-! States for the vectors and the witnesses -/

/-- A configured block and a chip just reset, with the steps the chip takes in the gaps to come. -/
def ready (events : List (List ChipEvent)) : State :=
  { State.reset with
    bus := some ⟨8300000, true, ⟨false, false⟩⟩, cs := .high, env := { State.reset.env with chip := events } }

/-- `n` quiet gaps, then one with the steps `e`. -/
def after (n : Nat) (e : List ChipEvent) : List (List ChipEvent) := List.replicate n [] ++ [e]

/-- A state with another bank for socket 0. -/
def withSock (q : Socket) (s : State) : State := s.setChip (withBank s.chip 0 q)

/-- The bank of a socket in a status. -/
def inStatus (v : Byte) : Socket := { Socket.reset with sr := v }

/-- The handle that reset leaves. -/
def hd0 : Handle := ⟨0, .s2048, .s2048⟩

/-- The result, of a next state. -/
def resultAfter (o : Host.Outcome State Fault Refusal) : Option OpResult :=
  match o with
  | .next t => t.result
  | .fault _ | .refused _ => none

/-- The boundary trace of a next state, oldest first. -/
def traceAfter (o : Host.Outcome State Fault Refusal) : List BusAct :=
  match o with
  | .next t => t.out.reverse
  | .fault _ | .refused _ => []

/-- One value of a next state. -/
def look {α : Type} (f : State → α) (o : Host.Outcome State Fault Refusal) : Option α :=
  match o with
  | .next t => some (f t)
  | .fault _ | .refused _ => none

/-! One-step vectors -/

/-- 2.2: `Rd16(1, 0x0020)` with data 08 00 gives 2048. -/
theorem test_read16_high_byte_first :
    resultAfter (exec (.ctlRead16 1#5 0x0020#16) (ready [])) = some (.done (.half 2048#16)) ∧
      traceAfter (exec (.ctlRead16 1#5 0x0020#16) (ready [])) = [.frame #v[0x00#8, 0x20#8, 0x08#8] [0x08#8, 0x00#8]] := by
  decide +kernel

/-- 2.2: `Wr16(1, 0x0004, 0xC3E8)`. -/
theorem test_write16_high_byte_first :
    traceAfter (exec (.ctlWrite16 1#5 0x0004#16 0xC3E8#16) (ready [])) =
        [.frame #v[0x00#8, 0x04#8, 0x0C#8] [0xC3#8, 0xE8#8]] ∧
      look (fun t => (bank t 0).port) (exec (.ctlWrite16 1#5 0x0004#16 0xC3E8#16) (ready [])) = some 0xC3E8#16 := by
  decide +kernel

/-- R87: a frame at offset 0xFFFF goes on at offset 0 of the same block. -/
theorem test_frame_wraps_in_its_block :
    look (fun t => t.chip.mem) (exec (.ctlWrite 2#5 0xFFFF#16 [0x11#8, 0x22#8]) (ready [])) =
      some [(2 * 65536, 0x22#8), (2 * 65536 + 2047, 0x11#8)] := by decide +kernel

/-- R37: writing one clears. -/
theorem test_interrupt_bits_clear_on_one :
    look (fun t => (bank t 0).ir) (exec (.ctlWriteByte 1#5 0x0002#16 0x10#8)
      (withSock { Socket.reset with ir := 0x13#8 } (ready []))) = some 0x03#8 := by decide +kernel

/-- R167: SetIP writes SIPR in one frame. -/
theorem test_set_ip :
    traceAfter (exec (.ctlSetIP ⟨192, 168, 1, 10⟩) (ready [])) =
      [.frame #v[0x00#8, 0x0F#8, 0x04#8] [192#8, 168#8, 1#8, 10#8]] := by decide +kernel

/-- R193: another version fails at stage 4 with the byte. -/
theorem test_wrong_version :
    resultAfter (exec .ctlVerifyId ((ready []).setChip { Chip.reset with versionr := 0x51#8 })) =
      some (.failed (.chipNotDetected 4 0x51#8)) := by decide +kernel

/-- S3: a command register that clears at the second read. -/
theorem test_exec_two_polls :
    resultAfter (exec (.sockExec 0#16 0x40#8) (ready (after 2 [.accept 0]))) = some (.done .unit) ∧
      traceAfter (exec (.sockExec 0#16 0x40#8) (ready (after 2 [.accept 0]))) =
        [.frame #v[0x00#8, 0x01#8, 0x0C#8] [0x40#8], .frame #v[0x00#8, 0x01#8, 0x08#8] [0x40#8], .sleep 1,
          .frame #v[0x00#8, 0x01#8, 0x08#8] [0x00#8]] := by decide +kernel

/-- S6: nothing received, CLOSE_WAIT and ESTABLISHED. -/
theorem test_read_end_of_stream :
    resultAfter (exec (.sockRead 0#16 8) (withSock (inStatus 0x1C#8) (ready []))) =
        some (.stream 0 (some .endOfStream)) ∧
      resultAfter (exec (.sockRead 0#16 8) (withSock (inStatus 0x17#8) (ready []))) = some (.stream 0 none) := by
  decide +kernel

/-- S7: 2049 bytes into 2048. -/
theorem test_write_oversize :
    resultAfter (exec (.sockWrite 0#16 (List.replicate 2049 0#8)) (ready [])) =
        some (.stream 0 (some (.payloadTooLarge 2049 2048))) ∧
      traceAfter (exec (.sockWrite 0#16 (List.replicate 2049 0#8)) (ready [])) = [] := by decide +kernel

/-- 2.3: the receive addresses of the table. -/
theorem test_receive_addresses :
    rxAddr familyCfg 0 .s2048 0xFFFF#16 = 0x07FF#16 ∧ rxAddr familyCfg 3 .s4096 0x1234#16 = 0x3234#16 ∧
      rxAddr familyCfg 7 .s16384 0x7FFF#16 = 0xFFFF#16 := by decide

/-- 2.3: the transmit addresses of the table. -/
theorem test_transmit_addresses :
    txAddr 0 .s2048 0x0800#16 = 0x0800#16 ∧ txAddr 1 .s2048 0xF900#16 = 0x0100#16 ∧
      txAddr 7 .s16384 0x7FFF#16 = 0x3FFF#16 := by decide

/-- R214: the smallest and the largest port, and a draw equal to the span. -/
theorem test_ephemeral_ports :
    ephemeralPort 0 = 49152#16 ∧ ephemeralPort 16382 = 65534#16 ∧ ephemeralPort 16383 = 49152#16 := by decide

/-- R277: OPEN on a CLOSED socket with the UDP mode byte gives UDP. -/
theorem test_open_command_udp :
    look (fun t => (bank t 0).sr) (exec (.sncrOpen 0) (withSock { Socket.reset with mr := 0x02#8 } (ready []))) =
      some 0x22#8 := by decide +kernel

/-- R283: RECV lowers the received size by the bytes taken. -/
theorem test_recv_command :
    look (fun t => (bank t 0).rxRsr)
      (exec (.sncrRecv 0) (withSock { Socket.reset with rxRsr := 10#16, rxRd := 3#16 } (ready []))) = some 7#16 := by
  decide +kernel

/-- R282: SEND reports the bytes between the pointers as sent and sets bit 4. -/
theorem test_send_command :
    look (fun t => ((bank t 0).sent, (bank t 0).ir, (bank t 0).txRd))
      (exec (.sncrSend 0) (withSock { inStatus 0x17#8 with txWr := 2#16 }
        ((ready []).setChip { Chip.reset with mem := [(2 * 65536, 0xAA#8), (2 * 65536 + 1, 0xBB#8)] }))) =
      some ([0xAA#8, 0xBB#8], 0x10#8, 2#16) := by decide +kernel

/-- P1 of the vectors: the nine frames of Configure. -/
theorem test_configure_trace :
    traceAfter (exec .ctlConfigure (State.reset.setEnv { State.reset.env with chip := after 1 [.resetDone] })) =
      [.frame #v[0x00#8, 0x00#8, 0x04#8] [0x80#8], .frame #v[0x00#8, 0x00#8, 0x00#8] [0x00#8],
        .frame #v[0x00#8, 0x00#8, 0x04#8] [0x08#8], .frame #v[0x00#8, 0x00#8, 0x00#8] [0x08#8],
        .frame #v[0x00#8, 0x00#8, 0x04#8] [0x10#8], .frame #v[0x00#8, 0x00#8, 0x00#8] [0x10#8],
        .frame #v[0x00#8, 0x00#8, 0x04#8] [0x00#8], .frame #v[0x00#8, 0x00#8, 0x00#8] [0x00#8],
        .frame #v[0x00#8, 0x39#8, 0x00#8] [0x04#8]] := by decide +kernel

/-- P4 of the vectors, with two bytes of payload: send-ok at the second look. -/
theorem test_write_send_ok_at_second_look :
    traceAfter (exec (.sockWrite 0#16 [0x30#8, 0x31#8]) (withSock
        { inStatus 0x17#8 with txWr := 0x07FC#16, txRd := 0x07FC#16 } (ready (after 6 [.accept 0] ++ after 2 [.perform 0])))) =
      [.frame #v[0x00#8, 0x03#8, 0x08#8] [0x17#8], .frame #v[0x00#8, 0x20#8, 0x08#8] [0x08#8, 0x00#8],
        .frame #v[0x00#8, 0x24#8, 0x08#8] [0x07#8, 0xFC#8], .frame #v[0x07#8, 0xFC#8, 0x14#8] [0x30#8, 0x31#8],
        .frame #v[0x00#8, 0x24#8, 0x0C#8] [0x07#8, 0xFE#8], .frame #v[0x00#8, 0x01#8, 0x0C#8] [0x20#8],
        .frame #v[0x00#8, 0x01#8, 0x08#8] [0x00#8], .frame #v[0x00#8, 0x02#8, 0x08#8] [0x00#8],
        .frame #v[0x00#8, 0x03#8, 0x08#8] [0x17#8], .sleep 1, .frame #v[0x00#8, 0x02#8, 0x08#8] [0x10#8]] := by decide +kernel

/-- U4: 0x00 in the command register is no command the chip knows: it may show another value then. -/
theorem test_exec_zero_may_fail :
    resultAfter (exec (.sockExec 0#16 0x00#8) (ready (after 1 [.crShows 0 0x05#8]))) =
      some (.failed (.invalidCommandState 0x00#8 0x05#8)) := by decide +kernel

/-- R45, R282: of a SEND in progress a part can go out; R108: the last byte of it, and a byte of no SEND, does not
go out this way. -/
theorem test_sent_up_to :
    let at' (cmds : List Byte) (v : Half) := look (fun t => ((bank t 0).sent, (bank t 0).txRd, (bank t 0).ir))
      (.next (chipStep (withSock { inStatus 0x17#8 with txWr := 2#16, inProgress := cmds }
        ((ready []).setChip { Chip.reset with mem := [(2 * 65536, 0xAA#8), (2 * 65536 + 1, 0xBB#8)] }))
          (.sentUpTo 0 v)))
    at' [0x20#8] 1#16 = some ([0xAA#8], 1#16, 0x00#8) ∧ at' [0x20#8] 2#16 = some ([], 0#16, 0x00#8) ∧
      at' [] 1#16 = some ([], 0#16, 0x00#8) := by decide +kernel

/-- R282, R291: a SEND whose bytes went out in parts sends the last of them and sets bit 4 at its effect. -/
theorem test_send_in_parts_completes :
    look (fun t => ((bank t 0).sent, (bank t 0).txRd, (bank t 0).ir &&& 0x10#8))
      (.next ([ChipEvent.sentUpTo 0 1#16, .sentUpTo 0 2#16, .perform 0].foldl chipStep
        (withSock { inStatus 0x17#8 with txWr := 2#16, inProgress := [0x20#8] }
          ((ready []).setChip { Chip.reset with mem := [(2 * 65536, 0xAA#8), (2 * 65536 + 1, 0xBB#8)] })))) =
      some ([0xAA#8, 0xBB#8], 2#16, 0x10#8) := by decide +kernel

/-- R276: a fault never shows 0x00, and what it shows is not what is taken; R108: only SEND sets bit 4. -/
theorem test_chip_faults_and_flags :
    chipStep (withSock (commanded Socket.reset 0x40#8) (ready [])) (.crShows 0 0x00#8) =
        withSock (commanded Socket.reset 0x40#8) (ready []) ∧
      (bank ([ChipEvent.crShows 0 0x03#8, .accept 0].foldl chipStep
        (withSock (commanded Socket.reset 0x40#8) (ready []))) 0).inProgress = [0x40#8] ∧
      (bank (chipStep (ready []) (.setFlags 0 0x1F#8)) 0).ir = 0x0F#8 := by decide +kernel

/-! Witnesses: for each statement with hypotheses, a state and operands that meet them -/

theorem ready_clean (events : List (List ChipEvent)) : Clean (ready events) := ⟨rfl, rfl, rfl⟩

theorem family_common_disjoint : CommonDisjoint familyCfg := by decide +kernel

theorem family_sock_disjoint : SockDisjoint familyCfg := by decide +kernel

theorem family_cfg_ok : CfgOk familyCfg :=
  ⟨family_common_disjoint, family_sock_disjoint, by decide, by decide, by decide⟩

theorem gap_before (n j : Nat) (e : List ChipEvent) (h : j < n) : (after n e).getD j [] = [] := by
  simp [after, List.getD, List.getElem?_append_left, h]

theorem gap_at (n : Nat) (e : List ChipEvent) : (after n e).getD n [] = e := by
  simp [after, List.getD]

theorem ready_quiet (n k : Nat) (e : List ChipEvent) (h : k ≤ n) : QuietFor (ready (after n e)) k :=
  fun j hj => gap_before n j e (Nat.lt_of_lt_of_le hj h)

theorem ready_accepts (k m : Nat) (n : SockIdx) : Accepts (ready (after (k + m) [.accept n])) n k m :=
  ⟨fun j hj => gap_before (k + m) (k + j) _ (by omega), gap_at (k + m) _⟩

theorem result_of {o : Host.Outcome State Fault Refusal} {r : OpResult} (h : resultAfter o = some r) :
    ∃ t, o = .next t ∧ t.result = some r := by
  cases o with
  | next t => exact ⟨t, rfl, h⟩
  | fault _ => cases h
  | refused _ => cases h

theorem witness_DecodeEncode : WellFormed (.sockNew 255 (some 4294967295) none) = true := by decide

theorem witness_FrameDecodes :
    (ctrlMode 0xF8#8 = 0#2 ∧ ctrlWrite 0xF8#8 = false) ∧ (ctrlMode 0xFC#8 = 0#2 ∧ ctrlWrite 0xFC#8 = true) ∧
      (ctrlMode 0x17#8 ≠ 0#2 ∧ ∃ s : State, s.seq = .idle ∧ s.requests = [⟨.spihdr, [0x00#8, 0x00#8, 0x17#8]⟩]) :=
  ⟨by decide, by decide, by decide, placeRequest ⟨.spihdr, [0x00#8, 0x00#8, 0x17#8]⟩ State.reset, rfl, rfl⟩

theorem witness_StepRunsDecoded :
    ∃ (s : State) (r : Request) (rest : List Request) (i : Instr),
      s.seq = .idle ∧ s.requests = r :: rest ∧ decode r = .ok i :=
  ⟨placeRequest ⟨.hostop, [0x22#8]⟩ State.reset, ⟨.hostop, [0x22#8]⟩, [], .ctlVerifyId, rfl, rfl, rfl⟩

theorem witness_StepWaits : State.reset.seq = .idle ∧ State.reset.requests = [] := ⟨rfl, rfl⟩

theorem witness_FetchedWordRuns :
    decodeTableWord 24 0x003900 = some (.spiRead 0#5 0x0039#16 0) ∧ decodeTableWord 8 0x22 = some .ctlVerifyId := by
  decide

theorem witness_UnknownOperationRefused :
    ∃ (s : State) (rest : List Request), s.seq = .idle ∧ s.requests = ⟨.hostop, [0x42#8]⟩ :: rest ∧
      (0x42#8).toNat ∉ [0x01, 0x02, 0x03, 0x04, 0x05, 0x06, 0x10, 0x11, 0x12, 0x13, 0x14, 0x15, 0x16, 0x17, 0x20, 0x21,
        0x22, 0x30, 0x31, 0x32, 0x33, 0x34, 0x35, 0x36, 0x37, 0x40, 0x41] :=
  ⟨placeRequest ⟨.hostop, [0x42#8]⟩ State.reset, [], rfl, rfl, by decide⟩

theorem witness_MissingHandleRefused :
    handleNumber (.sockClose 1#16) = some 1#16 ∧ handleOf State.reset 1#16 = none := by decide

theorem reset_inv : Inv State.reset := ⟨rfl, by decide, by decide, rfl, rfl⟩

theorem witness_StepKeepsInv : ∃ s t : State, Inv s ∧ step s = .next t := ⟨State.reset, _, reset_inv, rfl⟩

theorem witness_StepOnlyAdds : ∃ s t : State, step s = .next t := ⟨State.reset, _, rfl⟩

theorem witness_ResultsAreTheOperations :
    (chipSide (.sncrOpen 0) = true ∧ ∃ t, exec (.sncrOpen 0) State.reset = .next t) ∧
      (chipSide .ctlGetIP = false ∧ ∃ t, exec .ctlGetIP State.reset = .next t) := ⟨⟨rfl, _, rfl⟩, rfl, _, rfl⟩

theorem witness_FramesStayInOwnBlocks : ∃ s t, exec (.sockStatus 0#16) s = .next t := ⟨ready [], _, rfl⟩

theorem witness_ReadCompletes : Clean (ready []) ∧ peek (chipTurn (ready [])) 0#5 0x0039#16 = some 0x04#8 :=
  ⟨ready_clean [], by decide⟩

theorem witness_FixedWidthReadsComplete :
    Clean (ready []) ∧ peek (chipTurn (ready [])) 1#5 0x0020#16 = some 0x08#8 ∧
      peek (chipTurn (ready [])) 1#5 (0x0020#16 + 1) = some 0x00#8 := ⟨ready_clean [], by decide, by decide⟩

/-- Each clause: a buffer frame that wraps at the top of its block, a byte and a 16-bit register. -/
theorem witness_WriteStores :
    Clean (ready []) ∧ Memory.wf (ready []).chip.mem = true ∧ PlainWrite familyCfg 30#5 0xFFFF#16 2 ∧
      PlainWrite familyCfg 1#5 0x0000#16 [0x21#8].length ∧
      PlainWrite familyCfg 1#5 0x0024#16 [(0x1234#16).extractLsb' 8 8, (0x1234#16).extractLsb' 0 8].length :=
  ⟨ready_clean [], rfl, ⟨by decide, by decide⟩, ⟨by decide, by decide⟩, by decide, by decide⟩

theorem witness_ModeRegisterWrites :
    Clean (ready []) ∧ CommonDisjoint (ready []).cfg ∧ (chipTurn (ready [])).chip.resetting = false ∧
      (0x80#8).getLsbD 7 = true := ⟨ready_clean [], family_common_disjoint, rfl, by decide⟩

theorem witness_InterruptWriteClearsOnes : Clean (ready []) ∧ SockDisjoint (ready []).cfg :=
  ⟨ready_clean [], family_sock_disjoint⟩

/-- Each clause: the header transfer fails, the data transfer fails; Status in whose one transaction the data transfer
fails. -/
theorem witness_TransferFailureEnds :
    (∃ s : State, s.bus.isSome = true ∧ s.env.transfers = some 5 :: []) ∧
      (∃ s : State, s.bus.isSome = true ∧ s.env.transfers = none :: some 5 :: []) ∧
      ∃ s t : State, chipSide (.sockStatus 0#16) = false ∧ exec (.sockStatus 0#16) s = .next t ∧
        t.result = some (.failed (.ioError 5)) :=
  ⟨⟨(ready []).setEnv { State.reset.env with transfers := [some 5] }, rfl, rfl⟩,
    ⟨(ready []).setEnv { State.reset.env with transfers := [none, some 5] }, rfl, rfl⟩,
    let ⟨t, h⟩ := result_of
      (show resultAfter (exec (.sockStatus 0#16)
        ((ready []).setEnv { State.reset.env with transfers := [none, some 5] })) = some (.failed (.ioError 5)) by
          decide +kernel)
    ⟨_, t, rfl, h⟩⟩

theorem witness_AddressSettersStore : Clean (ready []) ∧ CommonDisjoint (ready []).cfg :=
  ⟨ready_clean [], family_common_disjoint⟩

theorem witness_AddressGettersRead :
    Clean (ready []) ∧ CommonDisjoint (ready []).cfg ∧ (chipTurn (ready [])).chip.sipr = ⟨0, 0, 0, 0⟩ :=
  ⟨ready_clean [], family_common_disjoint, rfl⟩

/-- The first and the last poll that may see the reset complete. -/
theorem witness_SoftResetCompletes (m : Nat) (_ : m = 1 ∨ m = 20) :
    Clean (ready (after m [.resetDone])) ∧ CommonDisjoint familyCfg ∧ 1 ≤ m ∧ m ≤ 20 ∧
      QuietFor (ready (after m [.resetDone])) m ∧ gapAt (ready (after m [.resetDone])) m = [.resetDone] :=
  ⟨ready_clean _, family_common_disjoint, by omega, by omega, ready_quiet _ _ _ (Nat.le_refl _), gap_at _ _⟩

theorem witness_SoftResetTimesOut :
    Clean (ready (after 21 [.resetDone])) ∧ CommonDisjoint familyCfg ∧ QuietFor (ready (after 21 [.resetDone])) 21 :=
  ⟨ready_clean _, family_common_disjoint, ready_quiet _ _ _ (Nat.le_refl _)⟩

theorem witness_VerifyIdentityCompletes :
    Clean (ready []) ∧ CommonDisjoint familyCfg ∧ QuietFor (ready []) 7 ∧ (ready []).chip.resetting = false :=
  ⟨ready_clean _, family_common_disjoint, by decide, rfl⟩

/-- A block just constructed: no setting of the bus is needed before Configure. -/
theorem witness_ConfigureCompletes :
    ∃ s : State, s.bus = none ∧ s.env.transfers = [] ∧ s.env.missed = [] ∧ CommonDisjoint s.cfg ∧ QuietFor s 3 ∧
      gapAt s 3 = [.resetDone] ∧ ∀ j, j < 7 → gapAt s (3 + 1 + j) = [] :=
  ⟨State.reset.setEnv { State.reset.env with chip := after 3 [.resetDone] }, rfl, rfl, rfl, family_common_disjoint, by decide,
    by decide, by decide⟩

theorem witness_ConfigureWrapsErrors :
    ∃ s t e, exec .ctlConfigure s = .next t ∧ t.result = some (.failed e) :=
  let ⟨t, h⟩ := result_of
    (show resultAfter (exec .ctlConfigure (State.reset.setEnv { State.reset.env with transfers := [some 7] })) =
      some (.failed (.configurationError (.ioError 7))) by decide +kernel)
  ⟨_, t, _, h⟩

theorem witness_NewSocketMakesHandle :
    (some 16384 = some BufSize.s16384.bytes ∨ (some 16384 : Option Nat) = none ∧ BufSize.s16384 = .s2048) ∧
      ((none : Option Nat) = some BufSize.s2048.bytes ∨ (none : Option Nat) = none ∧ BufSize.s2048 = .s2048) := by decide

/-- The clauses: index 8, a transmit size of 1023, a receive size of 16385. -/
theorem witness_NewSocketRefuses :
    7 < 8 ∧ ((some 1023 = some 1023 ∨ none = some 1023) ∧ 1023 ∉ [1024, 2048, 4096, 8192, 16384]) ∧
      (some 1024 = some 16385 ∨ some 16385 = some 16385) ∧ 16385 ∉ [1024, 2048, 4096, 8192, 16384] := by decide

theorem witness_StatusCompletes :
    Clean (ready []) ∧ SockDisjoint familyCfg ∧ handleOf (ready []) 0#16 = some hd0 :=
  ⟨ready_clean _, family_sock_disjoint, by decide⟩

/-- Both clauses: taken before the first and before the tenth poll; the code 0x00. -/
theorem witness_CommandCompletes (m : Nat) (_ : m = 1 ∨ m = 10) :
    Clean (ready (after (0 + m) [.accept 0])) ∧ SockDisjoint familyCfg ∧ handleOf (ready []) 0#16 = some hd0 ∧
      (1 ≤ m ∧ m ≤ 10 ∧ Accepts (ready (after (0 + m) [.accept 0])) hd0.n 0 m) ∧ QuietFor (ready []) 2 :=
  ⟨ready_clean _, family_sock_disjoint, by decide, ⟨by omega, by omega, ready_accepts 0 m 0⟩, by decide⟩

theorem witness_CommandTimesOut :
    Clean (ready []) ∧ SockDisjoint familyCfg ∧ handleOf (ready []) 0#16 = some hd0 ∧ QuietFor (ready []) 11 :=
  ⟨ready_clean _, family_sock_disjoint, by decide, by decide⟩

theorem witness_CommandReadsOtherValue (m : Nat) (_ : m = 1 ∨ m = 10) :
    Clean (ready (after m [.crShows 0 0x03#8])) ∧ SockDisjoint familyCfg ∧ handleOf (ready []) 0#16 = some hd0 ∧
      1 ≤ m ∧ m ≤ 10 ∧ QuietFor (ready (after m [.crShows 0 0x03#8])) m ∧
      gapAt (ready (after m [.crShows 0 0x03#8])) m = [.crShows hd0.n 0x03#8] :=
  ⟨ready_clean _, family_sock_disjoint, by decide, by omega, by omega, ready_quiet _ _ _ (Nat.le_refl _), gap_at _ _⟩

/-- The code 0x00, on the first poll. -/
theorem witness_CommandReadsOtherValue_zero :
    QuietFor (ready (after 1 [.crShows 0 0x03#8])) 1 ∧ gapAt (ready (after 1 [.crShows 0 0x03#8])) 1 = [.crShows hd0.n 0x03#8] ∧
      0x03#8 ≠ 0x00#8 ∧ (0x00#8 = 0x00#8 → 1 = 1) := ⟨by decide, rfl, by decide, fun _ => rfl⟩

theorem witness_OpenCompletes (m : Nat) (_ : m = 1 ∨ m = 10) :
    Clean (ready (after (6 + m) [.accept 0])) ∧ SockDisjoint familyCfg ∧ handleOf (ready []) 0#16 = some hd0 ∧
      (bank (ready (after (6 + m) [.accept 0])) hd0.n).sr = familyCfg.status.closed ∧
      QuietFor (ready (after (6 + m) [.accept 0])) 6 ∧ 1 ≤ m ∧ m ≤ 10 ∧
      Accepts (ready (after (6 + m) [.accept 0])) hd0.n 6 m :=
  ⟨ready_clean _, family_sock_disjoint, by decide, rfl, ready_quiet _ _ _ (by omega), by omega, by omega,
    ready_accepts 6 m 0⟩

/-- CLOSE taken before its second poll, OPEN before its first. -/
theorem witness_OpenForceCloses :
    ∃ s : State, Clean s ∧ SockDisjoint s.cfg ∧ handleOf s 0#16 = some hd0 ∧
      (bank s hd0.n).sr ≠ s.cfg.status.closed ∧ QuietFor s 3 ∧ Accepts s hd0.n 3 2 ∧
      (∀ j, j < 3 → gapAt s (2 + 4 + j) = []) ∧ Accepts s hd0.n (2 + 7) 1 :=
  ⟨withSock (inStatus 0x17#8) (ready (after 5 [.accept 0] ++ after 4 [.accept 0])), ⟨rfl, rfl, rfl⟩, family_sock_disjoint,
    by decide, by decide, by decide, ⟨by decide, by decide⟩, by decide, by decide, by decide⟩

theorem witness_OpenUnsupportedProtocol :
    handleOf (ready []) 0#16 = some hd0 ∧ [0x54#8, 0x43#8, 0x50#8] ≠ [0x74#8, 0x63#8, 0x70#8] ∧
      [0x54#8, 0x43#8, 0x50#8] ≠ [0x75#8, 0x64#8, 0x70#8] := by decide

theorem witness_ListenCompletes :
    ∃ s : State, Clean s ∧ SockDisjoint s.cfg ∧ handleOf s 0#16 = some hd0 ∧ gapAt s 0 = [] ∧
      (bank s hd0.n).sr = s.cfg.status.init ∧ Accepts s hd0.n 1 10 :=
  ⟨withSock (inStatus 0x13#8) (ready (after (1 + 10) [.accept 0])), ⟨rfl, rfl, rfl⟩, family_sock_disjoint, by decide, rfl, rfl,
    ready_accepts 1 10 0⟩

theorem witness_ListenConnectNeedInit :
    Clean (ready []) ∧ SockDisjoint familyCfg ∧ handleOf (ready []) 0#16 = some hd0 ∧
      (bank (chipTurn (ready [])) hd0.n).sr ≠ familyCfg.status.init :=
  ⟨ready_clean _, family_sock_disjoint, by decide, by decide⟩

/-- Both values and the first and the last poll: the gaps are quiet but for the two that matter. -/
theorem witness_ConnectCompletes (j : Nat) (v : Byte) (_ : j = 1 ∨ j = 5001)
    (_ : v = familyCfg.status.established ∨ v = familyCfg.status.closed) :
    ∃ s : State, Clean s ∧ CfgOk s.cfg ∧ handleOf s 0#16 = some hd0 ∧ s.env.delays = [] ∧ QuietFor s 3 ∧
      (bank s hd0.n).sr = s.cfg.status.init ∧ Accepts s hd0.n 3 1 ∧ (1 ≤ j ∧ j ≤ 5001) ∧
      (∀ k, 1 ≤ k → k < j → gapAt s (3 + 1 + k) = []) ∧ gapAt s (3 + 1 + j) = [.status hd0.n v] := by
  refine ⟨withSock (inStatus 0x13#8) (ready (after 4 [.accept 0] ++ after (j - 1) [.status 0 v])), ⟨rfl, rfl, rfl⟩,
    family_cfg_ok, by rfl, rfl, ?_, rfl, ⟨?_, ?_⟩, by omega, ?_, ?_⟩
  · intro k hk
    obtain rfl | rfl | rfl : k = 0 ∨ k = 1 ∨ k = 2 := by omega
    all_goals rfl
  · intro k hk
    obtain rfl : k = 0 := by omega
    rfl
  · rfl
  · intro k hk hj
    show (after 4 [ChipEvent.accept 0] ++ after (j - 1) [.status 0 v]).getD (3 + 1 + k) [] = []
    rw [List.getD, List.getElem?_append_right (by simp [after]; omega)]
    exact gap_before (j - 1) _ _ (by simp [after]; omega)
  · show (after 4 [ChipEvent.accept 0] ++ after (j - 1) [.status 0 v]).getD (3 + 1 + j) [] = _
    rw [List.getD, List.getElem?_append_right (by simp [after]; omega)]
    have : 3 + 1 + j - (after 4 [ChipEvent.accept 0]).length = j - 1 := by simp [after]; omega
    rw [this]
    exact gap_at (j - 1) _

/-- The status of each poll of a wait in which poll 1 already shows SYN_SENT. -/
def synSentFrom1 (k : Nat) : Byte := if k = 0 then 0x13#8 else 0x15#8

theorem witness_ConnectTimesOut :
    ∃ s : State, Clean s ∧ CfgOk s.cfg ∧ handleOf s 0#16 = some hd0 ∧ s.env.delays = [] ∧ QuietFor s 3 ∧
      (bank s hd0.n).sr = s.cfg.status.init ∧ Accepts s hd0.n 3 1 ∧ synSentFrom1 0 = s.cfg.status.init ∧
      ∀ k, k < 5001 →
        synSentFrom1 (k + 1) ≠ s.cfg.status.established ∧ synSentFrom1 (k + 1) ≠ s.cfg.status.closed ∧
          (gapAt s (4 + 1 + k) = [.status hd0.n (synSentFrom1 (k + 1))] ∨
            gapAt s (4 + 1 + k) = [] ∧ synSentFrom1 (k + 1) = synSentFrom1 k) := by
  refine ⟨withSock (inStatus 0x13#8) (ready (after 4 [.accept 0] ++ [[.status 0 0x15#8]])), ⟨rfl, rfl, rfl⟩, family_cfg_ok,
    by rfl, rfl, by decide, rfl, ⟨by decide, by decide⟩, rfl, fun k _ => ⟨?_, ?_, ?_⟩⟩
  · simp only [synSentFrom1, Nat.succ_ne_zero, if_false]; decide
  · simp only [synSentFrom1, Nat.succ_ne_zero, if_false]; decide
  · cases k with
    | zero => exact .inl rfl
    | succ k => exact .inr ⟨by rw [gapAt, show 4 + 1 + (k + 1) = k + 6 by omega]; rfl, rfl⟩

theorem witness_ReadEmptyDestination : handleOf State.reset 0#16 = some hd0 := by decide

theorem witness_ReadNothingReceived :
    Clean (ready []) ∧ SockDisjoint familyCfg ∧ handleOf (ready []) 0#16 = some hd0 ∧ QuietFor (ready []) 2 ∧
      (bank (ready []) hd0.n).rxRsr = 0#16 := ⟨ready_clean _, family_sock_disjoint, by decide, by decide, rfl⟩

/-- The largest received size and a destination of one byte; RECV taken before the tenth poll. -/
theorem witness_ReadDelivers :
    ∃ s : State, Clean s ∧ SockDisjoint s.cfg ∧ handleOf s 0#16 = some hd0 ∧ QuietFor s 4 ∧
      (bank s hd0.n).rxRsr ≠ 0#16 ∧ 1 = min (bank s hd0.n).rxRsr.toNat 1 ∧ Accepts s hd0.n 4 10 :=
  ⟨withSock { inStatus 0x17#8 with rxRsr := 0xFFFF#16 } (ready (after (4 + 10) [.accept 0])), ⟨rfl, rfl, rfl⟩,
    family_sock_disjoint, by decide, by decide, by decide, by decide, ready_accepts 4 10 0⟩

theorem witness_ReadKeepsCountOnFailedRecv :
    ∃ s : State, Clean s ∧ SockDisjoint s.cfg ∧ handleOf s 0#16 = some hd0 ∧ QuietFor s 15 ∧
      (bank s hd0.n).rxRsr ≠ 0#16 ∧ 5 = min (bank s hd0.n).rxRsr.toNat 8 :=
  ⟨withSock { inStatus 0x17#8 with rxRsr := 5#16 } (ready []), ⟨rfl, rfl, rfl⟩, family_sock_disjoint, by decide, by decide,
    by decide, by decide⟩

theorem witness_WriteTooLarge :
    handleOf (ready []) 0#16 = some hd0 ∧ hd0.sTx.bytes < (List.replicate 2049 0x00#8).length := by decide +kernel

theorem witness_WriteNeedsConnection :
    Clean (ready []) ∧ SockDisjoint familyCfg ∧ handleOf (ready []) 0#16 = some hd0 ∧
      [0x01#8].length ≤ hd0.sTx.bytes ∧ (bank (chipTurn (ready [])) hd0.n).sr ≠ familyCfg.status.established ∧
      (bank (chipTurn (ready [])) hd0.n).sr ≠ familyCfg.status.closeWait :=
  ⟨ready_clean _, family_sock_disjoint, by decide, by decide, by decide, by decide⟩

/-- A payload of two bytes at the top of the window, the second byte after the wrap. -/
def twoToSend (ir : Byte) (f : Half) : Socket :=
  { inStatus 0x17#8 with txFsr := f, txWr := 0xFFFF#16, txRd := 0xFFFF#16, ir := ir }

/-- What WriteSends asks of a state for the payload of two bytes. -/
structure SendsTwo (s : State) (f : Half) (j m k : Nat) : Prop where
  clean : Clean s
  cfg : CfgOk s.cfg
  mem : Memory.wf s.chip.mem = true
  handle : handleOf s 0#16 = some hd0
  fits : 2 ≤ hd0.sTx.bytes
  status : MaySend s.cfg (bank s hd0.n).sr
  looks : 1 ≤ j ∧ j ≤ s.cfg.freeWaitMaxPolls
  first : j = 1 ∨ (bank s hd0.n).txFsr.toNat < 2
  room : gapAt s (2 * j - 1) = [] ∧ f = (bank s hd0.n).txFsr ∨ gapAt s (2 * j - 1) = [.freeSize hd0.n f]
  enough : 2 ≤ f.toNat
  quiet : ∀ i, i < 2 * j + 3 → i ≠ 2 * j - 1 → gapAt s i = []
  plain : PlainWrite s.cfg (txBlk hd0.n) (txAddr hd0.n hd0.sTx (bank s hd0.n).txWr) 2
  polls : 1 ≤ m ∧ m ≤ 10 ∧ Accepts s hd0.n (2 * j + 3) m
  flags : 1 ≤ k ∧ k ≤ s.cfg.sendOkMaxPolls ∧ ∀ i, i < 2 * (k - 1) → gapAt s (2 * j + 4 + m + i) = []
  sent : k = 1 ∧ gapAt s (2 * j + 4 + m) = [] ∧ (bank s hd0.n).ir.getLsbD 4 = true ∨
    (k = 1 ∨ (bank s hd0.n).ir.getLsbD 4 = false) ∧ gapAt s (2 * j + 4 + m + 2 * (k - 1)) = [.perform hd0.n] ∧
      (bank s hd0.n).inProgress = [] ∧ (bank s hd0.n).txRd = (bank s hd0.n).txWr

theorem family_two_plain_top : PlainWrite familyCfg (txBlk 0) (txAddr 0 .s2048 0xFFFF#16) 2 := ⟨by decide, by decide⟩

/-- Room at the first look, the free size exactly the payload's length, bit 4 left set from before. -/
theorem witness_WriteSends_stale :
    SendsTwo (withSock (twoToSend 0x10#8 2#16) (ready (after 6 [.accept 0]))) 2#16 1 1 1 :=
  ⟨⟨rfl, rfl, rfl⟩, family_cfg_ok, rfl, rfl, by decide, .inl rfl, by decide, .inl rfl, .inl ⟨rfl, rfl⟩, by decide, by decide,
    family_two_plain_top, ⟨by decide, by decide, by decide, by decide⟩, ⟨by decide, by decide, by decide⟩, .inl ⟨rfl, rfl, by decide⟩⟩

/-- Room at the third look, SEND performed before the second look at the flags. -/
theorem witness_WriteSends_later :
    SendsTwo (withSock (twoToSend 0x00#8 1#16)
      (ready (after 5 [.freeSize 0 2#16] ++ after 4 [.accept 0] ++ after 2 [.perform 0]))) 2#16 3 1 2 :=
  ⟨⟨rfl, rfl, rfl⟩, family_cfg_ok, rfl, rfl, by decide, .inl rfl, by decide, .inr (by decide), .inr rfl, by decide, by decide,
    family_two_plain_top, ⟨by decide, by decide, by decide, by decide⟩, ⟨by decide, by decide, by decide⟩, .inr ⟨.inr (by decide), rfl, rfl, rfl⟩⟩

/-- The last look the budget has at the flags. -/
theorem witness_WriteSends_last :
    SendsTwo (withSock (twoToSend 0x00#8 2#16) (ready (after 6 [.accept 0] ++ after 1998 [.perform 0]))) 2#16 1 1 1000 := by
  refine ⟨⟨rfl, rfl, rfl⟩, family_cfg_ok, rfl, rfl, by decide, .inl rfl, by decide, .inl rfl, .inl ⟨rfl, rfl⟩, by decide, ?_,
    family_two_plain_top, ⟨by decide, by decide, ?_, rfl⟩, ⟨by decide, by decide, ?_⟩, .inr ⟨.inr rfl, ?_, rfl, rfl⟩⟩
  · intro i hi _
    obtain rfl | rfl | rfl | rfl | rfl : i = 0 ∨ i = 1 ∨ i = 2 ∨ i = 3 ∨ i = 4 := by omega
    all_goals rfl
  · intro i hi
    obtain rfl : i = 0 := by omega
    rfl
  · intro i hi
    show (after 6 [ChipEvent.accept 0] ++ after 1998 [.perform 0]).getD (2 * 1 + 4 + 1 + i) [] = []
    rw [List.getD, List.getElem?_append_right (by simp [after])]
    exact gap_before 1998 _ _ (by simp [after]; omega)
  · show (after 6 [ChipEvent.accept 0] ++ after 1998 [.perform 0]).getD 2005 [] = _
    rw [List.getD, List.getElem?_append_right (by simp [after])]
    exact gap_at 1998 _

theorem witness_WriteNeverClearsFlags :
    SockDisjoint familyCfg ∧ handleOf (ready []) 0#16 = some hd0 ∧
      ∃ t, exec (.sockWrite 0#16 [0x01#8]) (ready []) = .next t := ⟨family_sock_disjoint, by decide, _, rfl⟩

/-- The free-space wait: the chip stays quiet; the status leaves the two states at the first and at the last look. -/
theorem witness_WriteWaitsEnd_freeSpace (j : Nat) (_ : j = 1 ∨ j = familyCfg.freeWaitMaxPolls) :
    ∃ s : State, Clean s ∧ CfgOk s.cfg ∧ handleOf s 0#16 = some hd0 ∧ [0x01#8, 0x02#8].length ≤ hd0.sTx.bytes ∧
      MaySend s.cfg (bank s hd0.n).sr ∧ (bank s hd0.n).txFsr.toNat < [0x01#8, 0x02#8].length ∧
      1 ≤ j ∧ j ≤ s.cfg.freeWaitMaxPolls ∧ QuietFor s (2 * j) ∧ gapAt s (2 * j) = [.status hd0.n 0x00#8] ∧
      ¬MaySend s.cfg 0x00#8 ∧
      QuietFor (s.setEnv { s.env with chip := [] }) (1 + 2 * s.cfg.freeWaitMaxPolls) :=
  ⟨withSock { inStatus 0x17#8 with txFsr := 1#16 } (ready (after (2 * j) [.status 0 0x00#8])), ⟨rfl, rfl, rfl⟩, family_cfg_ok,
    by rfl, by decide, .inl rfl, show 1 < 2 by decide,
    by have : 0 < familyCfg.freeWaitMaxPolls := family_cfg_ok.freeBudget
       omega,
    by show j ≤ familyCfg.freeWaitMaxPolls
       have : 0 < familyCfg.freeWaitMaxPolls := family_cfg_ok.freeBudget
       omega,
    ready_quiet _ _ _ (Nat.le_refl _), gap_at _ _, show ¬MaySend familyCfg 0x00#8 by unfold MaySend; decide, fun _ _ => rfl⟩

theorem family_two_plain : PlainWrite familyCfg (txBlk 0) (txAddr 0 .s2048 0#16) 2 := ⟨by decide, by decide⟩

/-- The send-ok wait: bit 4 stays clear and the chip quiet; the status goes to CLOSED at the first and at the last look. -/
theorem witness_WriteWaitsEnd_sendOk (j : Nat) (_ : j = 1 ∨ j = familyCfg.sendOkMaxPolls) :
    ∃ s : State, Clean s ∧ CfgOk s.cfg ∧ handleOf s 0#16 = some hd0 ∧ [0x01#8, 0x02#8].length ≤ hd0.sTx.bytes ∧
      MaySend s.cfg (bank s hd0.n).sr ∧ [0x01#8, 0x02#8].length ≤ (bank s hd0.n).txFsr.toNat ∧
      Memory.wf s.chip.mem = true ∧
      PlainWrite s.cfg (txBlk hd0.n) (txAddr hd0.n hd0.sTx (bank s hd0.n).txWr) [0x01#8, 0x02#8].length ∧
      QuietFor s 5 ∧ Accepts s hd0.n 5 1 ∧ (bank s hd0.n).ir.getLsbD 4 = false ∧ 1 ≤ j ∧ j ≤ s.cfg.sendOkMaxPolls ∧
      (∀ k, k < 2 * j - 1 → gapAt s (6 + 1 + k) = []) ∧
      gapAt s (6 + 1 + (2 * j - 1)) = [.status hd0.n s.cfg.status.closed] ∧
      ∀ k, gapAt (s.setEnv { s.env with chip := after 6 [.accept 0] }) (6 + 1 + k) = [] := by
  have h0 : 0 < familyCfg.sendOkMaxPolls := family_cfg_ok.sendOkBudget
  refine ⟨withSock { inStatus 0x17#8 with txFsr := 2#16, ir := 0xEF#8 }
      (ready (after 6 [.accept 0] ++ after (2 * j - 1) [.status 0 0x00#8])), ⟨rfl, rfl, rfl⟩, family_cfg_ok, by rfl, by decide,
    .inl rfl, show 2 ≤ 2 by decide, rfl, family_two_plain, ?_, ⟨?_, rfl⟩, show (0xEF#8).getLsbD 4 = false by rfl, by omega, ?_, ?_, ?_, ?_⟩
  · intro k hk
    obtain rfl | rfl | rfl | rfl | rfl : k = 0 ∨ k = 1 ∨ k = 2 ∨ k = 3 ∨ k = 4 := by omega
    all_goals rfl
  · intro k hk
    obtain rfl : k = 0 := by omega
    rfl
  · show j ≤ familyCfg.sendOkMaxPolls
    omega
  · intro k hk
    show (after 6 [ChipEvent.accept 0] ++ after (2 * j - 1) [.status 0 0x00#8]).getD (6 + 1 + k) [] = []
    rw [List.getD, List.getElem?_append_right (by simp [after])]
    exact gap_before (2 * j - 1) _ _ (by simp [after]; omega)
  · show (after 6 [ChipEvent.accept 0] ++ after (2 * j - 1) [.status 0 0x00#8]).getD (6 + 1 + (2 * j - 1)) [] = _
    rw [List.getD, List.getElem?_append_right (by simp [after])]
    have : 6 + 1 + (2 * j - 1) - (after 6 [ChipEvent.accept 0]).length = 2 * j - 1 := by simp [after]
    rw [this]
    exact gap_at (2 * j - 1) _
  · intro k
    show (after 6 [ChipEvent.accept 0]).getD (6 + 1 + k) [] = []
    rw [show 6 + 1 + k = k + 7 by omega]; rfl

theorem witness_OpenCommand :
    deferred (withSock { Socket.reset with mr := 0x21#8 } (ready [])) = false ∧
      deferred (withSock { Socket.reset with mr := 0x02#8 } (ready [])) = false ∧
      (bank (withSock { Socket.reset with mr := 0x21#8 } (ready [])) 0).sr = familyCfg.status.closed ∧
      (bank (withSock { Socket.reset with mr := 0x21#8 } (ready [])) 0).mr = 0x21#8 ∧
      (bank (withSock { Socket.reset with mr := 0x02#8 } (ready [])) 0).mr = 0x02#8 := by decide

theorem witness_ListenConnectCommands :
    deferred (withSock (inStatus 0x13#8) (ready [])) = false ∧
      (bank (withSock (inStatus 0x13#8) (ready [])) 0).sr = familyCfg.status.init := ⟨rfl, rfl⟩

theorem witness_CloseDisconCommands : deferred (ready []) = false := rfl

/-- Two bytes at the top of the window, the second after the wrap. -/
theorem witness_SendCommand :
    ∃ s : State, deferred s = false ∧ MaySend s.cfg (bank s 0).sr ∧ s.cfg.bufAlias = .wrapS ∧
      s.cfg.chipTx.get 0 = BufSize.s2048.bytes ∧
      [0xAA#8, 0xBB#8].length = ((bank s 0).txWr - (bank s 0).txRd).toNat ∧
      ∀ i (h : i < [0xAA#8, 0xBB#8].length),
        peek s (txBlk 0) (txAddr 0 .s2048 (bank s 0).txRd + BitVec.ofNat 16 i) = some [0xAA#8, 0xBB#8][i] :=
  ⟨withSock { inStatus 0x17#8 with txRd := 0xFFFF#16, txWr := 1#16 }
      ((ready []).setChip { Chip.reset with mem := [(2 * 65536, 0xBB#8), (2 * 65536 + 2047, 0xAA#8)] }),
    rfl, .inl rfl, rfl, rfl, by decide, by decide⟩

/-- The clauses: a connected socket; a chip that does not wrap, with the last byte of its window to send. -/
theorem witness_SendCommandCompletes :
    ∃ s : State, deferred s = false ∧ MaySend s.cfg (bank s 7).sr ∧ s.cfg.bufAlias = .flat ∧
      (bank s 7).txRd.toNat + 1 = s.cfg.chipTx.get 7 ∧ ((bank s 7).txWr - (bank s 7).txRd).toNat = 1 :=
  ⟨{ (ready []).setChip (withBank Chip.reset 7 { inStatus 0x1C#8 with txRd := 2047#16, txWr := 2048#16 }) with
      cfg := { familyCfg with bufAlias := .flat } }, rfl, .inr rfl, rfl, by decide, by decide⟩

/-- All that was counted is consumed. -/
theorem witness_RecvCommand :
    ∃ s : State, deferred s = false ∧ ((bank s 0).rxRd - (bank s 0).rxAck).toNat ≤ (bank s 0).rxRsr.toNat ∧
      (bank s 0).rxRsr ≠ 0#16 :=
  ⟨withSock { Socket.reset with rxRd := 5#16, rxAck := 0xFFFE#16, rxRsr := 7#16 } (ready []), rfl, by decide, by decide⟩

/-- Both clauses: a command deferred, a command in progress. -/
theorem witness_PerformIsTheCommand :
    (∃ s : State, deferred s = true) ∧
      ∃ s : State, (bank s 0).inProgress = 0x40#8 :: [0x10#8] ∧ bank s 0 = cleared (bank s 0) ∧
        s.env.defer = [] :=
  ⟨⟨(ready []).setEnv { State.reset.env with defer := [true] }, rfl⟩,
    withSock { Socket.reset with inProgress := [0x40#8, 0x10#8] } (ready []), rfl, rfl, rfl⟩

/-- As many bytes as the buffer holds. -/
theorem witness_ArrivedBytesWhereReadLooks :
    Memory.wf (ready []).chip.mem = true ∧ familyCfg.chipRx.get 7 = BufSize.s2048.bytes ∧
      (List.replicate 2048 0x55#8).length ≤ BufSize.s2048.bytes := by decide +kernel

end Sys2Proof.Tests
end

section
/-! PROOFS. The statements of 10_state.md: what every step keeps, the two register writes with an effect of their own, and
the handle an operation names. -/

namespace Sys2Proof.Proofs

open Sys2Proof.Machine Sys2Proof.Safety

/-! What one step can do -/

/-- A step that answers a next state starts idle. With no request the block waits; else it takes the first request and runs
the instruction decoded, or answers an unknown operation code (R275, R333, R325). -/
theorem step_next {s t : State} (h : step s = .next t) :
    s.seq = .idle ∧
      ((s.requests = [] ∧ t = chipTurn s) ∨
        ∃ r rest, s.requests = r :: rest ∧
          ((∃ i, decode r = .ok i ∧ exec i (s.setRequests rest) = .next t) ∨
            ∃ code, decode r = .error (.unknownOperation code) ∧ t = unknownOperation code (s.setRequests rest))) := by
  unfold step at h
  split at h
  · cases h
  next hidle =>
    refine ⟨hidle, ?_⟩
    split at h
    next hnone =>
      cases h
      exact .inl ⟨hnone, rfl⟩
    next r rest hsome =>
      refine .inr ⟨r, rest, hsome, ?_⟩
      split at h
      next i hdec => exact .inl ⟨i, hdec, h⟩
      next e hdec =>
        cases e
        case unknownOperation code =>
          cases h
          exact .inr ⟨code, hdec, rfl⟩
        all_goals cases h

/-! The invariant between operations -/

/-- The level of chip-select between operations: not low, and high once the bus settings are applied (R21, R54). -/
def CsIdle (s : State) : Prop := s.cs ≠ .low ∧ (s.bus.isSome = true → s.cs = .high)

theorem csIdle_of_inv {s : State} (h : Inv s) : CsIdle s := ⟨h.csNotLow, h.csHigh⟩

theorem csIdle_of_high {s : State} (h : s.cs = .high) : CsIdle s := ⟨by rw [h]; decide, fun _ => h⟩

theorem csIdle_of_kept {P : BusAct → Prop} {s t : State} (h : CsIdle s) (k : Kept P s t) : CsIdle t := by
  rcases k.cs with hcs | hcs
  · unfold CsIdle
    rw [hcs, k.bus]
    exact h
  · exact csIdle_of_high hcs

/-- Configure drives chip-select high; SOCK.NEW and the other operations start with it as it was. -/
theorem csIdle_opStart {s : State} (h : CsIdle s) (i : Instr) : CsIdle (opStart i s) := by
  cases i
  case ctlConfigure => exact csIdle_of_high rfl
  case sockNew n sTx sRx =>
    simp only [opStart]
    cases newHandle n sTx sRx <;> exact h
  all_goals exact h

theorem complete_inv {s : State} (hcs : CsIdle s) (hm : memOk s) (r : OpResult) : Inv (complete r s) where
  idle := rfl
  csNotLow := hcs.1
  csHigh := hcs.2
  latchesDead := rfl
  memWf := hm

theorem chipSide_inv {s t : State} (hi : Inv s) (h : ChipSide s t) (hm : memOk t) : Inv t := by
  obtain ⟨d, c, k, rfl⟩ := h
  exact ⟨hi.idle, hi.csNotLow, hi.csHigh, hi.latchesDead, hm⟩

theorem chipTurn_inv {s : State} (hi : Inv s) : Inv (chipTurn s) := by
  have hm : memOk (chipTurn s) := (kept_chipTurn (P := fun _ => True) s).mem hi.memWf
  obtain ⟨c, k, e⟩ := chipOnly_chipTurn s
  rw [e] at hm ⊢
  exact ⟨hi.idle, hi.csNotLow, hi.csHigh, hi.latchesDead, hm⟩

theorem exec_inv {s t : State} {i : Instr} (hi : Inv s) (h : exec i s = .next t) : Inv t := by
  rcases exec_next h (opOk_true s i) with ⟨-, hchip, hm⟩ | ⟨-, r, u, rfl, hk⟩
  · exact chipSide_inv hi hchip (hm hi.memWf)
  · have hm : memOk (opStart i s) := by
      obtain ⟨-, -, -, -, hchip, -⟩ := opStart_facts i s
      rw [memOk, hchip]
      exact hi.memWf
    exact complete_inv (csIdle_of_kept (csIdle_opStart (csIdle_of_inv hi) i) hk) (hk.mem hm) r

theorem setRequests_inv {s : State} (h : Inv s) (rest : List Request) : Inv (s.setRequests rest) :=
  ⟨h.idle, h.csNotLow, h.csHigh, h.latchesDead, h.memWf⟩

theorem setResult_inv {s : State} (h : Inv s) (r : Option OpResult) : Inv (s.setResult r) :=
  ⟨h.idle, h.csNotLow, h.csHigh, h.latchesDead, h.memWf⟩

/-- Settles O10, by the cases of one step; an execution is a kept sequence and the end of an operation. -/
theorem stepKeepsInv : Obligations.StepKeepsInv := by
  intro s t hi h
  obtain ⟨-, ⟨-, rfl⟩ | ⟨r, rest, -, ⟨i, -, he⟩ | ⟨code, -, rfl⟩⟩⟩ := step_next h
  · exact chipTurn_inv hi
  · exact exec_inv (setRequests_inv hi rest) he
  · exact setResult_inv (setRequests_inv hi rest) _

/-- Settles O11. -/
theorem resetMeetsInv : Obligations.ResetMeetsInv where
  idle := rfl
  csNotLow := by decide
  csHigh := by decide
  latchesDead := rfl
  memWf := rfl

/-! What no step takes back -/

/-- The parameters stand, handles and actions are only added, the clock does not go back (R8, R22, R331). -/
def OnlyAdds (s t : State) : Prop :=
  t.cfg = s.cfg ∧ s.handles <+: t.handles ∧ s.clock ≤ t.clock ∧ ∃ acts, t.out = acts ++ s.out

theorem OnlyAdds.of_same {s t : State} (hc : t.cfg = s.cfg) (hh : t.handles = s.handles) (hk : t.clock = s.clock)
    (ho : t.out = s.out) : OnlyAdds s t :=
  ⟨hc, hh ▸ List.prefix_refl _, hk.ge, [], ho⟩

theorem OnlyAdds.trans {s t u : State} (h : OnlyAdds s t) (g : OnlyAdds t u) : OnlyAdds s u := by
  obtain ⟨hc, hh, hk, l, hl⟩ := h
  obtain ⟨gc, gh, gk, m, hm⟩ := g
  exact ⟨gc.trans hc, hh.trans gh, hk.trans gk, m ++ l, by rw [hm, hl, List.append_assoc]⟩

theorem onlyAdds_of_kept {P : BusAct → Prop} {s t : State} (h : Kept P s t) : OnlyAdds s t := by
  obtain ⟨acts, hout, -⟩ := h.out
  exact ⟨h.cfg, h.handles ▸ List.prefix_refl _, h.clock, acts, hout⟩

theorem onlyAdds_setRequests (s : State) (rest : List Request) : OnlyAdds s (s.setRequests rest) :=
  .of_same rfl rfl rfl rfl

theorem onlyAdds_opStart (i : Instr) (s : State) : OnlyAdds s (opStart i s) := by
  obtain ⟨hc, hh, hk, ho, -, -⟩ := opStart_facts i s
  exact ⟨hc, hh, hk.ge, [], ho⟩

theorem onlyAdds_exec {s t : State} {i : Instr} (h : exec i s = .next t) : OnlyAdds s t := by
  rcases exec_next h (opOk_true s i) with ⟨-, ⟨d, c, k, rfl⟩, -⟩ | ⟨-, r, u, rfl, hk⟩
  · exact .of_same rfl rfl rfl rfl
  · exact ((onlyAdds_opStart i s).trans (onlyAdds_of_kept hk)).trans (.of_same rfl rfl rfl rfl)

/-- Settles O12, by the cases of one step. -/
theorem stepOnlyAdds : Obligations.StepOnlyAdds := by
  intro s t h
  obtain ⟨-, ⟨-, rfl⟩ | ⟨r, rest, -, ⟨i, -, he⟩ | ⟨code, -, rfl⟩⟩⟩ := step_next h
  · exact onlyAdds_of_kept (kept_chipTurn (P := fun _ => True) s)
  · exact (onlyAdds_setRequests s rest).trans (onlyAdds_exec he)
  · exact OnlyAdds.of_same rfl rfl rfl rfl

/-! One-byte writes of registers -/

theorem commonReg_width_pos (r : CommonReg) : 0 < r.width := by cases r <;> decide

theorem sockReg_width_pos (r : SockReg) : 0 < r.width := by cases r <;> decide

/-- CTL.WRITEBYTE to the first byte of a common register: the chip stores it as `storeCommon` says. -/
theorem ctlWriteByte_common {s : State} (hs : Clean s) (hd : CommonDisjoint s.cfg) (r : CommonReg) (v : Byte) :
    ∃ t, exec (.ctlWriteByte 0#5 (commonOff s.cfg r) v) s = .next t ∧ Ended s t (.done .unit) ∧
      t.chip = (storeCommon r 0 v (chipTurn s)).chip := by
  obtain ⟨t, he, hend, hchip, -, -⟩ := writeOp_run hs 0#5 (commonOff s.cfg r) [v]
  refine ⟨t, he, hend, hchip.trans ?_⟩
  have hw : [v].length ≤ r.width := commonReg_width_pos r
  rw [← chipTurn_cfg s] at hd ⊢
  rw [storeFrame_common hd hw]
  rfl

/-- CTL.WRITEBYTE to the first byte of a socket register: the chip stores it as `storeSock` says. -/
theorem ctlWriteByte_sock {s : State} (hs : Clean s) (hd : SockDisjoint s.cfg) (n : SockIdx) (r : SockReg) (v : Byte) :
    ∃ t, exec (.ctlWriteByte (regBlk n) (sockOff s.cfg r) v) s = .next t ∧ Ended s t (.done .unit) ∧
      t.chip = (storeSock n r 0 v (chipTurn s)).chip := by
  obtain ⟨t, he, hend, hchip, -, -⟩ := writeOp_run hs (regBlk n) (sockOff s.cfg r) [v]
  refine ⟨t, he, hend, hchip.trans ?_⟩
  have hw : [v].length ≤ r.width := sockReg_width_pos r
  rw [← chipTurn_cfg s] at hd ⊢
  rw [storeFrame_sock hd n hw]
  rfl

/-- The mode register's reset bit is bit 7 (R7). -/
theorem and_mrRst_ne_zero {v : Byte} (h : v.getLsbD 7 = true) : v &&& mrRst ≠ 0#8 := by
  intro h0
  have hbit : (v &&& mrRst).getLsbD 7 = true := by rw [BitVec.getLsbD_and, h]; decide
  rw [h0] at hbit
  exact absurd hbit (by decide)

theorem writeMr_starts_reset {v : Byte} (h : v.getLsbD 7 = true) (s : State) :
    (writeMr v s).chip = { s.chip with mr := v, resetting := true } := by
  rw [writeMr, if_pos (and_mrRst_ne_zero h)]
  rfl

/-- A fingerprint byte is stored outside a reset (R289). -/
theorem writeMr_stores {v : Byte} (h : v = 0x00#8 ∨ v = 0x08#8 ∨ v = 0x10#8) {s : State}
    (hr : s.chip.resetting = false) : (writeMr v s).chip = { s.chip with mr := v } := by
  have hbit : ¬ v &&& mrRst ≠ 0#8 := by rcases h with rfl | rfl | rfl <;> decide
  have hfp : v = fpFirst ∨ v = fpSecond ∨ v = fpThird := by rcases h with rfl | rfl | rfl <;> decide
  rw [writeMr, if_neg hbit, if_neg (by simp [hr]), if_pos hfp]
  rfl

/-- Settles O20: the write reaches the chip as one byte of the mode register, and `writeMr` says what it leaves. -/
theorem modeRegisterWrites : Obligations.ModeRegisterWrites := by
  intro s v hs hd
  obtain ⟨t, he, hend, hchip⟩ := ctlWriteByte_common hs hd .mr v
  refine ⟨fun hv hr => ⟨t, he, hend, hchip.trans (writeMr_stores hv hr)⟩, fun hv => ⟨t, he, hend, ?_⟩⟩
  have hreset : t.chip = { (chipTurn s).chip with mr := v, resetting := true } :=
    hchip.trans (writeMr_starts_reset hv _)
  rw [hreset]

/-- R37, bit by bit. -/
theorem clearOnOne_getLsbD (ir v : Byte) (k : Nat) :
    (clearOnOne ir v).getLsbD k = (ir.getLsbD k && !v.getLsbD k) := by
  rw [clearOnOne, BitVec.getLsbD_and, BitVec.getLsbD_not]
  by_cases hk : k < 8
  · simp [hk]
  · simp [BitVec.getLsbD_of_ge ir k (by omega)]

/-- Settles O21: the byte reaches the chip as one byte of Sn_IR, where `clearOnOne` applies it. -/
theorem interruptWriteClearsOnes : Obligations.InterruptWriteClearsOnes := by
  intro s n v hs hd
  obtain ⟨t, he, hend, hchip⟩ := ctlWriteByte_sock hs hd n .ir v
  exact ⟨t, clearOnOne (bank (chipTurn s) n).ir v, he, hend, hchip, clearOnOne_getLsbD _ v⟩

/-! The handle an operation names -/

/-- R137: an operation with a handle number runs on that handle. -/
theorem exec_eq_onHandle {i : Instr} {h : Half} (hi : handleNumber i = some h) :
    ∃ f, ∀ s, exec i s = onHandle h f s := by
  cases i <;> cases hi <;> exact ⟨_, fun _ => rfl⟩

/-- Settles O9, by the one place where a socket operation looks its handle up. -/
theorem missingHandleRefused : Obligations.MissingHandleRefused := by
  intro s i h hi hnone
  obtain ⟨f, hf⟩ := exec_eq_onHandle hi
  rw [hf, onHandle, hnone]

end Sys2Proof.Proofs
end

section
/-! PROOFS. The statements of 20_memory.md: the selectors an operation puts on the bus, and the addresses a pointer stands
for in the two buffers. -/

namespace Sys2Proof.Proofs

open Sys2Proof.Machine Sys2Proof.Safety

/-! The selectors of an operation -/

/-- R127: the control byte gives back the selector it was made of, in a read and in a write. -/
@[simp] theorem ctrlSelector_ctrlByte (blk : Selector) (w : Bool) : ctrlSelector (ctrlByte blk w) = blk := by
  revert blk w; decide

@[simp] theorem headerSelector_header (blk : Selector) (off : Half) (w : Bool) :
    headerSelector (header blk off w) = blk := ctrlSelector_ctrlByte blk w

/-- The action is no frame, or the selector in its header is admitted by `A`. -/
def StaysIn (A : Selector → Prop) (a : BusAct) : Prop := ∀ hdr, actHeader a = some hdr → A (headerSelector hdr)

theorem staysIn_of_header {A : Selector → Prop} {a : BusAct} {blk : Selector} {off : Half} {w : Bool}
    (ha : actHeader a = some (header blk off w)) (hA : A blk) : StaysIn A a := by
  intro hdr h
  obtain rfl := Option.some.inj (ha.symm.trans h)
  rwa [headerSelector_header]

theorem staysIn_of_no_header {A : Selector → Prop} {a : BusAct} (ha : actHeader a = none) : StaysIn A a := by
  intro hdr h
  rw [ha] at h
  cases h

/-- Frames to admitted selectors stay among them, failed ones too. -/
theorem blocksOk_staysIn (A : Selector → Prop) : BlocksOk (StaysIn A) A where
  ok _ hA _ _ :=
    { frame := fun _ => staysIn_of_header rfl hA
      headerFailed := staysIn_of_header rfl hA
      dataFailed := staysIn_of_header rfl hA }
  sleep _ := staysIn_of_no_header rfl
  now _ := staysIn_of_no_header rfl
  rand _ := staysIn_of_no_header rfl
  log := staysIn_of_no_header rfl

/-- What one execution adds at the boundary: nothing for a command or mode byte, else what its kept sequence adds. -/
theorem exec_adds {P : BusAct → Prop} {i : Instr} {s t : State} (h : exec i s = .next t) (hP : OpOk P s i) :
    ∃ acts, t.out = acts ++ s.out ∧ ∀ a ∈ acts, P a := by
  rcases exec_next h hP with ⟨-, ⟨d, c, k, rfl⟩, -⟩ | ⟨-, r, u, rfl, hk⟩
  · exact ⟨[], rfl, by simp⟩
  · obtain ⟨acts, hout, hacts⟩ := hk.out
    obtain ⟨-, -, -, hstart, -, -⟩ := opStart_facts i s
    exact ⟨acts, by rw [← hstart]; exact hout, hacts⟩

/-- Settles O14: an operation's sequence frames only owned selectors, and a header carries the selector it was made of. -/
theorem framesStayInOwnBlocks : Obligations.FramesStayInOwnBlocks := by
  intro i s t h
  exact exec_adds h (blocksOk_staysIn fun b => ownsBlock s i b = true)

/-! Addresses in the circular buffers -/

/-- R129: a size is the power of two that its code names. -/
theorem bufSize_bytes_eq (size : BufSize) : size.bytes = 2 ^ (10 + size.code.toNat) := by cases size <;> rfl

theorem bufSize_bytes_dvd (size : BufSize) : size.bytes ∣ 2 ^ 16 := by cases size <;> decide

/-- A size is no multiple of the address space, so moving by it moves the address. -/
theorem bufSize_bytes_ne_zero (size : BufSize) : BitVec.ofNat 16 size.bytes ≠ 0#16 := by cases size <;> decide

/-- R94: the mask takes the pointer modulo the size. -/
theorem and_bufSize_mask (p : Half) (size : BufSize) :
    p &&& BitVec.ofNat 16 (size.bytes - 1) = BitVec.ofNat 16 (p.toNat % size.bytes) := by
  have hle : size.bytes ≤ 2 ^ 16 := Nat.le_of_dvd (by decide) (bufSize_bytes_dvd size)
  have hmod : p.toNat &&& (size.bytes - 1) = p.toNat % size.bytes := by
    rw [bufSize_bytes_eq, Nat.and_two_pow_sub_one_eq_mod]
  apply BitVec.eq_of_toNat_eq
  rw [BitVec.toNat_and, BitVec.toNat_ofNat, BitVec.toNat_ofNat, Nat.mod_eq_of_lt (by omega), hmod,
    Nat.mod_eq_of_lt (Nat.lt_of_le_of_lt (Nat.mod_le ..) p.isLt)]

/-- R97: a move by a multiple of a divisor of the address space, of either sign, keeps the remainder. -/
theorem toNat_add_multiple_mod (p : Half) {m : Nat} (hm : m ∣ 2 ^ 16) (k : Int) :
    (p + BitVec.ofInt 16 (k * m)).toNat % m = p.toNat % m := by
  have hdvd : m ∣ (BitVec.ofInt 16 (k * m)).toNat := by
    have hmInt : (m : Int) ∣ ((2 ^ 16 : Nat) : Int) := Int.natCast_dvd_natCast.mpr hm
    rw [BitVec.toNat_ofInt, ← Int.natCast_dvd_natCast, Int.toNat_of_nonneg (Int.emod_nonneg _ (by decide))]
    exact (EuclideanDomain.dvd_mod_iff hmInt).mpr (Int.dvd_mul_left ..)
  rw [BitVec.toNat_add, Nat.mod_mod_of_dvd _ hm, Nat.add_mod, Nat.mod_eq_zero_of_dvd hdvd, Nat.add_zero, Nat.mod_mod]

theorem rxAddr_eq_mod (c : Cfg) (n : SockIdx) (size : BufSize) (p : Half) :
    rxAddr c n size p = BitVec.ofNat 16 (p.toNat % size.bytes) + rxBase c n size := by
  rw [rxAddr, and_bufSize_mask]

theorem txAddr_add (n : SockIdx) (size : BufSize) (p d : Half) : txAddr n size (p + d) = txAddr n size p + d :=
  add_right_comm p d _

/-- Settles O15: the mask is a remainder, which a multiple of the size keeps; the transmit address is a sum. -/
theorem circularAddresses : Obligations.CircularAddresses := by
  intro c n size p k
  refine ⟨rxAddr_eq_mod c n size p, ?_, ?_, txAddr_add n size p _, ?_⟩
  · rw [rxAddr_eq_mod, rxAddr_eq_mod, toNat_add_multiple_mod p (bufSize_bytes_dvd size)]
  · rw [txAddr, BitVec.ofNat_add, BitVec.ofNat_toNat, BitVec.setWidth_eq]
  · rw [txAddr_add, Ne, add_eq_left]
    exact bufSize_bytes_ne_zero size

end Sys2Proof.Proofs
end

section
/-! PROOFS. The statements of 30_encoding.md: the decoder undoes the encoder, the control byte, frames, a fetched table word,
and the two mode bytes. -/

namespace Sys2Proof.Proofs

open Sys2Proof.Machine Sys2Proof.Safety

/-! The control byte and frames -/

/-- R127: the control byte gives back the access mode. -/
@[simp] theorem ctrlWrite_ctrlByte (blk : Selector) (w : Bool) : ctrlWrite (ctrlByte blk w) = w := by
  revert blk w; decide

/-- R120, R127: the length mode of every control byte is 0. -/
@[simp] theorem ctrlMode_ctrlByte (blk : Selector) (w : Bool) : ctrlMode (ctrlByte blk w) = 0#2 := by
  revert blk w; decide

theorem toNat_ctrlByte (blk : Selector) (w : Bool) :
    (ctrlByte blk w).toNat = 8 * blk.toNat + (if w then 4 else 0) := by
  revert blk w; decide

/-- Settles O3, field by field; the selector is `ctrlSelector_ctrlByte`. -/
theorem controlByteRoundTrip : Obligations.ControlByteRoundTrip := fun blk _ w =>
  ⟨rfl, ctrlSelector_ctrlByte blk w, ctrlWrite_ctrlByte blk w, ctrlMode_ctrlByte blk w, toNat_ctrlByte blk w⟩

section frame

variable {c : Byte} (hi lo : Byte) (data : List Byte)

theorem decodeFrame_read (hm : ctrlMode c = 0#2) (hw : ctrlWrite c = false) :
    decodeFrame (hi :: lo :: c :: data) = .ok (.spiRead (ctrlSelector c) (be16 hi lo) data.length) := by
  simp [decodeFrame, hm, hw]

theorem decodeFrame_write (hm : ctrlMode c = 0#2) (hw : ctrlWrite c = true) :
    decodeFrame (hi :: lo :: c :: data) = .ok (.spiWrite (ctrlSelector c) (be16 hi lo) data) := by
  simp [decodeFrame, hm, hw]

theorem decodeFrame_reserved (hm : ctrlMode c ≠ 0#2) :
    decodeFrame (hi :: lo :: c :: data) = .error (.reservedLengthMode (ctrlMode c)) :=
  if_pos hm

end frame

/-! The request a step takes -/

section step

variable {s : State} {r : Request} {rest : List Request} (hidle : s.seq = .idle) (hreq : s.requests = r :: rest)

include hidle hreq

theorem step_of_decode_ok {i : Instr} (hdec : decode r = .ok i) : step s = exec i (s.setRequests rest) := by
  rw [step, hidle, hreq]
  simp only [hdec, takeRequest]

theorem step_of_decode_error {e : DecodeError} (hdec : decode r = .error e) :
    step s = rejectRequest e (s.setRequests rest) := by
  rw [step, hidle, hreq]
  simp only [hdec, takeRequest]

end step

/-- Settles O4, by the three cases of the control byte. -/
theorem frameDecodes : Obligations.FrameDecodes := fun hi lo _ data =>
  ⟨decodeFrame_read hi lo data, decodeFrame_write hi lo data,
    fun hm _ _ hidle hreq => step_of_decode_error hidle hreq (decodeFrame_reserved hi lo data hm)⟩

theorem decode_of_decodeTableWord {nbits w : Nat} {i : Instr} (h : decodeTableWord nbits w = some i) :
    decode (tableRequest nbits w) = .ok i := by
  unfold decodeTableWord at h
  split at h
  · split at h
    next j hdec => rw [hdec, Option.some.inj h]
    next => cases h
  · cases h

/-- Settles O7: the placed request is taken off again, so only the sequencer is not as before. -/
theorem fetchedWordRuns : Obligations.FetchedWordRuns := fun _ _ _ _ h =>
  step_of_decode_ok rfl rfl (decode_of_decodeTableWord h)

/-! Operand bytes decode to the operand they were made of -/

@[simp] theorem selectorOf_selectorByte (blk : Selector) : selectorOf (selectorByte blk) = .ok blk := by
  revert blk; decide

@[simp] theorem sockIdxOf_sockIdxByte (n : SockIdx) : sockIdxOf (sockIdxByte n) = .ok n := by
  revert n; decide

@[simp] theorem parsed_ok {α β : Type} (a : α) (f : α → Except DecodeError β) : parsed (.ok a) f = f a := rfl

/-- Selector and offset are read off, and the operation's own bytes are left. -/
@[simp] theorem decodeAddressed_bytes (blk : Selector) (off : Half) (rest : List Byte)
    (f : Selector → Half → List Byte → Except DecodeError Instr) :
    decodeAddressed (selectorByte blk :: hi8 off :: lo8 off :: rest) f = f blk off rest := by
  simp [decodeAddressed]

/-- The handle number is read off, and the operation's own bytes are left. -/
@[simp] theorem decodeHandled_bytes (h : Half) (rest : List Byte) (f : Half → List Byte → Except DecodeError Instr) :
    decodeHandled (hi8 h :: lo8 h :: rest) f = f h rest := by
  simp [decodeHandled]

@[simp] theorem decodeQuad_toList (f : Quad → Instr) (a : Quad) : decodeQuad f a.toList = .ok (f a) := rfl

@[simp] theorem decodeMac_toList (f : Mac → Instr) (a : Mac) : decodeMac f a.toList = .ok (f a) := rfl

theorem nat32_bytes (v : BitVec 32) :
    nat32 (v.extractLsb' 24 8) (v.extractLsb' 16 8) (v.extractLsb' 8 8) (v.extractLsb' 0 8) = v.toNat := by
  rw [nat32, BitVec.extractLsb'_append_extractLsb'_eq_extractLsb' (by decide : 24 = 16 + 8),
    BitVec.extractLsb'_append_extractLsb'_eq_extractLsb' (by decide : 16 = 8 + 8),
    BitVec.extractLsb'_append_extractLsb'_eq_extractLsb' (by decide : 8 = 0 + 8),
    BitVec.extractLsb'_eq_self]

/-- A size that fits is read off, given or not, and the bytes after it are left. -/
theorem sizeArg_sizeBytes {size : Option Nat} (hfit : sizeFits size = true) (rest : List Byte) :
    sizeArg (sizeBytes size ++ rest) = some (size, rest) := by
  cases size with
  | none => rfl
  | some n =>
    have hn : n < 2 ^ 32 := of_decide_eq_true hfit
    have hbytes := nat32_bytes (BitVec.ofNat 32 n)
    rw [BitVec.toNat_ofNat, Nat.mod_eq_of_lt hn] at hbytes
    exact congrArg (fun m => some (some m, rest)) hbytes

theorem decodeNew_bytes {n : Nat} {sTx sRx : Option Nat} (hn : n < 256) (hTx : sizeFits sTx = true)
    (hRx : sizeFits sRx = true) :
    decodeNew (BitVec.ofNat 8 n :: sizeBytes sTx ++ sizeBytes sRx) = .ok (.sockNew n sTx sRx) := by
  have hlast := sizeArg_sizeBytes hRx []
  rw [List.append_nil] at hlast
  rw [List.cons_append, decodeNew, sizeArg_sizeBytes hTx]
  simp only [hlast, BitVec.toNat_ofNat]
  rw [Nat.mod_eq_of_lt hn]

/-! The encoder undone -/

theorem decodeFrame_header (blk : Selector) (off : Half) (w : Bool) (data : List Byte) :
    decodeFrame ((header blk off w).toList ++ data) =
      .ok (if w then .spiWrite blk off data else .spiRead blk off data.length) := by
  have hbytes : (header blk off w).toList ++ data = hi8 off :: lo8 off :: ctrlByte blk w :: data := rfl
  have hmode := ctrlMode_ctrlByte blk w
  have hwrite := ctrlWrite_ctrlByte blk w
  rw [hbytes]
  cases w with
  | false => rw [decodeFrame_read _ _ _ hmode hwrite, ctrlSelector_ctrlByte, be16_hi_lo]; rfl
  | true => rw [decodeFrame_write _ _ _ hmode hwrite, ctrlSelector_ctrlByte, be16_hi_lo]; rfl

/-- Settles O2, by the form of the operands. -/
theorem decodeEncode : Obligations.DecodeEncode := by
  intro i hwf
  cases i
  case spiRead blk off n =>
    have hframe := decodeFrame_header blk off false (List.replicate n 0#8)
    rwa [List.length_replicate] at hframe
  case spiWrite blk off data => exact decodeFrame_header blk off true data
  case sncrOpen | sncrListen | sncrConnect | sncrDiscon | sncrClose | sncrSend | sncrRecv =>
    simp [decode, encode, decodeCommand]
  case snmrTcp | snmrUdp => simp [decode, encode, decodeMode]
  case ctlRead | ctlWrite | ctlReadByte | ctlRead16 | ctlWriteByte | ctlWrite16 =>
    simp [decode, encode, decodeHost, decodeDone, addressBytes, halfBytes]
  case ctlSetIP a | ctlSetGW a | ctlSetSubnet a => exact decodeQuad_toList _ a
  case ctlSetMac a => exact decodeMac_toList _ a
  case ctlGetIP | ctlGetGW | ctlGetSubnet | ctlGetMac | ctlConfigure | ctlSoftReset | ctlVerifyId => rfl
  case sockNew n sTx sRx =>
    simp only [WellFormed, Bool.and_eq_true, decide_eq_true_eq] at hwf
    obtain ⟨⟨hn, hTx⟩, hRx⟩ := hwf
    exact decodeNew_bytes hn hTx hRx
  case sockStatus | sockExec | sockOpen | sockListen | sockConnect | sockDisconnect | sockClose | sockRead | sockWrite =>
    simp [decode, encode, decodeHost, decodeDone, halfBytes, Quad.toList]

/-- Settles O1: each word is the encoding of what it stands for. -/
theorem sampleWordsDecode : Obligations.SampleWordsDecode :=
  ⟨decodeEncode (.spiRead 0#5 0x0039#16 1) rfl, decodeEncode (.spiWrite 31#5 0x1234#16 [0xAB#8, 0xCD#8]) rfl,
    decodeEncode (.sncrSend 7) rfl, decodeEncode (.snmrTcp 0) rfl,
    decodeEncode (.ctlSetIP ⟨0xC0#8, 0xA8#8, 0x01#8, 0x0A#8⟩) rfl, decodeEncode (.sockClose 0#16) rfl⟩

/-! The mode bytes -/

theorem modSock_setMr (n : SockIdx) (v : Byte) (s : State) :
    modSock n (fun q => setSockByte q .mr 0 v) s = s.setChip (withBank s.chip n { bank s n with mr := v }) := rfl

/-- Settles O58: each mode byte is a write of Sn_MR with its value of R132. -/
theorem modeBytes : Obligations.ModeBytes := fun s n =>
  ⟨congrArg Host.Outcome.next (modSock_setMr n modeTcp s), congrArg Host.Outcome.next (modSock_setMr n modeUdp s)⟩

end Sys2Proof.Proofs
end

section
/-! PROOFS. The statements of 40_bus_transport.md: what a read and a write frame do when no transfer fails, the address
accessors, and what a failed transfer leaves. -/

namespace Sys2Proof.Proofs

open Sys2Proof.Machine Sys2Proof.Safety

/-! The operations that are one transaction -/

/-- One read frame, then the value made of its bytes (R160, R163, R164, R168). -/
def readOp (blk : Selector) (off : Half) (n : Nat) (v : List Byte → OpValue) (s : State) : State :=
  finish ((memRead blk off n (goto .read 1 s)).andThen fun d s => .ok (v d) s)

/-- One write frame (R161, R165, R166, R167). -/
def writeOp (blk : Selector) (off : Half) (data : List Byte) (s : State) : State :=
  finish ((memWrite blk off data (goto .write 1 s)).andThen fun _ s => .ok .unit s)

theorem andThen_andThen {α β γ : Type} (r : Res α) (f : α → State → Res β) (g : β → State → Res γ) :
    (r.andThen f).andThen g = r.andThen fun a s => (f a s).andThen g := by
  cases r <;> rfl

theorem exec_ctlReadByte (blk : Selector) (off : Half) (s : State) :
    exec (.ctlReadByte blk off) s = .next (readOp blk off 1 (fun d => .byte (firstByte d)) s) :=
  congrArg (fun r => Host.Outcome.next (finish r)) (andThen_andThen ..)

theorem exec_ctlRead16 (blk : Selector) (off : Half) (s : State) :
    exec (.ctlRead16 blk off) s = .next (readOp blk off 2 (fun d => .half (firstHalf d)) s) :=
  congrArg (fun r => Host.Outcome.next (finish r)) (andThen_andThen ..)

theorem getCommon_eq (r : CommonReg) (s : State) :
    getCommon r s = .next (readOp 0#5 (commonOff s.cfg r) r.width .bytes s) := rfl

/-! Read frames that complete -/

/-- A read operation gives the value made of `d`, the bytes of its one frame, and changes nothing on the chip (R160). -/
structure ReadDone (s t : State) (blk : Selector) (off : Half) (d : List Byte) (v : OpValue) : Prop where
  ended : Ended s t (.done v)
  chip : t.chip = (chipTurn s).chip
  out : t.out = readFrame blk off d :: s.out
  clock : t.clock = s.clock

theorem readOp_run {s : State} (hs : Clean s) {blk : Selector} {off : Half} {n : Nat} {d : List Byte}
    (hd : frameData (chipTurn s) false blk off n = d) (v : List Byte → OpValue) :
    ReadDone s (readOp blk off n v s) blk off d (v d) := by
  have hclean : Clean (goto .read 1 s) := ⟨hs.configured, hs.noFault, hs.chipAnswers⟩
  obtain ⟨t, hrun, hframe, hchip⟩ := memRead_run hclean blk off n
  have hdata : frameData (chipTurn (goto .read 1 s)) false blk off n = d := by
    rw [chipTurn_goto, ← hd]
    exact frameData_congr (s := chipTurn s) (t := goto .read 1 (chipTurn s)) rfl rfl rfl ..
  rw [hdata] at hrun hframe
  rw [chipTurn_goto] at hchip
  have hop : readOp blk off n v s = complete (.done (v d)) t := by
    rw [readOp, hrun]
    rfl
  rw [hop]
  exact ⟨ended_of hframe.toRan.ofGoto hframe.cs _, hchip, hframe.out, hframe.now⟩

/-- Settles O17, by the bytes `frameData` gives for a frame. -/
theorem readCompletes : Obligations.ReadCompletes := by
  intro s blk off len i hs hi
  have hexec : exec i s = .next (readOp blk off len .bytes s) := by rcases hi with rfl | rfl <;> rfl
  obtain ⟨hended, hchip, hout, hclock⟩ := readOp_run hs (blk := blk) (off := off) (n := len) rfl .bytes
  refine ⟨_, _, hexec, hended, frameData_length .., fun j hj v hv => ?_, hchip, hout, hclock⟩
  have hlen : j < len := by rwa [frameData_length] at hj
  exact frameData_get (i := 0) hlen _ (by rw [off_zero]) (by rwa [Nat.zero_add]) hj

theorem frameData_one {s : State} {blk : Selector} {off : Half} {a : Byte} (ha : peek s blk off = some a) :
    frameData s false blk off 1 = [a] := by
  simp only [frameData, frameByte, ha, Bool.false_eq_true, if_false]

theorem frameData_two {s : State} {blk : Selector} {off : Half} {a b : Byte} (ha : peek s blk off = some a)
    (hb : peek s blk (off + 1) = some b) : frameData s false blk off 2 = [a, b] := by
  simp only [frameData, frameByte, ha, hb, Bool.false_eq_true, if_false]

/-- Settles O18: the frame carries one or two bytes, of which the value is made. -/
theorem fixedWidthReadsComplete : Obligations.FixedWidthReadsComplete := by
  intro s blk off a b hs ha
  refine ⟨?_, fun hb => ?_⟩
  · obtain ⟨hended, hchip, hout, hclock⟩ := readOp_run hs (frameData_one ha) fun d => .byte (firstByte d)
    exact ⟨_, exec_ctlReadByte blk off s, hended, hchip, hout, hclock⟩
  · obtain ⟨hended, hchip, hout, hclock⟩ := readOp_run hs (frameData_two ha hb) fun d => .half (firstHalf d)
    exact ⟨_, exec_ctlRead16 blk off s, hended, hchip, hout, hclock⟩

theorem getCommon_run {s : State} (hs : Clean s) (hd : CommonDisjoint s.cfg) (r : CommonReg) {d : List Byte}
    (hbytes : (List.range' 0 r.width).map (commonByte (chipTurn s).chip r) = d) :
    ∃ t, getCommon r s = .next t ∧ Ended s t (.done (.bytes d)) ∧ t.chip = (chipTurn s).chip ∧
      t.out = readFrame 0#5 (commonOff s.cfg r) d :: s.out := by
  have hdata : frameData (chipTurn s) false 0#5 (commonOff s.cfg r) r.width = d := by
    rw [← chipTurn_cfg s] at hd ⊢
    rw [frameData_common hd, hbytes]
  obtain ⟨hended, hchip, hout, -⟩ := readOp_run hs hdata .bytes
  exact ⟨_, getCommon_eq r s, hended, hchip, hout⟩

/-- Settles O24: each getter reads the whole of one common register. -/
theorem addressGettersRead : Obligations.AddressGettersRead := by
  intro s hs hd
  refine ⟨?_, ?_⟩
  · rintro i q off (⟨rfl, rfl, rfl⟩ | ⟨rfl, rfl, rfl⟩ | ⟨rfl, rfl, rfl⟩)
    · exact getCommon_run hs hd .sipr rfl
    · exact getCommon_run hs hd .gar rfl
    · exact getCommon_run hs hd .subr rfl
  · rintro m rfl
    exact getCommon_run hs hd .shar rfl

/-! Write frames that complete -/

/-- Settles O19: the four spellings are one write frame, which stores at each of its places. -/
theorem writeStores : Obligations.WriteStores := by
  intro s blk off data i hs hm hp hi
  have hexec : exec i s = .next (writeOp blk off data s) := by
    rcases hi with rfl | rfl | ⟨v, rfl, rfl⟩ | ⟨v, rfl, rfl⟩ <;> rfl
  obtain ⟨t, hop, hended, hchip, hout, hclock⟩ := writeOp_run hs blk off data
  have hwf : memOk (chipTurn s) := (kept_chipTurn (P := fun _ => True) s).mem hm
  have hcfg := chipTurn_cfg s
  exact ⟨t, hexec.trans hop, hended, storeFrame_plain hwf (by rwa [hcfg]) (by rw [hcfg, hended.cfg]) hchip, hout, hclock⟩

theorem setCommon_run {s : State} (hs : Clean s) (hd : CommonDisjoint s.cfg) (r : CommonReg) (data : List Byte)
    (hw : data.length ≤ r.width) {c : Chip} (hc : (storeCommonFrom r 0 data (chipTurn s)).chip = c) :
    ∃ t, setCommon r data s = .next t ∧ Ended s t (.done .unit) ∧ t.chip = c ∧
      t.out = writeFrame 0#5 (commonOff s.cfg r) data :: s.out := by
  obtain ⟨t, hop, hended, hchip, hout, -⟩ := writeOp_run hs 0#5 (commonOff s.cfg r) data
  refine ⟨t, hop, hended, ?_, hout⟩
  rw [← chipTurn_cfg s] at hd hchip
  rw [hchip, storeFrame_common hd hw, hc]

/-! A container stored byte after byte, byte 0 first (R86). -/

theorem storeCommonFrom_sipr (a : Quad) (s : State) :
    (storeCommonFrom .sipr 0 a.toList s).chip = { s.chip with sipr := a } := rfl

theorem storeCommonFrom_gar (a : Quad) (s : State) :
    (storeCommonFrom .gar 0 a.toList s).chip = { s.chip with gar := a } := rfl

theorem storeCommonFrom_subr (a : Quad) (s : State) :
    (storeCommonFrom .subr 0 a.toList s).chip = { s.chip with subr := a } := rfl

theorem storeCommonFrom_shar (m : Mac) (s : State) :
    (storeCommonFrom .shar 0 m.toList s).chip = { s.chip with shar := m } := rfl

/-- Settles O23: each setter writes the whole of one common register. -/
theorem addressSettersStore : Obligations.AddressSettersStore := fun _ a m hs hd =>
  ⟨setCommon_run hs hd .sipr a.toList (Nat.le_refl 4) (storeCommonFrom_sipr ..),
    setCommon_run hs hd .gar a.toList (Nat.le_refl 4) (storeCommonFrom_gar ..),
    setCommon_run hs hd .subr a.toList (Nat.le_refl 4) (storeCommonFrom_subr ..),
    setCommon_run hs hd .shar m.toList (Nat.le_refl 6) (storeCommonFrom_shar ..)⟩

/-! Frames that fail -/

/-- R162: the transfer choices that make the next frame, with header `hdr`, fail: with which cause, as which action, and the
choices left. -/
inductive FrameFails (hdr : Header) : List (Option Nat) → Nat → BusAct → List (Option Nat) → Prop
  | header (cause : Nat) (rest : List (Option Nat)) :
    FrameFails hdr (some cause :: rest) cause (.headerFailed hdr) rest
  | data (cause : Nat) (rest : List (Option Nat)) :
    FrameFails hdr (none :: some cause :: rest) cause (.dataFailed hdr) rest

/-- From `s` to `t` the block, CS, sequencer and latches apart, has only done `acts` at the boundary; `choices` are the
transfer choices left. -/
structure BusOnly (acts : List BusAct) (choices : List (Option Nat)) (s t : State) : Prop where
  cfg : t.cfg = s.cfg
  bus : t.bus = s.bus
  handles : t.handles = s.handles
  requests : t.requests = s.requests
  dest : t.dest = s.dest
  out : t.out = acts ++ s.out
  choices : t.env.transfers = choices

section busOnly

variable {acts : List BusAct} {choice : Option Nat} {choices : List (Option Nat)} {s t u : State}

theorem BusOnly.transferFails_eq (h : BusOnly acts (choice :: choices) s t) : transferFails t = choice := by
  rw [transferFails, h.choices]

theorem BusOnly.useTransfer (h : BusOnly acts (choice :: choices) s t) : BusOnly acts choices s (useTransfer t) := by
  rw [Machine.useTransfer, h.choices]
  exact { h with choices := rfl }

theorem BusOnly.chipOnly (h : BusOnly acts choices s t) (hu : ChipOnly t u) : BusOnly acts choices s u := by
  obtain ⟨c, k, rfl⟩ := hu
  exact ⟨h.cfg, h.bus, h.handles, h.requests, h.dest, h.out, h.choices⟩

theorem BusOnly.endFrame (h : BusOnly acts choices s t) (act : BusAct) :
    BusOnly (act :: acts) choices s (endFrame act t) :=
  { h with out := congrArg (act :: ·) h.out }

theorem BusOnly.spoil (h : BusOnly acts choices s t) (missed : Bool) (blk : Selector) (off : Half) (n : Nat) :
    BusOnly acts choices s (if missed then t else scrambleFrame blk off n t) := by
  split
  exacts [h, h.chipOnly (chipOnly_scrambleFrame ..)]

theorem BusOnly.ended {op : SeqOp} {k : Nat} (h : BusOnly acts choices (goto op k s) t) (hcs : t.cs = .high) (e : Err) :
    Ended s (raise e t) (.failed e) :=
  ⟨h.cfg, h.bus, h.handles, h.requests, h.dest, rfl, rfl, rfl, hcs⟩

end busOnly

@[simp] theorem useTransfer_chip (s : State) : (useTransfer s).chip = s.chip := by
  unfold useTransfer
  split <;> rfl

@[simp] theorem useMissed_chip (s : State) : (useMissed s).chip = s.chip := by
  unfold useMissed
  split <;> rfl

@[simp] theorem beginFrame_chip (hdr : Header) (s : State) : (beginFrame hdr s).chip = (chipTurn s).chip := rfl

@[simp] theorem endFrame_chip (act : BusAct) (s : State) : (endFrame act s).chip = s.chip := rfl

/-- Up to the first call of the transfer primitive nothing shows at the boundary. -/
theorem busOnly_beginFrame (hdr : Header) (s : State) :
    BusOnly [] s.env.transfers s (useMissed (beginFrame hdr s)) := by
  obtain ⟨c, k, h⟩ := chipOnly_chipTurn s
  unfold useMissed
  rw [beginFrame, h]
  split <;> exact ⟨rfl, rfl, rfl, rfl, rfl, rfl, rfl⟩

section fails

variable {s : State} {blk : Selector} {off : Half} {cause : Nat} {act : BusAct} {rest : List (Option Nat)}

theorem memRead_fails (h : FrameFails (header blk off false) s.env.transfers cause act rest) (n : Nat) :
    ∃ t, memRead blk off n s = .err (.ioError cause) t ∧ BusOnly [act] rest s t ∧ t.cs = .high ∧
      t.chip = (chipTurn s).chip := by
  have hb := busOnly_beginFrame (header blk off false) s
  generalize s.env.transfers = choices at h hb
  unfold memRead
  cases h with
  | header =>
    simp only [hb.transferFails_eq]
    exact ⟨_, rfl, hb.useTransfer.endFrame _, rfl, by simp⟩
  | data =>
    simp only [hb.transferFails_eq, hb.useTransfer.transferFails_eq]
    exact ⟨_, rfl, hb.useTransfer.useTransfer.endFrame _, rfl, by simp⟩

theorem memWrite_fails (h : FrameFails (header blk off true) s.env.transfers cause act rest) (data : List Byte) :
    ∃ t, memWrite blk off data s = .err (.ioError cause) t ∧ BusOnly [act] rest s t ∧ t.cs = .high := by
  have hb := busOnly_beginFrame (header blk off true) s
  generalize s.env.transfers = choices at h hb
  unfold memWrite
  cases h with
  | header =>
    simp only [hb.transferFails_eq]
    exact ⟨_, rfl, (hb.useTransfer.spoil ..).endFrame _, rfl⟩
  | data =>
    simp only [hb.transferFails_eq, hb.useTransfer.transferFails_eq]
    exact ⟨_, rfl, (hb.useTransfer.useTransfer.spoil ..).endFrame _, rfl⟩

theorem readOp_fails (h : FrameFails (header blk off false) s.env.transfers cause act rest) (n : Nat)
    (v : List Byte → OpValue) :
    Ended s (readOp blk off n v s) (.failed (.ioError cause)) ∧ (readOp blk off n v s).out = act :: s.out ∧
      (readOp blk off n v s).env.transfers = rest ∧ (readOp blk off n v s).chip = (chipTurn s).chip := by
  obtain ⟨t, hrun, hbus, hcs, hchip⟩ := memRead_fails (s := goto .read 1 s) h n
  rw [chipTurn_goto] at hchip
  have hop : readOp blk off n v s = raise (.ioError cause) t := by
    rw [readOp, hrun]
    rfl
  rw [hop]
  exact ⟨hbus.ended hcs _, hbus.out, hbus.choices, hchip⟩

theorem writeOp_fails (h : FrameFails (header blk off true) s.env.transfers cause act rest) (data : List Byte) :
    Ended s (writeOp blk off data s) (.failed (.ioError cause)) ∧ (writeOp blk off data s).out = act :: s.out ∧
      (writeOp blk off data s).env.transfers = rest := by
  obtain ⟨t, hrun, hbus, hcs⟩ := memWrite_fails (s := goto .write 1 s) h data
  have hop : writeOp blk off data s = raise (.ioError cause) t := by
    rw [writeOp, hrun]
    rfl
  rw [hop]
  exact ⟨hbus.ended hcs _, hbus.out, hbus.choices⟩

end fails

/-! What every operation says of its frames -/

theorem faithful_of {s t : State} {r : Res OpValue}
    (e : (Host.Outcome.next (finish r) : Host.Outcome State Fault Refusal) = .next t) (h : Honest s r) :
    Faithful s t := by
  cases e
  exact faithful_finish h

theorem faithful_onHandle {s t : State} {h : Half} {f : Handle → State → State} (e : onHandle h f s = .next t)
    (hf : ∀ hd, Faithful s (f hd s)) : Faithful s t := by
  obtain ⟨hd, -, rfl⟩ := onHandle_next e
  exact hf hd

theorem faithful_sockNew {n : Nat} {sTx sRx : Option Nat} {s t : State} (e : execSockNew n sTx sRx s = .next t) :
    Faithful s t := by
  unfold execSockNew at e
  split at e
  all_goals
    cases e
    exact ⟨_, rfl, (Via.refl s).keep rfl rfl⟩

/-- R312: an operation's result carries a transfer cause exactly when its last frame failed. -/
theorem exec_faithful {i : Instr} {s t : State} (hi : chipSide i = false) (e : exec i s = .next t) : Faithful s t := by
  have h := Via.refl s
  cases i
  case sncrOpen | sncrListen | sncrConnect | sncrDiscon | sncrClose | sncrSend | sncrRecv | snmrTcp | snmrUdp => cases hi
  case spiRead | ctlRead | ctlGetIP | ctlGetGW | ctlGetSubnet | ctlGetMac =>
    exact faithful_of e (((h.at ..).memRead ..).seq fun _ _ h => h)
  case spiWrite | ctlWrite | ctlWriteByte | ctlWrite16 | ctlSetIP | ctlSetGW | ctlSetSubnet | ctlSetMac =>
    exact faithful_of e (((h.at ..).memWrite ..).seq fun _ _ h => h)
  case ctlReadByte => exact faithful_of e (((h.at ..).readByte ..).seq fun _ _ h => h)
  case ctlRead16 => exact faithful_of e (((h.at ..).read16 ..).seq fun _ _ h => h)
  case ctlConfigure => exact faithful_of e ((honest_configure s).seq fun _ _ h => h.at ..)
  case ctlSoftReset => exact faithful_of e (h.softReset.seq fun _ _ h => h)
  case ctlVerifyId => exact faithful_of e (h.verifyIdentity.seq fun _ _ h => h)
  case sockNew => exact faithful_sockNew e
  case sockStatus =>
    unfold exec execSockStatus at e
    exact faithful_onHandle e fun hd => faithful_finish (((h.at ..).readStatus hd.n).seq fun _ _ h => h)
  case sockExec =>
    unfold exec execSockExec at e
    exact faithful_onHandle e fun hd => faithful_finish ((h.execProtocol hd.n _).seq fun _ _ h => h)
  case sockOpen =>
    unfold exec execSockOpen at e
    exact faithful_onHandle e fun hd => faithful_finish ((h.openSocket hd _ _).seq fun _ _ h => h)
  case sockListen =>
    unfold exec execSockListen at e
    exact faithful_onHandle e fun hd => faithful_finish ((h.listen hd.n).seq fun _ _ h => h)
  case sockConnect =>
    unfold exec execSockConnect at e
    exact faithful_onHandle e fun hd => faithful_finish ((h.connect hd.n _ _).seq fun _ _ h => h)
  case sockDisconnect =>
    unfold exec execSockDisconnect at e
    exact faithful_onHandle e fun hd => faithful_finish (((h.at ..).execProtocol hd.n _).seq fun _ _ h => h)
  case sockClose =>
    unfold exec execSockClose at e
    exact faithful_onHandle e fun hd => faithful_finish (((h.at ..).execProtocol hd.n _).seq fun _ _ h => h)
  case sockRead =>
    unfold exec execSockRead at e
    exact faithful_onHandle e fun hd => faithful_stream (h.streamRead hd _)
  case sockWrite =>
    unfold exec execSockWrite at e
    exact faithful_onHandle e fun hd => faithful_stream (h.streamWrite hd _)

/-- What R312 says of the actions since `s`: only the last may be a failed frame, and then the result carries its cause. -/
theorem acts_of_faithful {s t : State} (h : Faithful s t) :
    ∃ acts, t.out = acts ++ s.out ∧ (∀ a ∈ acts.drop 1, busFailed a = false) ∧
      ∃ r, t.result = some r ∧ (acts.head?.any busFailed = (resultCause r).isSome) ∧
        ∀ c, resultCause r = some c → some c ∈ s.env.transfers ∧ t.cs = .high := by
  obtain ⟨r, hr, h⟩ := h
  cases hc : resultCause r with
  | none =>
    rw [hc] at h
    obtain ⟨acts, hout, hok⟩ := h.out
    refine ⟨acts, hout, fun a ha => hok a (List.mem_of_mem_drop ha), r, hr, ?_, by simp [hc]⟩
    cases acts with
    | nil => simp [hc]
    | cons a rest => simpa [hc] using hok a List.mem_cons_self
  | some c =>
    rw [hc] at h
    obtain ⟨a, rest, hout, hfail, hok⟩ := h.out
    refine ⟨a :: rest, hout, hok, r, hr, by simp [hc, hfail], fun c' hc' => ?_⟩
    obtain rfl : c = c' := Option.some.inj (hc.symm.trans hc')
    exact ⟨h.cause, h.cs⟩

/-- Settles O22: the one frame of a read and of a write, failed in its header or its data; then every operation. -/
theorem transferFailureEnds : Obligations.TransferFailureEnds := by
  refine ⟨fun s blk off len data cause rest _ => ⟨fun htr => ?_, fun htr => ?_⟩,
    fun i s t hi e => acts_of_faithful (exec_faithful hi e)⟩
  · have hfail (w : Bool) :
        FrameFails (header blk off w) s.env.transfers cause (.headerFailed (header blk off w)) rest := by
      rw [htr]
      exact .header cause rest
    exact ⟨⟨_, rfl, readOp_fails (hfail false) len .bytes⟩, ⟨_, rfl, writeOp_fails (hfail true) data⟩⟩
  · have hfail (w : Bool) :
        FrameFails (header blk off w) s.env.transfers cause (.dataFailed (header blk off w)) rest := by
      rw [htr]
      exact .data cause rest
    exact ⟨⟨_, rfl, readOp_fails (hfail false) len .bytes⟩, ⟨_, rfl, writeOp_fails (hfail true) data⟩⟩

end Sys2Proof.Proofs
end

section
/-! PROOFS. The statements of 41_chip_control.md: soft reset, identification and configuration, from one lemma per frame
and one for the polls of a running reset. -/

namespace Sys2Proof.Proofs

open Sys2Proof.Machine Sys2Proof.Safety

/-! What a part of an operation does at the boundary -/

/-- A run that uses up `g` gaps, adds `acts` to the trace, in order, and ends with chip-select high. -/
structure Traced (g : Nat) (acts : List BusAct) (s t : State) : Prop extends Ran g s t where
  cs : t.cs = .high
  out : t.out = acts.reverse ++ s.out

section traced

variable {g k : Nat} {acts more : List BusAct} {s t u : State}

theorem Traced.refl (hcs : s.cs = .high) : Traced 0 [] s s := ⟨Ran.refl s, hcs, rfl⟩

theorem Traced.trans (h : Traced g acts s t) (i : Traced k more t u) : Traced (g + k) (acts ++ more) s u where
  toRan := h.toRan.trans i.toRan
  cs := i.cs
  out := by rw [i.out, h.out, List.reverse_append, List.append_assoc]

/-- A first part inside the block puts nothing on the bus. -/
theorem Traced.precededBy (h : Traced g acts t u) (r : Ran 0 s t) (ho : t.out = s.out) : Traced g acts s u where
  toRan := Nat.zero_add g ▸ r.trans h.toRan
  cs := h.cs
  out := ho ▸ h.out

/-- A last part inside the block puts nothing on the bus. -/
theorem Traced.followedBy (h : Traced g acts s t) (r : Ran 0 t u) (hcs : u.cs = t.cs) (ho : u.out = t.out) :
    Traced g acts s u where
  toRan := h.toRan.trans r
  cs := hcs.trans h.cs
  out := ho.trans h.out

theorem Traced.ofGoto {op : SeqOp} {n : Nat} (h : Traced g acts (goto op n s) t) : Traced g acts s t :=
  h.precededBy ((Ran.refl s).goto op n) rfl

theorem Traced.goto (h : Traced g acts s t) (op : SeqOp) (n : Nat) : Traced g acts s (goto op n t) :=
  h.followedBy ((Ran.refl t).goto op n) rfl rfl

theorem Traced.setLat (h : Traced g acts s t) (l : Latches) : Traced g acts s (t.setLat l) :=
  h.followedBy ((Ran.refl t).setLat l) rfl rfl

theorem traced_of_framed {hdr : Header} {data : List Byte} (h : Framed hdr data s t) :
    Traced 1 [.frame hdr data] s t :=
  ⟨h.toRan, h.cs, h.out⟩

end traced

/-- Every frame to block 0 completes and is answered, and an offset names one common register. -/
structure Answers (s : State) : Prop extends Clean s where
  disjoint : CommonDisjoint s.cfg

theorem Answers.after {g : Nat} {s t : State} (hs : Answers s) (h : Ran g s t) : Answers t :=
  ⟨h.clean hs.toClean, h.cfg ▸ hs.disjoint⟩

/-! Frames to the mode and version registers -/

/-- The write frame of one byte of the mode register. -/
abbrev mrWrite (c : Cfg) (v : Byte) : BusAct := writeFrame 0#5 c.common.mr [v]

/-- A read frame of the mode register, with the byte it showed. -/
abbrev mrRead (c : Cfg) (v : Byte) : BusAct := readFrame 0#5 c.common.mr [v]

theorem writeByte_mr_run {s : State} (hs : Answers s) (v : Byte) :
    ∃ t, writeByte 0#5 (commonOff s.cfg .mr) v s = .ok () t ∧ Traced 1 [mrWrite s.cfg v] s t ∧
      t.chip = (writeMr v (chipTurn s)).chip := by
  obtain ⟨t, hrun, hframe, hchip⟩ := memWrite_run hs.toClean 0#5 (commonOff s.cfg .mr) [v]
  refine ⟨t, hrun, traced_of_framed hframe, hchip.trans ?_⟩
  have hd := hs.disjoint
  have hw : [v].length ≤ CommonReg.mr.width := Nat.le_refl 1
  rw [← chipTurn_cfg s] at hd ⊢
  rw [storeFrame_common hd hw]
  rfl

theorem readByte_common_run {s : State} (hs : Answers s) {r : CommonReg} (hr : r.width = 1) :
    ∃ t, readByte 0#5 (commonOff s.cfg r) s = .ok (commonByte (chipTurn s).chip r 0) t ∧
      Traced 1 [readFrame 0#5 (commonOff s.cfg r) [commonByte (chipTurn s).chip r 0]] s t ∧
      t.chip = (chipTurn s).chip ∧ t.lat.poll = s.lat.poll := by
  obtain ⟨t, hrun, hframe, hchip⟩ := memRead_run hs.toClean 0#5 (commonOff s.cfg r) 1
  have hdata : frameData (chipTurn s) false 0#5 (commonOff s.cfg r) 1 = [commonByte (chipTurn s).chip r 0] := by
    have hd := hs.disjoint
    rw [← chipTurn_cfg s] at hd ⊢
    rw [← hr, frameData_common hd, hr]
    rfl
  rw [hdata] at hrun hframe
  refine ⟨t, ?_, traced_of_framed hframe, hchip, by rw [hframe.lat]⟩
  rw [readByte, hrun]
  rfl

/-- A read of the mode register shows what the chip has after the gap, and latches it. -/
theorem readMr_run {s : State} (hs : Answers s) {c : Chip} (hc : (chipTurn s).chip = c) :
    ∃ t, readMr s = .ok () t ∧ Traced 1 [mrRead s.cfg c.mr] s t ∧ t.chip = c ∧ t.lat.mrv = c.mr ∧
      t.lat.poll = s.lat.poll := by
  obtain ⟨t, hrun, htr, hchip, hpoll⟩ := readByte_common_run hs (r := .mr) rfl
  rw [hc] at hrun htr hchip
  refine ⟨setMrv c.mr t, ?_, htr.setLat _, hchip, rfl, hpoll⟩
  rw [readMr, hrun]
  rfl

/-! Polls of a running reset -/

/-- One poll of a reset: done exactly when the byte read is 0x00 (R191 steps 3 and 4). -/
theorem resetPoll_run {s : State} (hs : Answers s) {c : Chip} (hc : (chipTurn s).chip = c) :
    ∃ t, resetPoll s = .ok (c.mr == 0x00#8) t ∧ Traced 1 [mrRead s.cfg c.mr] s t ∧ t.chip = c ∧
      t.lat.mrv = c.mr ∧ t.lat.poll = s.lat.poll := by
  obtain ⟨t, hrun, htr, hchip, hmrv, hpoll⟩ :=
    readMr_run (hs.after ((Ran.refl s).goto .softReset 3)) (c := c) (by rw [chipTurn_goto]; exact hc)
  refine ⟨goto .softReset 4 t, ?_, (htr.goto .softReset 4).ofGoto, hchip, hmrv, hpoll⟩
  rw [resetPoll, hrun, Res.andThen_ok, hmrv]

/-- R191: `k` polls that show the reset still running, a sleep after each. -/
def busyPolls (c : Cfg) (k : Nat) : List BusAct :=
  (List.replicate k [mrRead c mrRst, .sleep resetIntervalMs]).flatten

theorem busyPolls_succ (c : Cfg) (k : Nat) :
    busyPolls c (k + 1) = [mrRead c mrRst, .sleep resetIntervalMs] ++ busyPolls c k := by
  simp [busyPolls, List.replicate_succ]

theorem Traced.nextPoll {g ms : Nat} {acts : List BusAct} {s t : State} (h : Traced g acts s t) (w : WaitSteps) :
    Traced g (acts ++ [.sleep ms]) s (nextPoll w ms t) := by
  obtain ⟨hran, -, -, hout, hcs, -, -⟩ := ran_nextPoll w ms t
  exact h.trans (more := [.sleep ms]) ⟨hran, hcs.trans h.cs, hout⟩

section polls

variable {budget : Nat} {timeout : State → Err} {s : State}

/-- `k` polls in quiet gaps of a running reset, before the last one, leave the loop where it was but for the count. -/
theorem resetLoop_busy (hs : Answers s) (hcs : s.cs = .high) (hmr : s.chip.mr = mrRst) {k : Nat} (fuel : Nat)
    (hq : QuietFor s k) (hb : s.lat.poll + k ≤ budget) :
    ∃ t, pollLoop resetSteps budget resetIntervalMs timeout resetPoll (k + fuel) s =
        pollLoop resetSteps budget resetIntervalMs timeout resetPoll fuel t ∧
      Traced k (busyPolls s.cfg k) s t ∧ t.chip = s.chip ∧ t.lat.poll = s.lat.poll + k := by
  induction k generalizing s with
  | zero => exact ⟨s, by rw [Nat.zero_add], .refl hcs, rfl, rfl⟩
  | succ k ih =>
    obtain ⟨t, hrun, htr, hchip, -, hpoll⟩ := resetPoll_run hs (chipTurn_quiet (hq 0 (by omega)))
    rw [hmr] at hrun htr
    have htr := htr.followedBy ((Ran.refl t).setSeq resetSteps.test) rfl rfl
    have hnext := htr.nextPoll (ms := resetIntervalMs) resetSteps
    obtain ⟨-, hchip', hlat, -⟩ := ran_nextPoll resetSteps resetIntervalMs (t.setSeq resetSteps.test)
    generalize hu : nextPoll resetSteps resetIntervalMs (t.setSeq resetSteps.test) = u at hnext hchip' hlat
    have hchipU : u.chip = s.chip := hchip'.trans hchip
    have hpollU : u.lat.poll = s.lat.poll + 1 := by rw [hlat, ← hpoll]; rfl
    obtain ⟨v, hloop, hrest, hchipV, hpollV⟩ := ih (hs.after hnext.toRan) hnext.cs (hchipU ▸ hmr)
      (QuietFor.after (by rwa [Nat.add_comm]) hnext.toRan) (by omega)
    refine ⟨v, ?_, ?_, hchipV.trans hchipU, by omega⟩
    · rw [Nat.add_right_comm, pollLoop_again hrun (by omega), hu, hloop]
    · rw [hnext.cfg] at hrest
      rw [busyPolls_succ, Nat.add_comm]
      exact hnext.trans hrest

theorem resetLoop_done (hs : Answers s) {c : Chip} (hc : (chipTurn s).chip = c) (hmr : c.mr = 0x00#8) (fuel : Nat) :
    ∃ t, pollLoop resetSteps budget resetIntervalMs timeout resetPoll (fuel + 1) s = .ok () t ∧
      Traced 1 [mrRead s.cfg 0x00#8] s t ∧ t.chip = c := by
  obtain ⟨t, hrun, htr, hchip, -⟩ := resetPoll_run hs hc
  rw [hmr] at hrun htr
  exact ⟨t, pollLoop_done hrun, htr, hchip⟩

theorem resetLoop_spent (hs : Answers s) (hq : gapAt s 0 = []) (hmr : s.chip.mr = mrRst) (hb : s.lat.poll = budget)
    (fuel : Nat) :
    ∃ t u, pollLoop resetSteps budget resetIntervalMs timeout resetPoll (fuel + 1) s = .err (timeout t) u ∧
      t.lat.mrv = mrRst ∧ Traced 1 [mrRead s.cfg mrRst] s u ∧ u.chip = s.chip := by
  obtain ⟨t, hrun, htr, hchip, hmrv, hpoll⟩ := resetPoll_run hs (chipTurn_quiet hq)
  rw [hmr] at hrun htr hmrv
  exact ⟨t, _, pollLoop_spent hrun (hpoll.trans hb), hmrv, htr.followedBy ((Ran.refl t).setSeq _) rfl rfl, hchip⟩

end polls

/-! Soft reset -/

/-- The chip while a soft reset runs, as the model has it (log entries 18, 39). -/
def inReset (c : Chip) : Chip := { c with mr := mrRst, resetting := true }

/-- The reset byte and `k` polls of the twenty in quiet gaps (R191). -/
theorem softReset_busy {s : State} (hs : Answers s) {k fuel : Nat} (hk : k + fuel = resetPolls) (hf : 1 ≤ fuel)
    (hq : QuietFor s (k + 1)) :
    ∃ t, softReset s =
        pollLoop resetSteps resetPolls resetIntervalMs (fun s => .resetTimeout s.lat.mrv) resetPoll fuel t ∧
      Traced (k + 1) (mrWrite s.cfg mrRst :: busyPolls s.cfg k) s t ∧ t.chip = inReset s.chip ∧
      t.lat.poll = k + 1 := by
  obtain ⟨t, hrun, htr, hchip⟩ := writeByte_mr_run (hs.after ((Ran.refl s).goto .softReset 1)) mrRst
  have hchip : t.chip = inReset s.chip := by
    rw [hchip, writeMr_starts_reset (by decide), chipTurn_quiet (s := goto .softReset 1 s) (hq 0 (by omega))]
    rfl
  have hstart := (htr.ofGoto.goto .softReset 2).setLat { t.lat with poll := 1 }
  obtain ⟨u, hloop, hpolls, hchipU, hpoll⟩ := resetLoop_busy (budget := resetPolls)
    (timeout := fun s => .resetTimeout s.lat.mrv) (hs.after hstart.toRan) hstart.cs
    (congrArg Chip.mr hchip) fuel (QuietFor.after (by rwa [Nat.add_comm]) hstart.toRan)
    (by rw [← hk]; show 1 + k ≤ k + fuel; omega)
  refine ⟨u, ?_, ?_, hchipU.trans hchip, hpoll.trans (Nat.add_comm 1 k)⟩
  · have hrun : writeByte 0#5 (commonOff s.cfg .mr) mrRst (goto .softReset 1 s) = .ok () t := hrun
    rw [softReset, hrun, Res.andThen_ok, ← hloop, hk]
    rfl
  · rw [hstart.cfg] at hpolls
    rw [Nat.add_comm]
    exact hstart.trans hpolls

/-- R288: a gap in which a running reset completes. -/
theorem chipTurn_resetDone {s : State} (hg : gapAt s 0 = [.resetDone]) (hr : s.chip.resetting = true) :
    (chipTurn s).chip = resetChip s.free s.chip := by
  rw [chipTurn_eq, hg]
  simp [chipStep, hr, tick]

/-- R191: the chip completes the reset before poll `m`. -/
theorem softReset_run {s : State} (hs : Answers s) {m : Nat} (h1 : 1 ≤ m) (h20 : m ≤ 20) (hq : QuietFor s m)
    (hdone : gapAt s m = [.resetDone]) :
    ∃ t k c, softReset s = .ok () t ∧
      Traced (m + 1) (mrWrite s.cfg mrRst :: (busyPolls s.cfg (m - 1) ++ [mrRead s.cfg 0x00#8])) s t ∧
      t.chip = resetChip k c := by
  obtain ⟨k, rfl⟩ : ∃ k, m = k + 1 := ⟨m - 1, by omega⟩
  obtain ⟨t, hrun, htr, hchip, -⟩ := softReset_busy hs (k := k) (fuel := 19 - k + 1)
    (show k + (19 - k + 1) = 20 by omega) (by omega) hq
  have hturn : (chipTurn t).chip = resetChip t.free t.chip :=
    chipTurn_resetDone (by rw [htr.toRan.gapAt]; exact hdone) (congrArg Chip.resetting hchip)
  obtain ⟨u, hloop, hread, hchipU⟩ := resetLoop_done (budget := resetPolls)
    (timeout := fun s => .resetTimeout s.lat.mrv) (hs.after htr.toRan) hturn rfl (19 - k)
  rw [htr.cfg] at hread
  exact ⟨u, t.free, t.chip, hrun.trans hloop, htr.trans hread, hchipU⟩

/-- R191, R314: twenty polls show the reset running. -/
theorem softReset_timeout {s : State} (hs : Answers s) (hq : QuietFor s 21) :
    ∃ t, softReset s = .err (.resetTimeout mrRst) t ∧
      Traced 21 (mrWrite s.cfg mrRst :: (busyPolls s.cfg 19 ++ [mrRead s.cfg mrRst])) s t ∧
      t.chip = inReset s.chip := by
  obtain ⟨t, hrun, htr, hchip, hpoll⟩ := softReset_busy hs (k := 19) (fuel := 1) rfl (Nat.le_refl 1)
    fun j hj => hq j (by omega)
  obtain ⟨x, u, hloop, hmrv, hread, hchipU⟩ := resetLoop_spent (budget := resetPolls)
    (timeout := fun s => .resetTimeout s.lat.mrv) (hs.after htr.toRan)
    (by rw [htr.toRan.gapAt]; exact hq 20 (by omega)) (congrArg Chip.mr hchip) hpoll 0
  rw [htr.cfg] at hread
  refine ⟨u, ?_, htr.trans hread, hchipU.trans hchip⟩
  rw [hrun, hloop, hmrv]

/-- Settles O25, by the polls that come before the one that sees the reset complete. -/
theorem softResetCompletes : Obligations.SoftResetCompletes := by
  intro s m hs hd h1 h20 hq hdone
  obtain ⟨t, k, c, hrun, htr, hchip⟩ := softReset_run ⟨hs, hd⟩ h1 h20 hq hdone
  refine ⟨complete (.done .unit) t, ?_, ended_of htr.toRan htr.cs _, congrArg Chip.mr hchip,
    congrArg Chip.versionr hchip, congrArg Chip.resetting hchip, htr.out⟩
  rw [exec, execCtlSoftReset, hrun]
  rfl

/-- Settles O26, by nineteen polls with a sleep and the one that spends the budget. -/
theorem softResetTimesOut : Obligations.SoftResetTimesOut := by
  intro s hs hd hq
  obtain ⟨t, hrun, htr, hchip⟩ := softReset_timeout ⟨hs, hd⟩ hq
  refine ⟨complete (.failed (.resetTimeout mrRst)) t, ?_, ended_of htr.toRan htr.cs _, hchip, htr.out⟩
  rw [exec, execCtlSoftReset, hrun]
  rfl

/-! Identification -/

/-- R192, R289: a fingerprint byte written outside a reset is stored and reads back. -/
theorem fingerprint_run {s : State} (hs : Answers s) (hq : QuietFor s 2) (hr : s.chip.resetting = false)
    (stage : Nat) {v : Byte} (hv : v = 0x00#8 ∨ v = 0x08#8 ∨ v = 0x10#8) :
    ∃ t, fingerprint stage v s = .ok () t ∧ Traced 2 [mrWrite s.cfg v, mrRead s.cfg v] s t ∧
      t.chip = { s.chip with mr := v } := by
  obtain ⟨t, hwrite, htr, hchip⟩ := writeByte_mr_run (hs.after ((Ran.refl s).goto .verifyId stage)) v
  have hturn : (chipTurn (goto .verifyId stage s)).chip = s.chip := chipTurn_quiet (hq 0 (by omega))
  have hchip : t.chip = { s.chip with mr := v } := by
    rw [hchip, writeMr_stores hv (by rw [hturn]; exact hr), hturn]
  have htr := htr.ofGoto
  obtain ⟨u, hread, hback, hchipU, hmrv, -⟩ := readMr_run (hs.after htr.toRan)
    (chipTurn_quiet (by rw [htr.toRan.gapAt]; exact hq 1 (by omega)))
  rw [hchip] at hback hmrv
  rw [htr.cfg] at hback
  refine ⟨u, ?_, htr.trans hback, hchipU.trans hchip⟩
  have hwrite : writeByte 0#5 (commonOff s.cfg .mr) v (goto .verifyId stage s) = .ok () t := hwrite
  rw [fingerprint, hwrite, Res.andThen_ok, hread, Res.andThen_ok, if_neg (not_not_intro hmrv)]

/-- R193, R290: the version register is read and compared. -/
theorem versionCheck_run {s : State} (hs : Answers s) (hq : gapAt s 0 = []) :
    ∃ t, versionCheck s =
        (if s.chip.versionr = versionExpected then .ok () t else .err (.chipNotDetected 4 s.chip.versionr) t) ∧
      Traced 1 [readFrame 0#5 s.cfg.common.versionr [s.chip.versionr]] s t ∧ t.chip = s.chip := by
  obtain ⟨t, hrun, htr, hchip, -⟩ :=
    readByte_common_run (hs.after ((Ran.refl s).goto .verifyId 4)) (r := .versionr) rfl
  have hturn : (chipTurn (goto .verifyId 4 s)).chip = s.chip := chipTurn_quiet hq
  rw [hturn] at hrun htr hchip
  refine ⟨t, ?_, htr.ofGoto, hchip⟩
  have hrun : readByte 0#5 (commonOff s.cfg .versionr) (goto .verifyId 4 s) = .ok s.chip.versionr t := hrun
  rw [versionCheck, hrun, Res.andThen_ok, ite_not]

/-- What the three fingerprints do at the boundary when each reads back, in order (R192). -/
def fingerprintTrace (c : Cfg) : List BusAct :=
  [mrWrite c fpFirst, mrRead c fpFirst, mrWrite c fpSecond, mrRead c fpSecond, mrWrite c fpThird, mrRead c fpThird]

/-- R192, R289: the three fingerprints, one after the other, then whatever follows. -/
theorem fingerprints_run {s : State} (hs : Answers s) (hq : QuietFor s 6) (hr : s.chip.resetting = false)
    (f : Unit → State → Res Unit) :
    ∃ t, ((fingerprint 1 fpFirst s).andThen fun _ s => (fingerprint 2 fpSecond s).andThen fun _ s =>
        (fingerprint 3 fpThird s).andThen f) = f () t ∧
      Traced 6 (fingerprintTrace s.cfg) s t ∧ t.chip = { s.chip with mr := fpThird } := by
  obtain ⟨t, hfirst, htr, hchip⟩ :=
    fingerprint_run hs (fun j hj => hq j (by omega)) hr 1 (v := fpFirst) (by decide)
  have hq : QuietFor t 4 := QuietFor.after hq htr.toRan
  obtain ⟨u, hsecond, hpair, hchip'⟩ := fingerprint_run (hs.after htr.toRan) (fun j hj => hq j (by omega))
    (by rw [hchip]; exact hr) 2 (v := fpSecond) (by decide)
  have hq : QuietFor u 2 := QuietFor.after hq hpair.toRan
  rw [htr.cfg] at hpair
  rw [hchip] at hchip'
  have htr := htr.trans hpair
  obtain ⟨v, hthird, hpair, hchip⟩ := fingerprint_run (hs.after htr.toRan) hq
    (by rw [hchip']; exact hr) 3 (v := fpThird) (by decide)
  rw [htr.cfg] at hpair
  rw [hchip'] at hchip
  refine ⟨v, ?_, htr.trans hpair, hchip⟩
  rw [hfirst, Res.andThen_ok, hsecond, Res.andThen_ok, hthird, Res.andThen_ok]

/-- R192, R193: identification on a chip that is not in reset. -/
theorem verifyIdentity_run {s : State} (hs : Answers s) (hq : QuietFor s 7) (hr : s.chip.resetting = false) :
    ∃ t, verifyIdentity s =
        (if s.chip.versionr = versionExpected then .ok () (goto .verifyId 5 t)
          else .err (.chipNotDetected 4 s.chip.versionr) t) ∧
      Traced 7 (fingerprintTrace s.cfg ++ [readFrame 0#5 s.cfg.common.versionr [s.chip.versionr]]) s t ∧
      t.chip = { s.chip with mr := 0x00#8 } := by
  obtain ⟨t, hpairs, htr, hchip⟩ := fingerprints_run hs (fun j hj => hq j (by omega)) hr
    fun _ s => (versionCheck s).andThen fun _ s => .ok () (goto .verifyId 5 s)
  obtain ⟨u, hversion, hread, hchipU⟩ := versionCheck_run (hs.after htr.toRan)
    (by rw [htr.toRan.gapAt]; exact hq 6 (by omega))
  rw [htr.cfg, hchip] at hread
  rw [hchip] at hversion
  refine ⟨u, ?_, htr.trans hread, hchipU.trans hchip⟩
  rw [verifyIdentity, hpairs, hversion]
  split <;> rfl

/-- Settles O27, by the three fingerprints and the version check; both results leave the same chip and trace. -/
theorem verifyIdentityCompletes : Obligations.VerifyIdentityCompletes := by
  intro s hs hd hq hr
  obtain ⟨t, hrun, htr, hchip⟩ := verifyIdentity_run ⟨hs, hd⟩ hq hr
  refine ⟨complete _ t, ?_, ended_of htr.toRan htr.cs _, hchip, htr.out⟩
  rw [exec, execCtlVerifyId, hrun]
  by_cases hv : s.chip.versionr = versionExpected
  · rw [if_pos hv, if_pos (c := s.chip.versionr = 0x04#8) hv]
    rfl
  · rw [if_neg hv, if_neg (c := s.chip.versionr = 0x04#8) hv]
    rfl

/-! Configuration -/

/-- R190 step 1, log entry 30: the bus settings Configure applies. -/
def withBus (s : State) : State := s.setBus (some ⟨8300000, true, s.cfg.spiMode⟩)

/-- R190 steps 1 and 2: beside the bus settings, only the sequencer and the level of chip-select change. -/
theorem ran_applyBus (s : State) : Ran 0 (withBus s) (applyBus s) :=
  ⟨rfl, rfl, rfl, rfl, rfl, rfl, rfl, rfl, rfl, Nat.le_refl _⟩

/-- R190: soft reset, then identification of the chip the reset leaves, whatever the bus settings were before. -/
theorem configure_run {s : State} (hs : Answers (withBus s)) {m : Nat} (h1 : 1 ≤ m) (h20 : m ≤ 20)
    (hq : QuietFor s m) (hdone : gapAt s m = [.resetDone]) (hq' : ∀ j, j < 7 → gapAt s (m + 1 + j) = []) :
    ∃ t k c, configure s = .ok () t ∧
      Traced (m + 1 + 7)
        (mrWrite s.cfg mrRst :: (busyPolls s.cfg (m - 1) ++ [mrRead s.cfg 0x00#8]) ++
          (fingerprintTrace s.cfg ++ [readFrame 0#5 s.cfg.common.versionr [versionExpected]]))
        (withBus s) t ∧
      t.chip = resetChip k c := by
  have hran := (ran_applyBus s).goto .configure 3
  obtain ⟨t, k, c, hreset, htr, hchip⟩ := softReset_run (hs.after hran) h1 h20 hq hdone
  have htr := (htr.precededBy hran rfl).goto .configure 4
  obtain ⟨u, hident, hid, hchipU⟩ := verifyIdentity_run (hs.after htr.toRan)
    (fun j hj => by rw [htr.toRan.gapAt]; exact hq' j hj) (congrArg Chip.resetting hchip)
  have hversion : (goto .configure 4 t).chip.versionr = versionExpected := congrArg Chip.versionr hchip
  rw [if_pos hversion] at hident
  rw [hversion, htr.cfg] at hid
  refine ⟨goto .verifyId 5 u, k, c, ?_, (htr.trans hid).goto .verifyId 5, hchipU.trans ?_⟩
  · rw [configure, hreset, Res.andThen_ok, hident]
    rfl
  · exact congrArg (fun c : Chip => { c with mr := 0x00#8 }) hchip

/-- Settles O28, from `withBus s`, where the transfer conditions are those of `Clean`. -/
theorem configureCompletes : Obligations.ConfigureCompletes := by
  intro s m htransfers hmissed hd h1 h20 hq hdone hq'
  have hs : Answers (withBus s) := ⟨⟨rfl, htransfers, hmissed⟩, hd⟩
  obtain ⟨t, k, c, hrun, htr, hchip⟩ := configure_run hs h1 h20 hq hdone hq'
  refine ⟨complete (.done .unit) t, ?_, ended_of htr.toRan htr.cs _, congrArg Chip.mr hchip,
    congrArg Chip.versionr hchip, congrArg Chip.resetting hchip, htr.out.trans ?_⟩
  · rw [exec, execCtlConfigure, hrun]
    rfl
  · rw [List.cons_append, List.append_assoc]
    rfl

/-- The three errors of R194. -/
theorem identErr_cases {c : Err} (h : identErr c = true) :
    (∃ k, c = .ioError k) ∨ (∃ v, c = .resetTimeout v) ∨ ∃ k v, c = .chipNotDetected k v := by
  cases c
  case ioError k => exact .inl ⟨k, rfl⟩
  case resetTimeout v => exact .inr (.inl ⟨v, rfl⟩)
  case chipNotDetected k v => exact .inr (.inr ⟨k, v, rfl⟩)
  all_goals cases h

/-- Settles O29: `ends_configure` gives the wrapped error, `kept_configure` the bus settings and chip-select. -/
theorem configureWrapsErrors : Obligations.ConfigureWrapsErrors := by
  intro s t e hexec hres
  have hkept : Kept (fun _ => True) (applyBus s) (configure s).state := kept_configure (opOk_true s .ctlConfigure) rfl s
  have hends := ends_configure s
  rw [exec, execCtlConfigure] at hexec
  generalize configure s = r at hexec hkept hends
  cases r with
  | ok a u =>
    cases hexec
    cases hres
  | err e' u =>
    cases hexec
    cases hres
    refine ⟨hkept.cs.elim id id, hkept.bus, ?_⟩
    cases e
    case configurationError c => exact ⟨c, rfl, identErr_cases hends⟩
    all_goals cases hends

end Sys2Proof.Proofs
end

section
/-! PROOFS. The statements of 42_socket_commands.md: new handles, the status read, the command protocol, Open, Listen
and Connect, from one lemma per register frame, one for the polls of the command register and one for a round of the
connect wait. -/

namespace Sys2Proof.Proofs

open Sys2Proof.Machine Sys2Proof.Safety

/-! The ephemeral port and new handles -/

/-- Settles O16: the sum stays below 2^16. -/
theorem ephemeralPortRange : Obligations.EphemeralPortRange := by
  intro draw
  have hmod : draw % 16383 < 16383 := Nat.mod_lt _ (by decide)
  have hval : (ephemeralPort draw).toNat = 49152 + draw % 16383 := by
    rw [ephemeralPort, BitVec.toNat_ofNat]
    exact Nat.mod_eq_of_lt (show 49152 + draw % 16383 < 65536 by omega)
  omega

theorem bufSize_ofNat?_bytes (size : BufSize) : BufSize.ofNat? size.bytes = some size := by
  cases size <;> rfl

theorem bufSize_ofNat?_eq_none {n : Nat} (h : n ∉ [1024, 2048, 4096, 8192, 16384]) : BufSize.ofNat? n = none := by
  simp only [List.mem_cons, List.not_mem_nil, or_false, not_or] at h
  obtain ⟨h1, h2, h3, h4, h5⟩ := h
  simp only [BufSize.ofNat?, h1, h2, h3, h4, h5, if_false]

theorem bufSize_ofNat?_isSome {n : Nat} (h : n ∈ [1024, 2048, 4096, 8192, 16384]) :
    ∃ size, BufSize.ofNat? n = some size := by
  simp only [List.mem_cons, List.not_mem_nil, or_false] at h
  rcases h with rfl | rfl | rfl | rfl | rfl
  exacts [⟨.s1024, rfl⟩, ⟨.s2048, rfl⟩, ⟨.s4096, rfl⟩, ⟨.s8192, rfl⟩, ⟨.s16384, rfl⟩]

theorem sizeOf?_legal {arg : Option Nat} {size : BufSize} (h : arg = some size.bytes ∨ arg = none ∧ size = .s2048) :
    sizeOf? arg = .ok size := by
  rcases h with rfl | ⟨rfl, rfl⟩
  · simp only [sizeOf?, bufSize_ofNat?_bytes]
  · rfl

/-- A size argument is refused exactly when it is given and none of the five (D11). -/
theorem sizeOf?_error_iff {arg : Option Nat} {bad : Nat} :
    sizeOf? arg = .error bad ↔ arg = some bad ∧ bad ∉ [1024, 2048, 4096, 8192, 16384] := by
  cases arg with
  | none => simp [sizeOf?]
  | some n =>
    by_cases hn : n ∈ [1024, 2048, 4096, 8192, 16384]
    · obtain ⟨size, hsize⟩ := bufSize_ofNat?_isSome hn
      simp only [sizeOf?, hsize, reduceCtorEq, Option.some.injEq, false_iff, not_and, not_not]
      rintro rfl
      exact hn
    · simp only [sizeOf?, bufSize_ofNat?_eq_none hn, Except.error.injEq, Option.some.injEq]
      exact ⟨fun h => ⟨h, h ▸ hn⟩, And.left⟩

theorem newHandle_of_lt {n : Nat} (h : n < 8) (sTx sRx : Option Nat) :
    newHandle n sTx sRx =
      match sizeOf? sTx, sizeOf? sRx with
      | .error a, _ => .error a
      | .ok _, .error a => .error a
      | .ok tx, .ok rx => .ok ⟨⟨n, h⟩, tx, rx⟩ := by
  rw [newHandle, dif_pos h]
  cases sizeOf? sTx <;> cases sizeOf? sRx <;> rfl

theorem exec_sockNew_of_ok {n : Nat} {sTx sRx : Option Nat} {hd : Handle} (h : newHandle n sTx sRx = .ok hd)
    (s : State) :
    exec (.sockNew n sTx sRx) s =
      .next (complete (.done (.handle s.handles.length hd))
        ((goto .newSocket 3 s).setHandles (s.handles ++ [hd]))) := by
  rw [exec, execSockNew, h]

theorem exec_sockNew_of_error {n : Nat} {sTx sRx : Option Nat} {a : Nat} (h : newHandle n sTx sRx = .error a)
    (s : State) :
    exec (.sockNew n sTx sRx) s = .next (raise (.invalidArgument a) (goto .newSocket (newSocketStep n) s)) := by
  rw [exec, execSockNew, h]

/-- Settles O30: with a legal index and legal sizes `newHandle` gives the handle, and nothing goes on the bus. -/
theorem newSocketMakesHandle : Obligations.NewSocketMakesHandle := by
  intro s n tx rx sTx sRx htx hrx
  have hnew : newHandle n.val sTx sRx = .ok ⟨n, tx, rx⟩ := by
    rw [newHandle_of_lt n.isLt, sizeOf?_legal htx, sizeOf?_legal hrx]
  exact ⟨_, exec_sockNew_of_ok hnew s, ⟨rfl, rfl, rfl, rfl, rfl, rfl, rfl, rfl, rfl⟩, rfl, rfl, rfl, rfl, rfl⟩

/-- R210, D11: the argument `newHandle` refuses: the index, or a size where the index is legal. -/
theorem newHandle_refuses {n : Nat} {sTx sRx : Option Nat}
    (h : 7 < n ∨ ∃ bad, (sTx = some bad ∨ sRx = some bad) ∧ bad ∉ [1024, 2048, 4096, 8192, 16384]) :
    ∃ bad, newHandle n sTx sRx = .error bad ∧ (7 < n → bad = n) ∧
      (n ≤ 7 → (sTx = some bad ∨ sRx = some bad) ∧ bad ∉ [1024, 2048, 4096, 8192, 16384]) := by
  by_cases hn : 7 < n
  · exact ⟨n, by rw [newHandle, dif_neg (by omega)], fun _ => rfl, fun h => absurd hn (by omega)⟩
  · have hsize := h.resolve_left hn
    rw [newHandle_of_lt (by omega)]
    cases htx : sizeOf? sTx with
    | error a =>
      obtain ⟨hgiven, hbad⟩ := sizeOf?_error_iff.mp htx
      exact ⟨a, rfl, fun h => absurd h hn, fun _ => ⟨.inl hgiven, hbad⟩⟩
    | ok tx =>
      cases hrx : sizeOf? sRx with
      | error a =>
        obtain ⟨hgiven, hbad⟩ := sizeOf?_error_iff.mp hrx
        exact ⟨a, rfl, fun h => absurd h hn, fun _ => ⟨.inr hgiven, hbad⟩⟩
      | ok rx =>
        obtain ⟨bad, hgiven | hgiven, hbad⟩ := hsize
        · cases htx.symm.trans (sizeOf?_error_iff.mpr ⟨hgiven, hbad⟩)
        · cases hrx.symm.trans (sizeOf?_error_iff.mpr ⟨hgiven, hbad⟩)

/-- Settles O31, by the argument `newHandle` refuses. -/
theorem newSocketRefuses : Obligations.NewSocketRefuses := by
  intro s n sTx sRx h
  obtain ⟨bad, hnew, hindex, hsize⟩ := newHandle_refuses h
  exact ⟨_, bad, exec_sockNew_of_error hnew s, ⟨rfl, rfl, rfl, rfl, rfl, rfl, rfl, rfl, rfl⟩, hindex, hsize, rfl, rfl,
    rfl, rfl, rfl⟩

/-! Frames to the registers of a socket -/

/-- Every frame to a socket's register block completes and is answered, and an offset names one register. -/
structure SockAnswers (s : State) : Prop extends Clean s where
  disjoint : SockDisjoint s.cfg

theorem SockAnswers.after {g : Nat} {s t : State} (hs : SockAnswers s) (h : Ran g s t) : SockAnswers t :=
  ⟨h.clean hs.toClean, h.cfg ▸ hs.disjoint⟩

/-- A socket operation whose handle is known. -/
theorem onHandle_some {s : State} {h : Half} {hd : Handle} (hh : handleOf s h = some hd) (f : Handle → State → State) :
    onHandle h f s = .next (f hd s) := by
  rw [onHandle, hh]

theorem bank_of_chip {t : State} {c : Chip} {n : SockIdx} {q : Socket} (h : t.chip = withBank c n q) :
    bank t n = q := by
  rw [bank, h, bank_withBank]

/-- A second change of the same bank replaces the first. -/
theorem withBank_after {c : Chip} {t u : State} {n : SockIdx} {q p : Socket} (ht : t.chip = withBank c n q)
    (hu : u.chip = withBank t.chip n p) : u.chip = withBank c n p := by
  rw [hu, ht, withBank_withBank]

/-- R211: a status read latches the status after the gap. -/
theorem status_run {s : State} (hs : SockAnswers s) (n : SockIdx) {c : Chip} (hc : (chipTurn s).chip = c) :
    ∃ t, readStatus n s = .ok () t ∧ Traced 1 [regRead s.cfg n .sr [(c.sock.get n).sr]] s t ∧ t.chip = c ∧
      t.lat.st = (c.sock.get n).sr ∧ t.lat.t0 = s.lat.t0 ∧ t.env.rand = s.env.rand := by
  obtain ⟨t, hrun, hran, hchip, hlat, -, hcs, hrand, -, hout⟩ := readStatus_run hs.toClean hs.disjoint n
  rw [bank, hc] at hlat hout
  exact ⟨t, hrun, ⟨hran, hcs, hout⟩, hchip.trans hc, by rw [hlat], by rw [hlat], hrand⟩

/-- Settles O32: the status read latches the byte, which is the result. -/
theorem statusCompletes : Obligations.StatusCompletes := by
  intro s h hd hs hdis hh
  have hs : SockAnswers (goto .status 1 s) := ⟨⟨hs.configured, hs.noFault, hs.chipAnswers⟩, hdis⟩
  obtain ⟨t, hrun, htr, hchip, hst, -⟩ :=
    status_run hs hd.n (c := (chipTurn s).chip) (by rw [chipTurn_goto]; rfl)
  refine ⟨complete (.done (.byte t.lat.st)) t, ?_, ?_, hchip, htr.out⟩
  · rw [exec, execSockStatus, onHandle_some hh, hrun]
    rfl
  · rw [hst]
    exact ended_of htr.toRan.ofGoto htr.cs _

/-! The command protocol -/

/-- R212: the command protocol, the command taken before poll `m`. -/
theorem command_run {s : State} (hs : SockAnswers s) (n : SockIdx) {code : Byte} (hcode : code ≠ 0x00#8) {m : Nat}
    (h1 : 1 ≤ m) (h10 : m ≤ 10) (ha : Accepts s n 0 m) :
    ∃ t, execProtocol n code s = .ok () t ∧ Traced (m + 1) (commandTrace s.cfg n code m) s t ∧
      t.chip = withBank s.chip n (taken (bank s n) code) ∧ t.env.rand = s.env.rand := by
  obtain ⟨t, hrun, hpolled, hchip, hout⟩ := execProtocol_run hs.toClean hs.disjoint n hcode h1 h10 ha
  exact ⟨t, hrun, ⟨hpolled.toRan, hpolled.cs, hout⟩, hchip, hpolled.draws⟩

theorem pendingPolls_succ (c : Cfg) (n : SockIdx) (code : Byte) (k : Nat) :
    pendingPolls c n code (k + 1) = pendingPolls c n code k ++ [commandRead c n code, .sleep cmdIntervalMs] := by
  simp [pendingPolls, List.replicate_succ']

/-- `k` polls in quiet gaps, before the last one, leave the loop where it was but for the count. -/
theorem execLoop_pending {timeout : State → Err} {n : SockIdx} {code : Byte} {budget k : Nat} {s : State}
    (hs : SockAnswers s) (hcs : s.cs = .high) (hcode : 0 < k → code ≠ 0x00#8) (fuel : Nat) (hq : QuietFor s k)
    (hcr : (bank s n).cr = code) (hcmd : s.lat.cmd = code) (hb : s.lat.poll + k ≤ budget) :
    ∃ t, pollLoop execSteps budget cmdIntervalMs timeout (execPoll n) (k + fuel) s =
        pollLoop execSteps budget cmdIntervalMs timeout (execPoll n) fuel t ∧
      Traced k (pendingPolls s.cfg n code k) s t ∧ t.chip = s.chip ∧ t.lat.cmd = code ∧
      t.lat.poll = s.lat.poll + k := by
  induction k generalizing fuel with
  | zero => exact ⟨s, by rw [Nat.zero_add], .refl hcs, rfl, hcmd, rfl⟩
  | succ k ih =>
    obtain ⟨t, hloop, htr, hchip, hcmd, hpoll⟩ := ih (fun _ => hcode (by omega)) (fuel + 1)
      (fun j hj => hq j (by omega)) (by omega)
    have ht := hs.after htr.toRan
    obtain ⟨v, u, hrun, hpoll', -, -, -, -, rfl, hpolled, hchip', hpollU, hcmdU, hout⟩ :=
      execPoll_again ht.toClean ht.disjoint (hcode (by omega)) (n := n) (by rw [htr.toRan.gapAt]; exact hq k (by omega))
        (by rw [bank, hchip]; exact hcr) hcmd
    refine ⟨_, ?_, ?_, hchip'.trans hchip, hcmdU, by omega⟩
    · rw [show k + 1 + fuel = k + (fuel + 1) by omega, hloop, pollLoop_again hrun (by omega)]
    · have hmore : Traced 1 [commandRead t.cfg n code, .sleep cmdIntervalMs] t _ := ⟨hpolled.toRan, hpolled.cs, hout⟩
      rw [htr.cfg] at hmore
      rw [pendingPolls_succ]
      exact htr.trans hmore

/-- R212 steps 1 to 8: the command is written and stays pending for `k` polls of the ten. -/
theorem execProtocol_pending {s : State} (hs : SockAnswers s) (n : SockIdx) {code : Byte} {k fuel : Nat}
    (hk : k + fuel = cmdPolls) (hf : 1 ≤ fuel) (hcode : 0 < k → code ≠ 0x00#8) (hq : QuietFor s (k + 1)) :
    ∃ t, execProtocol n code s =
        pollLoop execSteps cmdPolls cmdIntervalMs (fun s => .commandTimeout s.lat.cmd) (execPoll n) fuel t ∧
      Traced (k + 1) (commandWrite s.cfg n code :: pendingPolls s.cfg n code k) s t ∧
      t.chip = withBank s.chip n (commanded (bank s n) code) ∧ t.lat.cmd = code := by
  obtain ⟨t, hrun, hpolled, hchip, hcmd, hout⟩ := commandWrite_run hs.toClean hs.disjoint n code (hq 0 (by omega))
  have htr : Traced 1 [commandWrite s.cfg n code] s t := ⟨hpolled.toRan, hpolled.cs, hout⟩
  have hstart := (htr.goto .exec 2).setLat { t.lat with poll := 1 }
  have hcr : (bank t n).cr = code := by rw [bank_of_chip hchip]; rfl
  obtain ⟨u, hloop, hpolls, hchipU, hcmdU, -⟩ := execLoop_pending (budget := cmdPolls)
    (timeout := fun s => .commandTimeout s.lat.cmd) (n := n) (hs.after hstart.toRan) hstart.cs hcode fuel
    (QuietFor.after (by rwa [Nat.add_comm]) hstart.toRan) hcr hcmd
    (by rw [← hk]; show 1 + k ≤ k + fuel; omega)
  rw [hstart.cfg] at hpolls
  refine ⟨u, ?_, ?_, hchipU.trans hchip, hcmdU⟩
  · rw [execProtocol, hrun, Res.andThen_ok, ← hloop, hk]
    rfl
  · rw [Nat.add_comm]
    exact hstart.trans hpolls

/-- R212 step 3: a poll shows what the command register has after the gap. -/
theorem execPoll_shows {s : State} (hs : SockAnswers s) (n : SockIdx) {c : Chip} (hc : (chipTurn s).chip = c) {v : Byte}
    (hv : (c.sock.get n).cr = v) :
    ∃ t, Traced 1 [commandRead s.cfg n v] s t ∧ t.chip = c ∧
      execPoll n s =
        if v = 0x00#8 then .ok true t
        else if v ≠ s.lat.cmd then .err (.invalidCommandState s.lat.cmd v) (goto .exec 5 t)
        else .ok false (goto .exec 5 t) := by
  obtain ⟨t, hpolled, hchip, -, -, hout, -, -, hrun⟩ := execPoll_run hs.toClean hs.disjoint n
  rw [bank, hc, hv] at hout hrun
  exact ⟨t, ⟨hpolled.toRan, hpolled.cs, hout⟩, hchip.trans hc, hrun⟩

/-- U4: the code 0x00 is over at the first poll, when the chip leaves the register alone. -/
theorem execProtocol_zero {s : State} (hs : SockAnswers s) (n : SockIdx) (hq : QuietFor s 2) :
    ∃ t, execProtocol n 0x00#8 s = .ok () t ∧ Traced 2 (commandTrace s.cfg n 0x00#8 1) s t ∧
      t.chip = withBank s.chip n (commanded (bank s n) 0x00#8) := by
  obtain ⟨t, hrun, htr, hchip, -⟩ := execProtocol_pending hs n (k := 0) (fuel := 9 + 1) rfl (by omega)
    (fun h => absurd h (by omega)) (fun j hj => hq j (by omega))
  have hquiet : gapAt t 0 = [] := by rw [htr.toRan.gapAt]; exact hq 1 (by omega)
  have hcr : (t.chip.sock.get n).cr = 0x00#8 := by rw [hchip, bank_withBank]; rfl
  obtain ⟨u, hread, hchipU, hpoll⟩ := execPoll_shows (hs.after htr.toRan) n (chipTurn_quiet hquiet) hcr
  rw [htr.cfg] at hread
  exact ⟨u, hrun.trans (pollLoop_done (hpoll.trans (if_pos rfl))), htr.trans hread, hchipU.trans hchip⟩

/-- U11: a gap in which the chip shows another value in Sn_CR. -/
theorem chipTurn_crShows {s : State} {n : SockIdx} {code v : Byte} (hg : gapAt s 0 = [.crShows n v])
    (hp : (bank s n).pending = some code) (hv : v ≠ 0x00#8) :
    (chipTurn s).chip = withBank s.chip n { bank s n with cr := v } := by
  have hshows : ¬ ((bank s n).pending = none ∨ v = 0x00#8) := by
    rw [hp]
    simp [hv]
  rw [chipTurn_eq, hg]
  exact congrArg State.chip (if_neg hshows)

/-- R320, R327: poll `m` shows a third value, and the command ends there. -/
theorem execProtocol_otherValue {s : State} (hs : SockAnswers s) (n : SockIdx) {code v : Byte} {m : Nat}
    (hv : v ≠ 0x00#8) (hcode : v ≠ code) (h1 : 1 ≤ m) (h10 : m ≤ 10) (hzero : code = 0x00#8 → m = 1)
    (hq : QuietFor s m) (hg : gapAt s m = [.crShows n v]) :
    ∃ t, execProtocol n code s = .err (.invalidCommandState code v) t ∧
      Traced (m + 1) (commandPolls s.cfg n code m v) s t ∧
      t.chip = withBank s.chip n { commanded (bank s n) code with cr := v } := by
  obtain ⟨k, rfl⟩ : ∃ k, m = k + 1 := ⟨m - 1, by omega⟩
  obtain ⟨t, hrun, htr, hchip, hcmd⟩ := execProtocol_pending hs n (k := k) (fuel := 9 - k + 1)
    (show k + (9 - k + 1) = 10 by omega) (by omega) (fun hk h => absurd (hzero h) (by omega)) hq
  have hbank := bank_of_chip hchip
  have hturn := chipTurn_crShows (s := t) (n := n) (code := code) (by rw [htr.toRan.gapAt]; exact hg)
    (by rw [hbank]; rfl) hv
  obtain ⟨u, hread, hchipU, hpoll⟩ := execPoll_shows (hs.after htr.toRan) n hturn (by rw [bank_withBank])
  rw [if_neg hv, hcmd, if_pos hcode] at hpoll
  rw [htr.cfg] at hread
  rw [hbank] at hchipU
  exact ⟨goto .exec 5 u, hrun.trans (pollLoop_err hpoll), (htr.trans hread).goto .exec 5, withBank_after hchip hchipU⟩

/-- R212, R217, R218: the three operations that are the command protocol alone, each with its own sequencer step. -/
theorem exec_command {s : State} {h : Half} {hd : Handle} {i : Instr} {code : Byte} (hh : handleOf s h = some hd)
    (hi : i = .sockExec h code ∨ i = .sockDisconnect h ∧ code = 0x08#8 ∨ i = .sockClose h ∧ code = 0x10#8) :
    ∃ q, exec i s = .next (finish ((execProtocol hd.n code (s.setSeq q)).andThen fun _ s => .ok .unit s)) := by
  rcases hi with rfl | ⟨rfl, rfl⟩ | ⟨rfl, rfl⟩
  · exact ⟨s.seq, by rw [exec, execSockExec, onHandle_some hh]; rfl⟩
  · exact ⟨.running .disconnect 1 0, by rw [exec, execSockDisconnect, onHandle_some hh]; rfl⟩
  · exact ⟨.running .close 1 0, by rw [exec, execSockClose, onHandle_some hh]; rfl⟩

theorem Traced.ofSeq {g : Nat} {acts : List BusAct} {s t : State} {q : Sequencer} (h : Traced g acts (s.setSeq q) t) :
    Traced g acts s t :=
  h.precededBy ((Ran.refl s).setSeq q) rfl

/-- Settles O33: the command is taken before poll `m`, or is the code 0x00. -/
theorem commandCompletes : Obligations.CommandCompletes := by
  intro s h hd i code m hs hdis hh hcase hi
  obtain ⟨q, hexec⟩ := exec_command hh hi
  have hs : SockAnswers (s.setSeq q) := .after ⟨hs, hdis⟩ ((Ran.refl s).setSeq q)
  have hrun : ∃ t, execProtocol hd.n code (s.setSeq q) = .ok () t ∧
      Traced (m + 1) (commandTrace s.cfg hd.n code m) (s.setSeq q) t ∧
      t.chip = withBank s.chip hd.n
        (if code = 0x00#8 then commanded (bank s hd.n) 0x00#8 else taken (bank s hd.n) code) := by
    rcases hcase with ⟨hcode, h1, h10, ha⟩ | ⟨rfl, rfl, hq⟩
    · obtain ⟨t, hrun, htr, hchip, -⟩ := command_run hs hd.n hcode h1 h10 ha
      exact ⟨t, hrun, htr, by rw [if_neg hcode]; exact hchip⟩
    · exact execProtocol_zero hs hd.n hq
  obtain ⟨t, hrun, htr, hchip⟩ := hrun
  rw [hrun] at hexec
  exact ⟨_, hexec, ended_of htr.ofSeq.toRan htr.cs _, hchip, htr.out⟩

/-- Settles O34: ten polls show the command pending. -/
theorem commandTimesOut : Obligations.CommandTimesOut := by
  intro s h hd i code hs hdis hh hcode hi hq
  obtain ⟨q, hexec⟩ := exec_command hh hi
  have hs : SockAnswers (s.setSeq q) := .after ⟨hs, hdis⟩ ((Ran.refl s).setSeq q)
  obtain ⟨t, hrun, hpolled, hchip, hout⟩ := execProtocol_timeout hs.toClean hs.disjoint hd.n hcode hq
  rw [hrun] at hexec
  exact ⟨_, hexec, ended_of hpolled.toRan.ofSeq hpolled.cs _, hchip, hout⟩

/-- Settles O35: the value test of poll `m`. -/
theorem commandReadsOtherValue : Obligations.CommandReadsOtherValue := by
  intro s h hd code v m hs hdis hh hv hcode h1 h10 hzero hq hg
  obtain ⟨t, hrun, htr, hchip⟩ := execProtocol_otherValue ⟨hs, hdis⟩ hd.n hv hcode h1 h10 hzero hq hg
  refine ⟨_, ?_, ended_of htr.toRan htr.cs _, hchip, htr.out⟩
  rw [exec, execSockExec, onHandle_some hh, hrun]
  rfl

/-! The clock, where the environment adds no delay -/

/-- The milliseconds of one action. -/
def sleptIn : BusAct → Nat
  | .sleep ms => ms
  | _ => 0

/-- The milliseconds of the sleeps in a trace. -/
def slept (acts : List BusAct) : Nat := (acts.map sleptIn).sum

@[simp] theorem slept_nil : slept [] = 0 := rfl

@[simp] theorem slept_cons (a : BusAct) (acts : List BusAct) : slept (a :: acts) = sleptIn a + slept acts := rfl

@[simp] theorem slept_append (acts more : List BusAct) : slept (acts ++ more) = slept acts + slept more := by
  simp [slept]

@[simp] theorem slept_reverse (acts : List BusAct) : slept acts.reverse = slept acts := by
  simp [slept, List.sum_reverse]

/-- With no delay left to choose none comes up, and the clock moves by the sleeps alone (R331). -/
def Punctual (s t : State) : Prop :=
  s.env.delays = [] → t.env.delays = [] ∧ t.clock + slept s.out = s.clock + slept t.out

section punctual

variable {s t u : State}

theorem Punctual.refl (s : State) : Punctual s s := fun h => ⟨h, rfl⟩

theorem Punctual.trans (h : Punctual s t) (i : Punctual t u) : Punctual s u := fun hs => by
  obtain ⟨ht, hclock⟩ := h hs
  obtain ⟨hu, hclock'⟩ := i ht
  exact ⟨hu, by omega⟩

theorem punctual_emit {a : BusAct} (ha : sleptIn a = 0) (s : State) : Punctual s (emit a s) := fun h =>
  ⟨h, show s.clock + slept s.out = s.clock + (sleptIn a + slept s.out) by rw [ha, Nat.zero_add]⟩

theorem punctual_chipOnly (h : ChipOnly s t) : Punctual s t := by
  obtain ⟨c, k, rfl⟩ := h
  exact Punctual.refl s

theorem punctual_chipTurn (s : State) : Punctual s (chipTurn s) := by
  have h : Punctual (s.setEnv _) (chipTurn s) := punctual_chipOnly (chipOnly_chipTurn s)
  exact h

theorem punctual_useTransfer (s : State) : Punctual s (useTransfer s) := by
  unfold useTransfer
  split <;> exact Punctual.refl s

theorem punctual_useMissed (s : State) : Punctual s (useMissed s) := by
  unfold useMissed
  split <;> exact Punctual.refl s

theorem punctual_beginFrame (hdr : Header) (s : State) : Punctual s (useMissed (beginFrame hdr s)) :=
  (punctual_chipTurn s).trans (punctual_useMissed (beginFrame hdr s))

theorem Punctual.endFrame {a : BusAct} (h : Punctual s t) (ha : sleptIn a = 0) : Punctual s (endFrame a t) :=
  h.trans (punctual_emit ha (t.setCs .high))

theorem Punctual.useTransfer (h : Punctual s t) : Punctual s (useTransfer t) := h.trans (punctual_useTransfer t)

theorem punctual_memRead (blk : Selector) (off : Half) (n : Nat) (s : State) :
    Punctual s (memRead blk off n s).state := by
  have hbegin := punctual_beginFrame (header blk off false) s
  unfold memRead
  simp only
  split
  · exact hbegin.useTransfer.endFrame rfl
  · split
    · exact hbegin.useTransfer.useTransfer.endFrame rfl
    · exact hbegin.useTransfer.useTransfer.endFrame rfl

theorem Punctual.spoil (h : Punctual s t) (missed : Bool) (blk : Selector) (off : Half) (n : Nat) :
    Punctual s (if missed then t else scrambleFrame blk off n t) := by
  split
  exacts [h, h.trans (punctual_chipOnly (chipOnly_scrambleFrame blk off n t))]

theorem Punctual.deliver (h : Punctual s t) (missed : Bool) (blk : Selector) (off : Half) (d : List Byte) :
    Punctual s (if missed then t else storeFrame blk off d t) := by
  split
  exacts [h, h.trans (punctual_chipOnly (chipOnly_storeFrame blk off d t))]

theorem punctual_memWrite (blk : Selector) (off : Half) (d : List Byte) (s : State) :
    Punctual s (memWrite blk off d s).state := by
  have hbegin := punctual_beginFrame (header blk off true) s
  unfold memWrite
  simp only
  split
  · exact (hbegin.useTransfer.spoil _ blk off d.length).endFrame rfl
  · split
    · exact (hbegin.useTransfer.useTransfer.spoil _ blk off d.length).endFrame rfl
    · exact (hbegin.useTransfer.useTransfer.deliver _ blk off d).endFrame rfl

theorem Punctual.andThen {α β : Type} {r : Res α} {f : α → State → Res β} (h : Punctual s r.state)
    (hf : ∀ a t, Punctual t (f a t).state) : Punctual s (r.andThen f).state := by
  cases r with
  | ok a t => exact h.trans (hf a t)
  | err e t => exact h

theorem Punctual.ite {α : Type} {c : Prop} [Decidable c] {a b : Res α} (ha : Punctual s a.state)
    (hb : Punctual s b.state) : Punctual s (if c then a else b).state := by
  split
  exacts [ha, hb]

theorem punctual_readSock8 (n : SockIdx) (r : SockReg) (s : State) : Punctual s (readSock8 n r s).state :=
  (punctual_memRead (regBlk n) (sockOff s.cfg r) 1 s).andThen fun _ t => Punctual.refl t

theorem punctual_readStatus (n : SockIdx) (s : State) : Punctual s (readStatus n s).state :=
  (punctual_readSock8 n .sr s).andThen fun _ t => Punctual.refl t

theorem punctual_sleep (ms : Nat) (s : State) : Punctual s (sleep ms s) := fun h => by
  unfold sleep advance
  rw [h]
  exact ⟨h, show s.clock + ms + slept s.out = s.clock + (ms + slept s.out) from Nat.add_assoc ..⟩

theorem punctual_nextPoll (w : WaitSteps) (ms : Nat) (s : State) : Punctual s (nextPoll w ms s) :=
  punctual_sleep ms (s.setSeq w.sleep)

theorem punctual_execPoll (n : SockIdx) (s : State) : Punctual s (execPoll n s).state :=
  (punctual_readSock8 n .cr (goto .exec 3 s)).andThen fun _ t =>
    .ite (Punctual.refl t) (.ite (Punctual.refl t) (Punctual.refl t))

theorem punctual_pollLoop {w : WaitSteps} {budget interval : Nat} {timeout : State → Err} {body : State → Res Bool}
    (hbody : ∀ s, Punctual s (body s).state) (fuel : Nat) (s : State) :
    Punctual s (pollLoop w budget interval timeout body fuel s).state := by
  induction fuel generalizing s with
  | zero => exact Punctual.refl s
  | succ fuel ih =>
    exact (hbody s).andThen fun _ t =>
      .ite (Punctual.refl t) (.ite (Punctual.refl t) ((punctual_nextPoll w interval (t.setSeq w.test)).trans (ih _)))

theorem punctual_execProtocol (n : SockIdx) (code : Byte) (s : State) : Punctual s (execProtocol n code s).state :=
  (punctual_memWrite (regBlk n) (sockOff s.cfg .cr) [code] (setCmd code (goto .exec 1 s))).andThen fun _ t =>
    punctual_pollLoop (punctual_execPoll n) cmdPolls (setPoll 1 (goto .exec 2 t))

end punctual

@[simp] theorem slept_pendingPolls (c : Cfg) (n : SockIdx) (code : Byte) (k : Nat) :
    slept (pendingPolls c n code k) = k := by
  induction k with
  | zero => rfl
  | succ k ih =>
    rw [pendingPolls_succ, slept_append, ih]
    rfl

/-- A command taken before poll `m` sleeps `m - 1` milliseconds. -/
@[simp] theorem slept_commandTrace (c : Cfg) (n : SockIdx) (code : Byte) (m : Nat) :
    slept (commandTrace c n code m) = m - 1 := by
  have hwrite : sleptIn (commandWrite c n code) = 0 := rfl
  have hread : sleptIn (commandRead c n 0x00#8) = 0 := rfl
  simp [commandTrace, commandPolls, hwrite, hread]

/-! Operations on one socket, frame after frame -/

/-- From `s` to `t` an operation has used up `g` gaps, done `acts` at the boundary, in order, and left `q` as bank `n`,
nothing else of the chip changed. -/
structure Reached (n : SockIdx) (s : State) (g : Nat) (acts : List BusAct) (q : Socket) (t : State) : Prop
    extends Ran g s t where
  out : t.out = acts.reverse ++ s.out
  chip : t.chip = withBank s.chip n q
  cs : t.cs = .high ∨ g = 0 ∧ t.cs = s.cs
  rand : (∀ v, .rand v ∉ acts) → t.env.rand = s.env.rand
  punctual : Punctual s t

section reached

variable {n : SockIdx} {s t u : State} {g k : Nat} {acts more : List BusAct} {q p : Socket}

theorem Reached.start (n : SockIdx) (s : State) : Reached n s 0 [] (bank s n) s :=
  ⟨Ran.refl s, rfl, (withBank_self s.chip n).symm, .inr ⟨rfl, rfl⟩, fun _ => rfl, .refl s⟩

theorem Reached.trans (h : Reached n s g acts q t) (i : Reached n t k more p u) :
    Reached n s (g + k) (acts ++ more) p u where
  toRan := h.toRan.trans i.toRan
  out := by rw [i.out, h.out, List.reverse_append, List.append_assoc]
  chip := withBank_after h.chip i.chip
  cs := by
    rcases i.cs with hcs | ⟨rfl, hcs⟩
    · exact .inl hcs
    · rw [hcs]
      exact h.cs
  rand hno := by
    simp only [List.mem_append, not_or] at hno
    rw [i.rand fun v => (hno v).2, h.rand fun v => (hno v).1]
  punctual := h.punctual.trans i.punctual

/-- Steps on sequencer and latches only. -/
theorem Reached.inside (h : Reached n s g acts q t) (v : Sequencer) (l : Latches) :
    Reached n s g acts q ((t.setSeq v).setLat l) :=
  { h with toRan := (h.toRan.setSeq v).setLat l, punctual := h.punctual }

theorem Reached.goto (h : Reached n s g acts q t) (op : SeqOp) (j : Nat) : Reached n s g acts q (goto op j t) :=
  h.inside (.running op j 0) t.lat

theorem Reached.setLat (h : Reached n s g acts q t) (l : Latches) : Reached n s g acts q (t.setLat l) :=
  h.inside t.seq l

theorem Reached.bank (h : Reached n s g acts q t) : bank t n = q := bank_of_chip h.chip

/-- From a state with no delay left to choose, the clock has moved by the sleeps. -/
theorem Reached.clock_eq (h : Reached n s g acts q t) (hd : s.env.delays = []) : t.clock = s.clock + slept acts := by
  obtain ⟨-, hclock⟩ := h.punctual hd
  rw [h.out, slept_append, slept_reverse] at hclock
  omega

/-- R310: the end of an operation that has made a frame. -/
theorem Reached.ended (h : Reached n s g acts q t) (hg : 0 < g) (r : OpResult) : Ended s (complete r t) r :=
  ended_of h.toRan (h.cs.resolve_right fun hzero => by omega) r

/-- R138: an action at the boundary that is no frame, no sleep and takes no draw. -/
theorem reached_emit {a : BusAct} (ha : sleptIn a = 0) (n : SockIdx) (s : State) :
    Reached n s 0 [a] (Safety.bank s n) (emit a s) :=
  ⟨⟨rfl, rfl, rfl, rfl, rfl, rfl, rfl, rfl, rfl, Nat.le_refl _⟩, rfl, (withBank_self s.chip n).symm, .inr ⟨rfl, rfl⟩,
    fun _ => rfl, punctual_emit ha s⟩

theorem reached_of_framed {hdr : Header} {data : List Byte} (h : Framed hdr data s t)
    (hc : t.chip = withBank s.chip n q) (ht : Punctual s t) : Reached n s 1 [.frame hdr data] q t :=
  ⟨h.toRan, h.out, hc, .inl h.cs, fun _ => h.draws, ht⟩

/-- A write of a socket register in a quiet gap: `f` is what its bytes make of the bank. -/
theorem Reached.write (h : Reached n s g acts q t) (hs : SockAnswers s) (hq : gapAt s g = []) {r : SockReg}
    {d : List Byte} {f : Socket → Socket} (hf : ∀ u, storeSockFrom n r 0 d u = modSock n f u)
    (hw : d.length ≤ r.width) :
    ∃ u, writeSock n r d t = .ok () u ∧ Reached n s (g + 1) (acts ++ [regWrite s.cfg n r d]) (f q) u := by
  have ht := hs.after h.toRan
  obtain ⟨u, hrun, hframe, hchip⟩ := writeSock_run ht.toClean ht.disjoint n hw
  have hturn : (chipTurn t).chip = t.chip := chipTurn_quiet (by rw [h.toRan.gapAt]; exact hq)
  have htime : Punctual t u := by
    have := punctual_memWrite (regBlk n) (sockOff t.cfg r) d t
    rwa [show memWrite (regBlk n) (sockOff t.cfg r) d t = .ok () u from hrun] at this
  rw [hf, modSock_chip, Safety.bank, hturn, ← Safety.bank, h.bank] at hchip
  rw [h.cfg] at hframe
  exact ⟨u, hrun, h.trans (reached_of_framed hframe hchip htime)⟩

/-- R211: a status read latches the status after the gap. -/
theorem Reached.status (h : Reached n s g acts q t) (hs : SockAnswers s)
    (hc : (chipTurn t).chip = withBank s.chip n p) :
    ∃ u, readStatus n t = .ok () u ∧ Reached n s (g + 1) (acts ++ [regRead s.cfg n .sr [p.sr]]) p u ∧
      u.lat.st = p.sr ∧ u.lat.t0 = t.lat.t0 := by
  obtain ⟨u, hrun, htr, hchip, hst, ht0, hrand⟩ := status_run (hs.after h.toRan) n hc
  rw [bank_withBank] at htr hst
  have htime : Punctual t u := by
    have := punctual_readStatus n t
    rwa [hrun] at this
  have hchip : u.chip = withBank t.chip n p := by rw [hchip, h.chip, withBank_withBank]
  rw [h.cfg] at htr
  exact ⟨u, hrun, h.trans ⟨htr.toRan, htr.out, hchip, .inl htr.cs, fun _ => hrand, htime⟩, hst, ht0⟩

/-- A status read in a quiet gap. -/
theorem Reached.statusQuiet (h : Reached n s g acts q t) (hs : SockAnswers s) (hq : gapAt s g = []) :
    ∃ u, readStatus n t = .ok () u ∧ Reached n s (g + 1) (acts ++ [regRead s.cfg n .sr [q.sr]]) q u ∧
      u.lat.st = q.sr := by
  obtain ⟨u, hrun, hu, hst, -⟩ := h.status hs ((chipTurn_quiet (by rw [h.toRan.gapAt]; exact hq)).trans h.chip)
  exact ⟨u, hrun, hu, hst⟩

/-- R212: a command the chip takes before poll `m`. -/
theorem Reached.command (h : Reached n s g acts q t) (hs : SockAnswers s) {code : Byte} (hcode : code ≠ 0x00#8)
    {m : Nat} (h1 : 1 ≤ m) (h10 : m ≤ 10) (ha : Accepts s n g m) :
    ∃ u, execProtocol n code t = .ok () u ∧
      Reached n s (g + (m + 1)) (acts ++ commandTrace s.cfg n code m) (taken q code) u := by
  obtain ⟨u, hrun, htr, hchip, hrand⟩ :=
    command_run (hs.after h.toRan) n hcode h1 h10 (Accepts.after (k := 0) ha h.toRan)
  have htime : Punctual t u := by
    have := punctual_execProtocol n code t
    rwa [hrun] at this
  rw [h.bank] at hchip
  rw [h.cfg] at htr
  exact ⟨u, hrun, h.trans ⟨htr.toRan, htr.out, hchip, .inl htr.cs, fun _ => hrand, htime⟩⟩

end reached

/-! What the bytes of a register write make of the bank (R85, R86, R37) -/

theorem storeSockFrom_txbufSize (n : SockIdx) (v : Byte) (s : State) :
    storeSockFrom n .txbufSize 0 [v] s = modSock n (fun q => { q with txbufSize := v }) s := rfl

theorem storeSockFrom_rxbufSize (n : SockIdx) (v : Byte) (s : State) :
    storeSockFrom n .rxbufSize 0 [v] s = modSock n (fun q => { q with rxbufSize := v }) s := rfl

theorem storeSockFrom_mr (n : SockIdx) (v : Byte) (s : State) :
    storeSockFrom n .mr 0 [v] s = modSock n (fun q => { q with mr := v }) s := rfl

theorem clearOnOne_all (ir : Byte) : clearOnOne ir irClearAll = 0x00#8 := by
  have hmask : ~~~irClearAll = 0x00#8 := by decide
  rw [clearOnOne, hmask, BitVec.and_zero]

/-- R213 step 7: a byte of ones clears every flag. -/
theorem storeSockFrom_ir (n : SockIdx) (s : State) :
    storeSockFrom n .ir 0 [irClearAll] s = modSock n (fun q => { q with ir := 0x00#8 }) s := by
  simp only [storeSockFrom, storeSock, clearOnOne_all]

theorem setHalfByteAt_both (p v : Half) : setHalfByteAt (setHalfByteAt p (hi8 v) 0) (lo8 v) 1 = v := by
  simp only [setHalfByteAt, hi8_be16, be16_hi_lo]

theorem storeSockFrom_port (n : SockIdx) (v : Half) (s : State) :
    storeSockFrom n .port 0 (halfBytes v) s = modSock n (fun q => { q with port := v }) s := by
  simp only [halfBytes, storeSockFrom, storeSock, modSock_modSock, setSockByte, Nat.zero_add, setHalfByteAt_both]

theorem storeSockFrom_dport (n : SockIdx) (v : Half) (s : State) :
    storeSockFrom n .dport 0 (halfBytes v) s = modSock n (fun q => { q with dport := v }) s := by
  simp only [halfBytes, storeSockFrom, storeSock, modSock_modSock, setSockByte, Nat.zero_add, setHalfByteAt_both]

theorem storeSockFrom_dipr (n : SockIdx) (a : Quad) (s : State) :
    storeSockFrom n .dipr 0 a.toList s = modSock n (fun q => { q with dipr := a }) s := by
  simp only [Quad.toList, storeSockFrom, storeSock, modSock_modSock]
  rfl

/-! Open -/

/-- R213 steps 2 to 4: the sizes and the status. -/
def openLook (hd : Handle) (s : State) : Res Unit :=
  (writeSock hd.n .txbufSize [hd.sTx.code] (goto .openSocket 2 s)).andThen fun _ s =>
  (writeSock hd.n .rxbufSize [hd.sRx.code] (goto .openSocket 3 s)).andThen fun _ s =>
  readStatus hd.n (goto .openSocket 4 s)

/-- R213 steps 6 to 11: what Open does once the socket is closed. -/
def openClosed (n : SockIdx) (mode : Byte) (port : Half) (s : State) : Res Unit :=
  (writeSock n .mr [mode] (goto .openSocket 6 s)).andThen fun _ s =>
  (writeSock n .ir [irClearAll] (goto .openSocket 7 s)).andThen fun _ s =>
  (writeSock n .port (halfBytes (choosePort port (goto .openSocket 8 s)).lat.port)
    (goto .openSocket 9 (choosePort port (goto .openSocket 8 s)))).andThen fun _ s =>
  (execProtocol n cmdOpen (goto .openSocket 10 s)).andThen fun _ s => .ok () (goto .openSocket 11 s)

theorem openSocket_eq {protocol : List Byte} {mode : Byte} (h : protocolMode protocol = some mode) (hd : Handle)
    (port : Half) (s : State) :
    openSocket hd protocol port s =
      (openLook hd s).andThen fun _ s =>
        (forceClose hd.n (goto .openSocket 5 s)).andThen fun _ s => openClosed hd.n mode port s := by
  simp only [openSocket, h, openLook, andThen_andThen]
  rfl

/-- R132, D33: the two protocol strings and their mode codes. -/
theorem protocolMode_some {protocol : List Byte} {mode : Byte}
    (h : protocol = [0x74#8, 0x63#8, 0x70#8] ∧ mode = 0x21#8 ∨ protocol = [0x75#8, 0x64#8, 0x70#8] ∧ mode = 0x02#8) :
    protocolMode protocol = some mode := by
  rcases h with ⟨rfl, rfl⟩ | ⟨rfl, rfl⟩ <;> rfl

/-- R213 steps 2 and 3: the bank with the handle's size codes. -/
def sized (hd : Handle) (q : Socket) : Socket := { q with txbufSize := hd.sTx.code, rxbufSize := hd.sRx.code }

/-- R213 steps 6 to 9: the bank made ready for OPEN. -/
def prepared (mode : Byte) (port : Half) (q : Socket) : Socket := { q with mr := mode, ir := 0x00#8, port := port }

/-- R213 steps 2 to 4: what Open does at the boundary before it knows the status `v`, in order. -/
def lookTrace (c : Cfg) (hd : Handle) (v : Byte) : List BusAct :=
  [regWrite c hd.n .txbufSize [hd.sTx.code], regWrite c hd.n .rxbufSize [hd.sRx.code], regRead c hd.n .sr [v]]

/-- R213 steps 6 to 10: what Open does at the boundary once the socket is closed, in order; `draws` are its draws. -/
def openTrace (c : Cfg) (n : SockIdx) (mode : Byte) (port : Half) (draws : List BusAct) (m : Nat) : List BusAct :=
  [regWrite c n .mr [mode], regWrite c n .ir [irClearAll]] ++ draws ++
    regWrite c n .port (halfBytes port) :: commandTrace c n cmdOpen m

theorem openLook_run {s : State} (hs : SockAnswers s) (hd : Handle) (hq : QuietFor s 3) :
    ∃ t, openLook hd s = .ok () t ∧
      Reached hd.n s 3 (lookTrace s.cfg hd (bank s hd.n).sr) (sized hd (bank s hd.n)) t ∧
      t.lat.st = (bank s hd.n).sr := by
  obtain ⟨t, htx, h⟩ := ((Reached.start hd.n s).goto .openSocket 2).write hs (hq 0 (by omega))
    (storeSockFrom_txbufSize hd.n hd.sTx.code) (Nat.le_refl 1)
  obtain ⟨u, hrx, h⟩ := (h.goto .openSocket 3).write hs (hq 1 (by omega))
    (storeSockFrom_rxbufSize hd.n hd.sRx.code) (Nat.le_refl 1)
  obtain ⟨v, hst, h, hlat⟩ := (h.goto .openSocket 4).statusQuiet hs (hq 2 (by omega))
  exact ⟨v, by rw [openLook, htx, Res.andThen_ok, hrx, Res.andThen_ok, hst], h, hlat⟩

/-- R213 step 8, R214: `p` is the port chosen for `port` and `draws` the draws it took; `rand` are the supplied ones. -/
def PortChosen (rand : List Nat) (port p : Half) (draws : List BusAct) : Prop :=
  (port ≠ 0#16 → p = port ∧ draws = []) ∧
    (port = 0#16 → ∃ v, p = ephemeralPort v ∧ draws = [.rand v] ∧ ∀ w rest, rand = w :: rest → v = w)

theorem reached_useRand (n : SockIdx) (s : State) : Reached n s 0 [.rand (nextRand s)] (bank s n) (useRand s) := by
  have hrand : ¬ ∀ v, BusAct.rand v ∉ [BusAct.rand (nextRand s)] := fun h => h _ (List.mem_singleton.mpr rfl)
  have hchip : s.chip = withBank s.chip n (bank s n) := (withBank_self s.chip n).symm
  unfold useRand
  simp only
  split
  · exact ⟨⟨rfl, rfl, rfl, rfl, rfl, rfl, rfl, rfl, rfl, Nat.le_refl _⟩, rfl, hchip, .inr ⟨rfl, rfl⟩,
      fun h => absurd h hrand, punctual_emit rfl (tick s)⟩
  · exact ⟨⟨rfl, rfl, rfl, rfl, rfl, rfl, rfl, rfl, rfl, Nat.le_refl _⟩, rfl, hchip, .inr ⟨rfl, rfl⟩,
      fun h => absurd h hrand, punctual_emit rfl (s.setEnv _)⟩

theorem nextRand_of_cons {s : State} {w : Nat} {rest : List Nat} (h : s.env.rand = w :: rest) : nextRand s = w := by
  rw [nextRand, h]

theorem choosePort_run (n : SockIdx) (port : Half) (s : State) :
    ∃ draws, PortChosen s.env.rand port (choosePort port s).lat.port draws ∧
      Reached n s 0 draws (bank s n) (choosePort port s) := by
  by_cases hport : port = 0#16
  · refine ⟨[.rand (nextRand s)], ?_, ?_⟩
    · rw [choosePort, if_pos hport]
      exact ⟨fun h => absurd hport h, fun _ => ⟨nextRand s, rfl, rfl, fun w rest h => nextRand_of_cons h⟩⟩
    · rw [choosePort, if_pos hport]
      exact (reached_useRand n s).setLat _
  · refine ⟨[], ?_, ?_⟩
    · rw [choosePort, if_neg hport]
      exact ⟨fun _ => ⟨rfl, rfl⟩, fun h => absurd h hport⟩
    · rw [choosePort, if_neg hport]
      exact (Reached.start n s).setLat _

/-- R213 steps 6 to 11: Open on a socket that is closed. -/
theorem openClosed_run {s : State} (hs : SockAnswers s) (n : SockIdx) (mode : Byte) (port : Half) {m : Nat}
    (hq : QuietFor s 3) (h1 : 1 ≤ m) (h10 : m ≤ 10) (ha : Accepts s n 3 m) :
    ∃ t p draws, openClosed n mode port s = .ok () t ∧ PortChosen s.env.rand port p draws ∧
      Reached n s (3 + (m + 1)) (openTrace s.cfg n mode p draws m) (taken (prepared mode p (bank s n)) cmdOpen) t := by
  obtain ⟨t, hmr, h⟩ := ((Reached.start n s).goto .openSocket 6).write hs (hq 0 (by omega)) (storeSockFrom_mr n mode)
    (Nat.le_refl 1)
  obtain ⟨u, hir, h⟩ := (h.goto .openSocket 7).write hs (hq 1 (by omega)) (storeSockFrom_ir n) (Nat.le_refl 1)
  have h := h.goto .openSocket 8
  obtain ⟨draws, hchosen, hport⟩ := choosePort_run n port (goto .openSocket 8 u)
  rw [h.rand (by simp [regWrite, writeFrame])] at hchosen
  rw [h.bank] at hport
  obtain ⟨v, hwrite, h⟩ := ((h.trans hport).goto .openSocket 9).write hs (hq 2 (by omega))
    (storeSockFrom_port n (choosePort port (goto .openSocket 8 u)).lat.port) (Nat.le_refl 2)
  obtain ⟨w, hcmd, h⟩ := (h.goto .openSocket 10).command hs (code := cmdOpen) (by decide) h1 h10 ha
  have h := h.goto .openSocket 11
  refine ⟨goto .openSocket 11 w, _, draws, ?_, hchosen, ?_⟩
  · rw [openClosed, hmr, Res.andThen_ok, hir, Res.andThen_ok, hwrite, Res.andThen_ok, hcmd, Res.andThen_ok]
  · rw [List.append_assoc] at h
    exact h

theorem exec_sockOpen {s : State} {h : Half} {hd : Handle} (hh : handleOf s h = some hd) {protocol : List Byte}
    {port : Half} {t : State} (hrun : openSocket hd protocol port s = .ok () t) :
    exec (.sockOpen h protocol port) s = .next (complete (.done .unit) t) := by
  rw [exec, execSockOpen, onHandle_some hh, hrun]
  rfl

/-- R213 step 5: a closed socket passes the test. -/
theorem forceClose_closed {s : State} (n : SockIdx) (h : s.lat.st = s.cfg.status.closed) :
    forceClose n s = .ok () s :=
  if_neg (not_not_intro h)

/-- R213 step 5, R334: any other socket is logged, then closed. -/
theorem Reached.forceClose {n : SockIdx} {s t : State} {g m : Nat} {acts : List BusAct} {q : Socket}
    (h : Reached n s g acts q t) (hs : SockAnswers s) (hst : t.lat.st ≠ s.cfg.status.closed) (h1 : 1 ≤ m) (h10 : m ≤ 10)
    (ha : Accepts s n g m) :
    ∃ u, forceClose n t = .ok () u ∧
      Reached n s (g + (m + 1)) (acts ++ .log :: commandTrace s.cfg n cmdClose m) (taken q cmdClose) u := by
  have hlog : Reached n t 0 [.log] (Safety.bank t n) (logLine t) := reached_emit rfl n t
  rw [h.bank] at hlog
  obtain ⟨u, hrun, hu⟩ := (h.trans hlog).command hs (code := cmdClose) (by decide) h1 h10 ha
  refine ⟨u, ?_, ?_⟩
  · rw [Machine.forceClose, if_pos (by rwa [h.cfg]), hrun]
  · rw [List.append_assoc] at hu
    exact hu

/-- Settles O36: the steps before and after the test of step 5, which a closed socket passes. -/
theorem openCompletes : Obligations.OpenCompletes := by
  intro s h hd protocol mode port m hs hdis hh hprotocol hclosed hq h1 h10 ha
  have hs : SockAnswers s := ⟨hs, hdis⟩
  obtain ⟨t, hlook, hreached, hst⟩ := openLook_run hs hd fun j hj => hq j (by omega)
  have hreached := hreached.goto .openSocket 5
  have hclose := forceClose_closed (s := goto .openSocket 5 t) hd.n (by rw [hreached.cfg]; exact hst.trans hclosed)
  obtain ⟨u, p, draws, hrun, ⟨hgiven, hdrawn⟩, hopen⟩ := openClosed_run (hs.after hreached.toRan) hd.n mode port
    (QuietFor.after (fun j hj => hq j (by omega)) hreached.toRan) h1 h10 (Accepts.after ha hreached.toRan)
  rw [hreached.rand (by simp [lookTrace, regWrite, writeFrame, regRead, readFrame])] at hdrawn
  rw [hreached.bank, hreached.cfg] at hopen
  have hall := hreached.trans hopen
  rw [hclosed] at hall
  refine ⟨_, p, draws, exec_sockOpen hh ?_, hall.ended (by omega) _, hgiven, hdrawn, hall.chip, hall.out⟩
  rw [openSocket_eq (protocolMode_some hprotocol), hlook, Res.andThen_ok, hclose, Res.andThen_ok, hrun]

/-- Settles O37: the close of step 5 comes between the same steps. -/
theorem openForceCloses : Obligations.OpenForceCloses := by
  intro s h hd protocol mode port k m hs hdis hh hprotocol hopened hport hq hk1 hk10 hclose hq' h1 h10 ha
  have hs : SockAnswers s := ⟨hs, hdis⟩
  obtain ⟨t, hlook, hreached, hst⟩ := openLook_run hs hd hq
  obtain ⟨u, hforce, hreached⟩ := (hreached.goto .openSocket 5).forceClose hs (hst.trans_ne hopened) hk1 hk10 hclose
  obtain ⟨v, p, draws, hrun, ⟨hgiven, -⟩, hopen⟩ := openClosed_run (hs.after hreached.toRan) hd.n mode port
    (fun j hj => by rw [hreached.toRan.gapAt, show 3 + (k + 1) + j = k + 4 + j by omega]; exact hq' j hj)
    h1 h10 (Accepts.after (by rwa [show 3 + (k + 1) + 3 = k + 7 by omega]) hreached.toRan)
  obtain ⟨rfl, rfl⟩ := hgiven hport
  rw [hreached.bank, hreached.cfg] at hopen
  have hall := hreached.trans hopen
  refine ⟨_, exec_sockOpen hh ?_, hall.ended (by omega) _, hall.chip, hall.out.trans ?_⟩
  · rw [openSocket_eq (protocolMode_some hprotocol), hlook, Res.andThen_ok, hforce, Res.andThen_ok, hrun]
  · rw [List.append_assoc _ _ (commandTrace s.cfg hd.n 0x01#8 m), List.append_assoc]
    rfl

/-! Listen -/

/-- R215: Listen on a socket whose status is INIT. -/
theorem listen_run {s : State} (hs : SockAnswers s) (n : SockIdx) {m : Nat} (hq : gapAt s 0 = [])
    (hinit : (bank s n).sr = s.cfg.status.init) (h1 : 1 ≤ m) (h10 : m ≤ 10) (ha : Accepts s n 1 m) :
    ∃ t, listen n s = .ok () t ∧
      Reached n s (1 + (m + 1)) (regRead s.cfg n .sr [s.cfg.status.init] :: commandTrace s.cfg n cmdListen m)
        (taken (bank s n) cmdListen) t := by
  obtain ⟨t, hst, h, hlat⟩ := ((Reached.start n s).goto .listen 1).statusQuiet hs hq
  rw [hinit] at h hlat
  obtain ⟨u, hcmd, hu⟩ := ((h.goto .listen 2).goto .listen 3).command hs (code := cmdListen) (by decide) h1 h10 ha
  have htest : ¬ (goto .listen 2 t).lat.st ≠ (goto .listen 2 t).cfg.status.init :=
    not_not_intro (by rw [(h.goto .listen 2).cfg]; exact hlat)
  refine ⟨goto .listen 4 u, ?_, hu.goto .listen 4⟩
  rw [Machine.listen, hst, Res.andThen_ok, if_neg htest, hcmd, Res.andThen_ok]

/-- Settles O39: the status passes the test of step 2, and LISTEN follows. -/
theorem listenCompletes : Obligations.ListenCompletes := by
  intro s h hd m hs hdis hh hq hinit h1 h10 ha
  obtain ⟨t, hrun, hreached⟩ := listen_run ⟨hs, hdis⟩ hd.n hq hinit h1 h10 ha
  refine ⟨_, ?_, hreached.ended (by omega) _, hreached.chip, hreached.out⟩
  rw [exec, execSockListen, onHandle_some hh, hrun]
  rfl

/-! Connect -/

/-- R331: with no delay left to choose, a reading of the clock is the clock as it stands. -/
theorem readClock_eq {s : State} (h : s.env.delays = []) : readClock s = emit (.now s.clock) s := by
  unfold readClock advance
  rw [h]
  rfl

section clock

variable {n : SockIdx} {s t : State} {g : Nat} {acts : List BusAct} {q : Socket}

theorem Reached.delays (h : Reached n s g acts q t) (hd : s.env.delays = []) : t.env.delays = [] := (h.punctual hd).1

theorem Reached.readClock (h : Reached n s g acts q t) (hd : s.env.delays = []) :
    Reached n s g (acts ++ [.now t.clock]) q (readClock t) := by
  rw [readClock_eq (h.delays hd)]
  have hnow := reached_emit (a := .now t.clock) rfl n t
  rw [h.bank] at hnow
  exact h.trans hnow

theorem Reached.sleep (h : Reached n s g acts q t) (ms : Nat) : Reached n s g (acts ++ [.sleep ms]) q (sleep ms t) := by
  obtain ⟨hran, hchip, -, hout, hcs, -, hrand⟩ := ran_sleep ms t
  have hsleep : Reached n t 0 [.sleep ms] (Safety.bank t n) (Machine.sleep ms t) :=
    ⟨hran, hout, hchip.trans (withBank_self t.chip n).symm, .inr ⟨rfl, hcs⟩, fun _ => hrand, punctual_sleep ms t⟩
  rw [h.bank] at hsleep
  exact h.trans hsleep

end clock

/-- R286: a bank whose status is `v`. -/
def withStatus (v : Byte) (q : Socket) : Socket := { q with sr := v }

/-- R286: a gap in which the chip shows the status `v`, by a change or as it was. -/
theorem chipTurn_status {s : State} {n : SockIdx} {v : Byte}
    (hg : gapAt s 0 = [.status n v] ∨ gapAt s 0 = [] ∧ v = (bank s n).sr) :
    (chipTurn s).chip = withBank s.chip n (withStatus v (bank s n)) := by
  rcases hg with hg | ⟨hg, rfl⟩
  · rw [chipTurn_eq, hg]
    rfl
  · rw [chipTurn_quiet hg]
    exact (withBank_self s.chip n).symm

/-- R216 steps 8 to 10: what a round of the connect wait makes of the status it has latched. -/
theorem connectPoll_eq {n : SockIdx} {s u : State} (h : readStatus n (goto .connect 7 s) = .ok () u) :
    connectPoll n s =
      if u.lat.st = u.cfg.status.established then .ok true (goto .connect 8 u)
      else if u.lat.st = u.cfg.status.closed then .err .connectionRefused (goto .connect 9 u)
      else if connectTimeoutMs ≤ (readClock (goto .connect 10 u)).clock - (readClock (goto .connect 10 u)).lat.t0 then
        .err (.connectTimeout (readClock (goto .connect 10 u)).lat.st) (readClock (goto .connect 10 u))
      else .ok false (readClock (goto .connect 10 u)) := by
  rw [connectPoll, h]
  rfl

section wait

variable {n : SockIdx} {s t : State} {g : Nat} {acts : List BusAct} {q : Socket} {v : Byte}

/-- R216 steps 7 to 10: one round of the connect wait ends by the status it shows, else by the clock. -/
theorem connectPoll_run (h : Reached n s g acts q t) (hs : SockAnswers s) (hd : s.env.delays = [])
    (hg : gapAt s g = [.status n v] ∨ gapAt s g = [] ∧ v = q.sr) :
    ∃ u w, Reached n s (g + 1) (acts ++ [regRead s.cfg n .sr [v]]) (withStatus v q) u ∧
      Reached n s (g + 1) (acts ++ [regRead s.cfg n .sr [v], .now t.clock]) (withStatus v q) w ∧
      u.clock = t.clock ∧ w.clock = t.clock ∧ w.lat.t0 = t.lat.t0 ∧
      connectPoll n t =
        if v = s.cfg.status.established then .ok true (goto .connect 8 u)
        else if v = s.cfg.status.closed then .err .connectionRefused (goto .connect 9 u)
        else if connectTimeoutMs ≤ t.clock - t.lat.t0 then .err (.connectTimeout v) w else .ok false w := by
  have hstart := h.goto .connect 7
  have hturn : (chipTurn (goto .connect 7 t)).chip = withBank s.chip n (withStatus v q) := by
    rw [chipTurn_status (s := goto .connect 7 t) (n := n) (v := v)
      (by rw [hstart.toRan.gapAt, hstart.bank]; exact hg), hstart.bank, hstart.chip, withBank_withBank]
  obtain ⟨u, hrun, hu, hst, ht0⟩ := hstart.status hs hturn
  have hst : u.lat.st = v := hst
  have ht0 : u.lat.t0 = t.lat.t0 := ht0
  have hclock : u.clock = t.clock := by
    rw [hu.clock_eq hd, h.clock_eq hd, slept_append]
    rfl
  have hread := (hu.goto .connect 10).readClock hd
  have hsame := readClock_eq ((hu.goto .connect 10).delays hd)
  have hpoll := connectPoll_eq hrun
  generalize readClock (goto .connect 10 u) = w at hread hsame hpoll
  have hwclock : w.clock = t.clock := by rw [hsame]; exact hclock
  have hwlat : w.lat = u.lat := by rw [hsame]; rfl
  rw [hwclock, hwlat, hst, ht0, hu.cfg] at hpoll
  rw [List.append_assoc, show (goto .connect 10 u).clock = t.clock from hclock] at hread
  exact ⟨u, w, hu, hread, hclock, hwclock, by rw [hwlat, ht0], hpoll⟩

theorem connectLoop_done {fuel : Nat} (h : connectPoll n s = .ok true t) : connectLoop n (fuel + 1) s = .ok () t := by
  rw [connectLoop, h]
  rfl

theorem connectLoop_err {fuel : Nat} {e : Err} (h : connectPoll n s = .err e t) :
    connectLoop n (fuel + 1) s = .err e t := by
  rw [connectLoop, h]
  rfl

theorem connectLoop_next {fuel : Nat} (h : connectPoll n s = .ok false t) :
    connectLoop n (fuel + 1) s = connectLoop n fuel (sleep connectIntervalMs (goto .connect 11 t)) := by
  rw [connectLoop, h]
  rfl

/-- R216: a round of the connect wait that does not end it, `v` being the status it shows. -/
def roundTrace (c : Cfg) (n : SockIdx) (clock : Nat) (v : Byte) : List BusAct :=
  [regRead c n .sr [v], .now clock, .sleep connectIntervalMs]

/-- R216: a status that is neither ESTABLISHED nor CLOSED, shown before the deadline, does not end the wait. -/
theorem connectLoop_again (h : Reached n s g acts q t) (hs : SockAnswers s) (hd : s.env.delays = [])
    (hg : gapAt s g = [.status n v] ∨ gapAt s g = [] ∧ v = q.sr)
    (hv : v ≠ s.cfg.status.established ∧ v ≠ s.cfg.status.closed) (ht : t.clock - t.lat.t0 < connectTimeoutMs)
    (fuel : Nat) :
    ∃ u, connectLoop n (fuel + 1) t = connectLoop n fuel u ∧
      Reached n s (g + 1) (acts ++ roundTrace s.cfg n t.clock v) (withStatus v q) u ∧ u.lat.t0 = t.lat.t0 := by
  obtain ⟨_, w, -, hw, -, -, ht0, hpoll⟩ := connectPoll_run h hs hd hg
  rw [if_neg hv.1, if_neg hv.2, if_neg (by omega)] at hpoll
  obtain ⟨-, -, hlat, -⟩ := ran_sleep connectIntervalMs (goto .connect 11 w)
  have hsleep := (hw.goto .connect 11).sleep connectIntervalMs
  rw [List.append_assoc] at hsleep
  exact ⟨_, connectLoop_next hpoll, hsleep, by rw [hlat]; exact ht0⟩

/-- R216: the rounds that show the statuses `f 1` to `f k` and do not end the wait, from the clock `clock`, in order. -/
def roundsTrace (c : Cfg) (n : SockIdx) (clock : Nat) (f : Nat → Byte) (k : Nat) : List BusAct :=
  (List.range k).flatMap fun i => roundTrace c n (clock + i) (f (i + 1))

theorem roundsTrace_succ (c : Cfg) (n : SockIdx) (clock : Nat) (f : Nat → Byte) (k : Nat) :
    roundsTrace c n clock f (k + 1) = roundsTrace c n clock f k ++ roundTrace c n (clock + k) (f (k + 1)) := by
  simp [roundsTrace, List.range_succ]

/-- R331: a round takes one millisecond. -/
@[simp] theorem slept_roundsTrace (c : Cfg) (n : SockIdx) (clock : Nat) (f : Nat → Byte) (k : Nat) :
    slept (roundsTrace c n clock f k) = k := by
  induction k with
  | zero => rfl
  | succ k ih =>
    rw [roundsTrace_succ, slept_append, ih]
    rfl

/-- R216: `k` rounds that do not end the connect wait, `f i` being the status after round `i`. -/
theorem connectLoop_rounds (hs : SockAnswers s) (hd : s.env.delays = []) (ht0 : s.lat.t0 = s.clock) {f : Nat → Byte}
    (hf : f 0 = (bank s n).sr) {k : Nat} (hk : k ≤ connectTimeoutMs)
    (hround : ∀ i, i < k → (f (i + 1) ≠ s.cfg.status.established ∧ f (i + 1) ≠ s.cfg.status.closed) ∧
      (gapAt s i = [.status n (f (i + 1))] ∨ gapAt s i = [] ∧ f (i + 1) = f i)) (fuel : Nat) :
    ∃ t, connectLoop n (k + fuel) s = connectLoop n fuel t ∧
      Reached n s k (roundsTrace s.cfg n s.clock f k) (withStatus (f k) (bank s n)) t ∧ t.lat.t0 = s.clock := by
  induction k generalizing fuel with
  | zero =>
    refine ⟨s, by rw [Nat.zero_add], ?_, ht0⟩
    rw [hf]
    exact Reached.start n s
  | succ k ih =>
    obtain ⟨t, hloop, h, ht⟩ := ih (by omega) (fun i hi => hround i (by omega)) (fuel + 1)
    have hclock := h.clock_eq hd
    rw [slept_roundsTrace] at hclock
    obtain ⟨hv, hg⟩ := hround k (by omega)
    obtain ⟨u, hagain, hu, htu⟩ := connectLoop_again h hs hd hg hv (by omega) fuel
    refine ⟨u, ?_, ?_, htu.trans ht⟩
    · rw [Nat.add_right_comm, Nat.add_assoc, hloop, hagain]
    · rw [roundsTrace_succ, ← hclock]
      exact hu

end wait

/-- R216 steps 1 to 6: what Connect does at the boundary before its wait, in order. -/
def connectTrace (c : Cfg) (n : SockIdx) (ip : Quad) (port : Half) (m : Nat) : List BusAct :=
  [regRead c n .sr [c.status.init], regWrite c n .dipr ip.toList, regWrite c n .dport (halfBytes port)] ++
    commandTrace c n cmdConnect m

theorem slept_connectTrace (c : Cfg) (n : SockIdx) (ip : Quad) (port : Half) (m : Nat) :
    slept (connectTrace c n ip port m) = m - 1 := by
  rw [connectTrace, slept_append, slept_commandTrace]
  exact Nat.zero_add _

/-- R216 steps 1 to 6: the bank when the wait begins. -/
def connecting (ip : Quad) (port : Half) (q : Socket) : Socket := taken { q with dipr := ip, dport := port } cmdConnect

/-- R216 steps 1 to 6: Connect on a socket in INIT, up to its wait. -/
theorem connect_waits {s : State} (hs : SockAnswers s) (n : SockIdx) (ip : Quad) (port : Half) {m : Nat}
    (hd : s.env.delays = []) (hq : QuietFor s 3) (hinit : (bank s n).sr = s.cfg.status.init) (h1 : 1 ≤ m) (h10 : m ≤ 10)
    (ha : Accepts s n 3 m) :
    ∃ t, connect n ip port s = connectLoop n connectRounds t ∧
      Reached n s (3 + (m + 1)) (connectTrace s.cfg n ip port m ++ [.now (s.clock + (m - 1))])
        (connecting ip port (bank s n)) t ∧
      t.clock = s.clock + (m - 1) ∧ t.lat.t0 = t.clock := by
  obtain ⟨t, hst, h, hlat⟩ := ((Reached.start n s).goto .connect 1).statusQuiet hs (hq 0 (by omega))
  rw [hinit] at h hlat
  have h := h.goto .connect 2
  have htest : ¬ (goto .connect 2 t).lat.st ≠ (goto .connect 2 t).cfg.status.init :=
    not_not_intro (by rw [h.cfg]; exact hlat)
  obtain ⟨u, hip, h⟩ := (h.goto .connect 3).write hs (hq 1 (by omega)) (storeSockFrom_dipr n ip) (Nat.le_refl 4)
  obtain ⟨v, hport, h⟩ := (h.goto .connect 4).write hs (hq 2 (by omega)) (storeSockFrom_dport n port) (Nat.le_refl 2)
  obtain ⟨w, hcmd, h⟩ := (h.goto .connect 5).command hs (code := cmdConnect) (by decide) h1 h10 ha
  have h : Reached n s (3 + (m + 1)) (connectTrace s.cfg n ip port m) (connecting ip port (bank s n))
      (goto .connect 6 w) := h.goto .connect 6
  have hnow := h.readClock hd
  have hclock := hnow.clock_eq hd
  rw [h.clock_eq hd, slept_connectTrace] at hnow
  rw [slept_append, slept_connectTrace] at hclock
  refine ⟨setT0 (readClock (goto .connect 6 w)).clock (readClock (goto .connect 6 w)), ?_, hnow.setLat _, hclock, rfl⟩
  rw [Machine.connect, hst, Res.andThen_ok, if_neg htest, hip, Res.andThen_ok, hport, Res.andThen_ok, hcmd,
    Res.andThen_ok]

/-- R216: Connect after `k` rounds of its wait, `f i` being the status after round `i`. -/
theorem connect_rounds {s : State} (hs : SockAnswers s) (n : SockIdx) (ip : Quad) (port : Half) {m : Nat}
    (hd : s.env.delays = []) (hq : QuietFor s 3) (hinit : (bank s n).sr = s.cfg.status.init) (h1 : 1 ≤ m) (h10 : m ≤ 10)
    (ha : Accepts s n 3 m) {f : Nat → Byte} (hf : f 0 = s.cfg.status.init) {k fuel : Nat} (hk : k ≤ connectTimeoutMs)
    (hfuel : k + fuel = connectRounds)
    (hround : ∀ i, i < k → (f (i + 1) ≠ s.cfg.status.established ∧ f (i + 1) ≠ s.cfg.status.closed) ∧
      (gapAt s (4 + m + i) = [.status n (f (i + 1))] ∨ gapAt s (4 + m + i) = [] ∧ f (i + 1) = f i)) :
    ∃ t, connect n ip port s = connectLoop n fuel t ∧
      Reached n s (3 + (m + 1) + k)
        (connectTrace s.cfg n ip port m ++ [.now (s.clock + (m - 1))] ++
          roundsTrace s.cfg n (s.clock + (m - 1)) f k)
        (withStatus (f k) (connecting ip port (bank s n))) t ∧
      t.clock = s.clock + (m - 1) + k ∧ t.lat.t0 = s.clock + (m - 1) := by
  obtain ⟨t, hrun, h, hclock, ht0⟩ := connect_waits hs n ip port hd hq hinit h1 h10 ha
  obtain ⟨u, hloop, hu, hu0⟩ := connectLoop_rounds (n := n) (hs.after h.toRan) (h.delays hd) ht0 (f := f) (k := k)
    (by rw [h.bank, hf]; exact hinit.symm) hk
    (fun i hi => by rw [h.cfg, h.toRan.gapAt, show 3 + (m + 1) + i = 4 + m + i by omega]; exact hround i hi) fuel
  have hclockU := hu.clock_eq (h.delays hd)
  rw [slept_roundsTrace, hclock] at hclockU
  rw [h.cfg, h.bank, hclock] at hu
  exact ⟨u, by rw [hrun, ← hfuel, hloop], h.trans hu, hclockU, hu0.trans hclock⟩

theorem exec_sockConnect {s : State} {h : Half} {hd : Handle} (hh : handleOf s h = some hd) (ip : Quad) (port : Half) :
    exec (.sockConnect h ip port) s =
      .next (finish ((connect hd.n ip port s).andThen fun _ s => .ok .unit s)) := by
  rw [exec, execSockConnect, onHandle_some hh]

/-- R216 steps 8 and 9: a round that shows ESTABLISHED or CLOSED ends Connect. -/
theorem sockConnect_ends {s t u : State} {h : Half} {hd : Handle} (hh : handleOf s h = some hd) {ip : Quad}
    {port : Half} {fuel : Nat} (hrun : connect hd.n ip port s = connectLoop hd.n (fuel + 1) t)
    (hec : s.cfg.status.established ≠ s.cfg.status.closed) {v : Byte}
    (hv : v = s.cfg.status.established ∨ v = s.cfg.status.closed) {r : Res Bool}
    (hpoll : connectPoll hd.n t =
      if v = s.cfg.status.established then .ok true (goto .connect 8 u)
      else if v = s.cfg.status.closed then .err .connectionRefused (goto .connect 9 u) else r) :
    ∃ l, exec (.sockConnect h ip port) s = .next (complete
      (if v = s.cfg.status.established then .done .unit else .failed .connectionRefused) (goto .connect l u)) := by
  rw [exec_sockConnect hh, hrun]
  rcases hv with hest | hclosed
  · rw [if_pos hest] at hpoll ⊢
    exact ⟨8, by rw [connectLoop_done hpoll]; rfl⟩
  · have hest : v ≠ s.cfg.status.established := hclosed ▸ hec.symm
    rw [if_neg hest, if_pos hclosed] at hpoll
    rw [if_neg hest]
    exact ⟨9, by rw [connectLoop_err hpoll]; rfl⟩

/-- R8: ESTABLISHED, CLOSED and INIT are three codes. -/
theorem statusCodes_ne {c : Cfg} (h : CfgOk c) :
    c.status.init ≠ c.status.established ∧ c.status.init ≠ c.status.closed ∧
      c.status.established ≠ c.status.closed := by
  have hnodup := h.status
  simp only [statusList, List.nodup_cons, List.mem_cons, not_or] at hnodup
  obtain ⟨⟨hci, -, -, -, hce, -⟩, ⟨-, -, -, hie, -⟩, -⟩ := hnodup
  exact ⟨hie, Ne.symm hci, Ne.symm hce⟩

/-- A round shows its status in one read. -/
theorem filter_roundTrace (c : Cfg) (n : SockIdx) (clock : Nat) (v : Byte) :
    (roundTrace c n clock v).filter (fun a => a == regRead c n .sr [v]) = [regRead c n .sr [v]] := by
  simp [roundTrace, regRead, readFrame]

theorem length_filter_roundsTrace (c : Cfg) (n : SockIdx) (clock : Nat) (v : Byte) (k : Nat) :
    ((roundsTrace c n clock (fun _ => v) k).filter (fun a => a == regRead c n .sr [v])).length = k := by
  induction k with
  | zero => rfl
  | succ k ih => rw [roundsTrace_succ, List.filter_append, filter_roundTrace, List.length_append, ih]; rfl

/-- R216 steps 6 to 9: what Connect does at the boundary from its clock reading on, when round `k + 1` shows the
terminal status `v` after `k` rounds that show INIT, in order. -/
def waitTrace (c : Cfg) (n : SockIdx) (clock k : Nat) (v : Byte) : List BusAct :=
  [.now clock] ++ roundsTrace c n clock (fun _ => c.status.init) k ++ [regRead c n .sr [v]]

/-- The reads of a wait that show INIT are those of its first rounds. -/
theorem length_filter_waitTrace {c : Cfg} (n : SockIdx) (clock k : Nat) {v : Byte} (hv : v ≠ c.status.init) :
    ((waitTrace c n clock k v).filter (fun a => a == regRead c n .sr [c.status.init])).length = k := by
  have hnow : [BusAct.now clock].filter (fun a => a == regRead c n .sr [c.status.init]) = [] := rfl
  have hlast : [regRead c n .sr [v]].filter (fun a => a == regRead c n .sr [c.status.init]) = [] := by
    simp [regRead, readFrame, hv]
  rw [waitTrace, List.filter_append, List.filter_append, hnow, hlast, List.append_nil, List.nil_append,
    length_filter_roundsTrace]

/-- Settles O41: `j - 1` rounds that show INIT go on, and the status test of the next one ends the wait. -/
theorem connectCompletes : Obligations.ConnectCompletes := by
  intro s h hd ip port m j v hs hcfg hh hdelays hq hinit h1 h10 ha hj1 hj hquiet hg hv
  have hs : SockAnswers s := ⟨hs, hcfg.sock⟩
  obtain ⟨hie, hic, hec⟩ := statusCodes_ne hcfg
  obtain ⟨k, rfl⟩ : ∃ k, j = k + 1 := ⟨j - 1, by omega⟩
  obtain ⟨t, hrun, ht, hclock, -⟩ := connect_rounds hs hd.n ip port hdelays hq hinit h1 h10 ha
    (f := fun _ => s.cfg.status.init) rfl (k := k) (fuel := 5000 - k + 1) (show k ≤ 5000 by omega)
    (show _ = 5001 by omega) fun i hi => ⟨⟨hie, hic⟩, .inr ⟨by
      rw [show 4 + m + i = 3 + m + (i + 1) by omega]
      exact hquiet _ (by omega) (by omega), rfl⟩⟩
  obtain ⟨u, _, hu, -, huclock, -, -, hpoll⟩ := connectPoll_run ht hs hdelays
    (.inl (by rw [show 3 + (m + 1) + k = 3 + m + (k + 1) by omega]; exact hg))
  have hvi : v ≠ s.cfg.status.init := by
    rcases hv with rfl | rfl
    exacts [hie.symm, hic.symm]
  obtain ⟨l, hexec⟩ := sockConnect_ends hh hrun hec hv hpoll
  have hacts : connectTrace s.cfg hd.n ip port m ++ [.now (s.clock + (m - 1))] ++
      roundsTrace s.cfg hd.n (s.clock + (m - 1)) (fun _ => s.cfg.status.init) k ++ [regRead s.cfg hd.n .sr [v]] =
        connectTrace s.cfg hd.n ip port m ++ waitTrace s.cfg hd.n (s.clock + (m - 1)) k v := by
    simp [waitTrace]
  refine ⟨_, (waitTrace s.cfg hd.n (s.clock + (m - 1)) k v).reverse, hexec, (hu.goto .connect l).ended (by omega) _,
    hu.chip, huclock.trans hclock, hu.out.trans ?_, ?_⟩
  · rw [hacts, List.reverse_append]
    rfl
  · rw [List.filter_reverse, List.length_reverse, length_filter_waitTrace _ _ _ hvi]
    rfl

/-- Settles O42: 5000 rounds go on, and the deadline test of the next one ends the wait. -/
theorem connectTimesOut : Obligations.ConnectTimesOut := by
  intro s h hd ip port m f hs hcfg hh hdelays hq hinit h1 h10 ha hf hround
  have hs : SockAnswers s := ⟨hs, hcfg.sock⟩
  obtain ⟨t, hrun, ht, hclock, ht0⟩ := connect_rounds hs hd.n ip port hdelays hq hinit h1 h10 ha hf (k := 5000)
    (fuel := 0 + 1) (Nat.le_refl _) rfl fun i hi => by
      obtain ⟨hest, hclosed, hg⟩ := hround i (by omega)
      exact ⟨⟨hest, hclosed⟩, hg⟩
  obtain ⟨hest, hclosed, hg⟩ := hround 5000 (by omega)
  obtain ⟨_, w, -, hw, -, hwclock, -, hpoll⟩ := connectPoll_run ht hs hdelays
    (by rw [show 3 + (m + 1) + 5000 = 4 + m + 5000 by omega]; exact hg)
  rw [if_neg hest, if_neg hclosed, if_pos (by rw [hclock, ht0]; show 5000 ≤ _; omega)] at hpoll
  refine ⟨_, (exec_sockConnect hh ip port).trans (by rw [hrun, connectLoop_err hpoll]; rfl), hw.ended (by omega) _,
    hw.chip, hwclock.trans hclock⟩

end Sys2Proof.Proofs
end

section
/-! PROOFS. The statements of 43_stream_read.md: a Read goes frame by frame as the operations on one socket do; its latches
are followed from the frame that fills them to the one that uses them. -/

namespace Sys2Proof.Proofs

open Sys2Proof.Machine Sys2Proof.Safety

/-! The latches a frame or a command leaves -/

theorem sameLat_of_eq {α : Type} {l : Latches} {r r' : Res α} (h : SameLat l r.state.lat) (hr : r = r') :
    SameLat l r'.state.lat := hr ▸ h

/-- R310: a step that succeeds hands its value and its state on. -/
theorem andThen_of_ok {α β : Type} {r : Res α} {f : α → State → Res β} {a : α} {t : State} (h : r = .ok a t) :
    r.andThen f = f a t := by
  rw [h, Res.andThen_ok]

theorem sameLat_readSock16 (n : SockIdx) (r : SockReg) (s : State) : SameLat s.lat (readSock16 n r s).state.lat :=
  sameLat_andThen (sameLat_memRead _ _ _ s) fun _ _ h => h

theorem sameLat_ptr {a b : Latches} (h : SameLat a b) : b.ptr = a.ptr := by
  rw [h]

/-! Frames in a quiet gap -/

/-- R81, R99: every address of a receive block has a byte, whatever the offset. -/
theorem peek_rx (s : State) (n : SockIdx) (off : Half) :
    peek s (rxBlk n) off =
      some (Memory.read s.chip.mem (memKey (rxBlk n) (bufCell s.cfg (s.cfg.chipRx.get n) off))) := by
  rw [peek_eq, target_rx]
  rfl

theorem storeSockFrom_rxRd (n : SockIdx) (v : Half) (s : State) :
    storeSockFrom n .rxRd 0 (halfBytes v) s = modSock n (fun q => { q with rxRd := v }) s := by
  simp only [halfBytes, storeSockFrom, storeSock, modSock_modSock, setSockByte, Nat.zero_add, setHalfByteAt_both]

theorem punctual_readSock16 (n : SockIdx) (r : SockReg) (s : State) : Punctual s (readSock16 n r s).state :=
  (punctual_memRead (regBlk n) (sockOff s.cfg r) 2 s).andThen fun _ t => Punctual.refl t

theorem SockAnswers.setDest {s : State} (hs : SockAnswers s) (d : List Byte) : SockAnswers (s.setDest d) :=
  ⟨⟨hs.configured, hs.noFault, hs.chipAnswers⟩, hs.disjoint⟩

section reached

variable {n : SockIdx} {s t : State} {g : Nat} {acts : List BusAct} {q : Socket}

/-- The destination is no part of what happens at the boundary or on the chip. -/
theorem Reached.setDest (h : Reached n s g acts q t) (d : List Byte) :
    Reached n (s.setDest d) g acts q (t.setDest d) :=
  { h with dest := rfl, punctual := h.punctual }

/-- R164: a read of a two-byte register of the socket gives the value the register holds. -/
theorem Reached.read16 (h : Reached n s g acts q t) (hs : SockAnswers s) (hq : gapAt s g = []) {r : SockReg} {v : Half}
    (hw : r.width = 2) (hv : ∀ i, sockByte q r i = halfByteAt v i) :
    ∃ u, readSock16 n r t = .ok v u ∧ Reached n s (g + 1) (acts ++ [regRead s.cfg n r (halfBytes v)]) q u := by
  have ht := hs.after h.toRan
  have hturn : (chipTurn t).chip = t.chip := chipTurn_quiet (by rw [h.toRan.gapAt]; exact hq)
  obtain ⟨u, hrun, hframe, hchip⟩ := readSock16_run ht.toClean ht.disjoint n hw
  have htime : Punctual t u := by
    have := punctual_readSock16 n r t
    rwa [hrun] at this
  rw [Safety.bank, hturn, ← Safety.bank, h.bank, hv, hv] at hrun hframe
  rw [h.cfg] at hframe
  refine ⟨u, hrun.trans (congrArg (Res.ok · u) (be16_hi_lo v)), h.trans (reached_of_framed hframe ?_ htime)⟩
  rw [hchip, hturn, h.chip, withBank_withBank]

/-- R160: a read frame from the receive block of the socket gives the bytes that stand at its addresses. -/
theorem Reached.readRx (h : Reached n s g acts q t) (hs : SockAnswers s) (hq : gapAt s g = []) (off : Half) (len : Nat) :
    ∃ d u, memRead (rxBlk n) off len t = .ok d u ∧ d.length = len ∧
      (∀ i (hi : i < d.length), peek s (rxBlk n) (off + BitVec.ofNat 16 i) = some d[i]) ∧
      Reached n s (g + 1) (acts ++ [readFrame (rxBlk n) off d]) q u := by
  have hturn : (chipTurn t).chip = t.chip := chipTurn_quiet (by rw [h.toRan.gapAt]; exact hq)
  obtain ⟨u, hrun, hframe, hchip⟩ := memRead_run (hs.after h.toRan).toClean (rxBlk n) off len
  have htime := punctual_memRead (rxBlk n) off len t
  rw [hrun] at htime
  have hmem : (chipTurn t).chip.mem = s.chip.mem := by rw [hturn, h.chip]; rfl
  have hcfg : (chipTurn t).cfg = s.cfg := (chipTurn_cfg t).trans h.cfg
  refine ⟨_, u, hrun, frameData_length .., fun i hi => ?_, h.trans (reached_of_framed hframe ?_ htime)⟩
  · have hbyte := peek_rx (chipTurn t) n (off + BitVec.ofNat 16 (0 + i))
    rw [frameData_get (i := 0) (by rwa [frameData_length] at hi) _ (by rw [off_zero]) hbyte, peek_rx, hmem, hcfg,
      Nat.zero_add]
  · rw [hchip, hturn, h.chip, withBank_withBank]

/-- R212, R322: a command the chip does not take. -/
theorem Reached.commandTimeout (h : Reached n s g acts q t) (hs : SockAnswers s) {code : Byte} (hcode : code ≠ 0x00#8)
    (hq : QuietFor s (g + 11)) :
    ∃ u, execProtocol n code t = .err (.commandTimeout code) u ∧
      Reached n s (g + 11) (acts ++ commandPolls s.cfg n code 10 code) (commanded q code) u := by
  have ht := hs.after h.toRan
  obtain ⟨u, hrun, hpolled, hchip, hout⟩ := execProtocol_timeout ht.toClean ht.disjoint n hcode (QuietFor.after hq h.toRan)
  have htime := punctual_execProtocol n code t
  rw [hrun] at htime
  rw [h.bank] at hchip
  rw [h.cfg] at hout
  exact ⟨u, hrun, h.trans ⟨hpolled.toRan, hout, hchip, .inl hpolled.cs, fun _ => hpolled.draws, htime⟩⟩

end reached

/-! The parts of Read -/

theorem exec_sockRead {s : State} {h : Half} {hd : Handle} (hh : handleOf s h = some hd) (len : Nat) :
    exec (.sockRead h len) s = .next (finishStream (streamRead hd len s)) := by
  rw [exec, execSockRead, onHandle_some hh]

/-- R240 step 2: a Read into something reads the received size, which decides how it goes on. -/
theorem streamRead_size {s : State} (hs : SockAnswers s) (hd : Handle) {len : Nat} (hlen : 0 < len)
    (hq : gapAt s 0 = []) :
    ∃ t, streamRead hd len s =
        (if (bank s hd.n).rxRsr = 0#16 then nothingReceived hd.n t else takeReceived hd len t) ∧
      Reached hd.n (s.setDest []) 1 [regRead s.cfg hd.n .rxRsr (halfBytes (bank s hd.n).rxRsr)] (bank s hd.n) t ∧
      t.lat.sz = (bank s hd.n).rxRsr := by
  have hstart := ((Reached.start hd.n s).setDest []).goto .streamRead 2
  obtain ⟨t, hrun, h⟩ := hstart.read16 (hs.setDest []) hq (r := .rxRsr) rfl fun _ => rfl
  have hrun : readSock16 hd.n .rxRsr (goto .streamRead 2 ((goto .streamRead 1 s).setDest [])) = _ := hrun
  refine ⟨setSz (bank s hd.n).rxRsr t, ?_, h.setLat _, rfl⟩
  rw [streamRead, if_neg (by omega), hrun]
  rfl

theorem endsStream_iff {c : StatusCodes} {st : Byte} :
    endsStream c st = true ↔ st ∈ [c.listen, c.closed, c.closeWait] := by
  simp [endsStream, or_assoc]

/-- R241: the status a Read latches decides between end-of-stream and nothing yet. -/
theorem nothingReceived_eq {n : SockIdx} {s t : State} (h : readStatus n s = .ok () t) :
    nothingReceived n s =
      .ok (0, if t.lat.st ∈ [t.cfg.status.listen, t.cfg.status.closed, t.cfg.status.closeWait] then some .endOfStream
        else none) t := by
  rw [nothingReceived, h, Res.andThen_ok]
  simp only [endsStream_iff]
  split <;> rfl

/-- R240 step 5: a bank whose read pointer has advanced past `c` bytes. -/
def advanced (q : Socket) (c : Nat) : Socket := { q with rxRd := q.rxRd + BitVec.ofNat 16 c }

/-- R240 steps 3 to 5: what Read does at the boundary to take the bytes `d`, in order; `q` is the bank before it. -/
def takeTrace (c : Cfg) (hd : Handle) (q : Socket) (d : List Byte) : List BusAct :=
  [regRead c hd.n .rxRd (halfBytes q.rxRd), readFrame (rxBlk hd.n) (rxAddr c hd.n hd.sRx q.rxRd) d,
    regWrite c hd.n .rxRd (halfBytes (advanced q d.length).rxRd)]

/-- R240 steps 3 to 5: a Read with the received size latched takes the bytes and comes to its RECV. -/
theorem Reached.takeReceived {hd : Handle} {s t : State} {g : Nat} {acts : List BusAct} {q : Socket}
    (h : Reached hd.n s g acts q t) (hs : SockAnswers s) (hq : QuietFor s (g + 3)) (len : Nat) :
    ∃ d u, takeReceived hd len t = acknowledge hd.n u ∧ d.length = min t.lat.sz.toNat len ∧
      (∀ i (hi : i < d.length),
        peek s (rxBlk hd.n) (rxAddr s.cfg hd.n hd.sRx q.rxRd + BitVec.ofNat 16 i) = some d[i]) ∧
      Reached hd.n (s.setDest d) (g + 3) (acts ++ takeTrace s.cfg hd q d) (advanced q d.length) u ∧
      u.lat.cnt = d.length := by
  have h := ((h.goto .streamRead 3).setLat { t.lat with cnt := min t.lat.sz.toNat len }).goto .streamRead 4
  obtain ⟨u, hptr, h⟩ := h.read16 hs (hq g (by omega)) (r := .rxRd) rfl fun _ => rfl
  have hcfg : u.cfg = s.cfg := h.cfg
  have hcnt : u.lat.cnt = min t.lat.sz.toNat len := (sameLat_of_eq (sameLat_readSock16 hd.n .rxRd _) hptr).cnt
  have h := (h.setLat { u.lat with ptr := q.rxRd }).setLat
    { u.lat with ptr := q.rxRd, addr := rxAddr u.cfg hd.n hd.sRx q.rxRd }
  obtain ⟨d, v, hdata, hlen, hbytes, h⟩ :=
    h.readRx hs (hq (g + 1) (by omega)) (rxAddr u.cfg hd.n hd.sRx q.rxRd) u.lat.cnt
  have hlat := sameLat_of_eq (sameLat_memRead ..) hdata
  have hcntV : v.lat.cnt = d.length := hlat.cnt.trans hlen.symm
  have hptrV : v.lat.ptr = q.rxRd := sameLat_ptr hlat
  obtain ⟨w, hwrite, h⟩ := ((h.goto .streamRead 5).setDest d).write (hs.setDest d) (hq (g + 2) (by omega))
    (storeSockFrom_rxRd hd.n (v.lat.ptr + BitVec.ofNat 16 v.lat.cnt)) (Nat.le_refl 2)
  have hcntW : w.lat.cnt = d.length := (sameLat_of_eq (sameLat_memWrite ..) hwrite).cnt.trans hcntV
  rw [hptrV, hcntV, hcfg] at h
  rw [hcfg] at hbytes
  refine ⟨d, w, ?_, hlen.trans hcnt, hbytes, ?_, hcntW⟩
  · exact (andThen_of_ok hptr).trans ((andThen_of_ok hdata).trans (andThen_of_ok hwrite))
  · rw [List.append_assoc, List.append_assoc] at h
    exact h

/-- R240 step 6: RECV is over. -/
theorem acknowledge_ok {n : SockIdx} {s t : State} (h : execProtocol n cmdRecv (goto .streamRead 6 s) = .ok () t) :
    acknowledge n s = .ok (s.lat.cnt, none) (goto .streamRead 7 t) := by
  have hcnt : t.lat.cnt = s.lat.cnt := (sameLat_of_eq (sameLat_execProtocol ..) h).cnt
  rw [acknowledge, h, ← hcnt]

/-- R242: RECV has failed; the count stands beside the error. -/
theorem acknowledge_err {n : SockIdx} {s t : State} {e : Err}
    (h : execProtocol n cmdRecv (goto .streamRead 6 s) = .err e t) :
    acknowledge n s = .ok (s.lat.cnt, some e) t := by
  have hcnt : t.lat.cnt = s.lat.cnt := (sameLat_of_eq (sameLat_execProtocol ..) h).cnt
  rw [acknowledge, h, ← hcnt]

/-- R240 steps 1 to 5: a Read with data on the chip takes them and comes to its RECV. -/
theorem streamRead_takes {s : State} (hs : SockAnswers s) (hd : Handle) {len c : Nat} (hlen : 0 < len)
    (hq : QuietFor s 4) (hsize : (bank s hd.n).rxRsr ≠ 0#16) (hc : c = min (bank s hd.n).rxRsr.toNat len) :
    ∃ d t, streamRead hd len s = acknowledge hd.n t ∧ d.length = c ∧
      (∀ i (hi : i < d.length),
        peek s (rxBlk hd.n) (rxAddr s.cfg hd.n hd.sRx (bank s hd.n).rxRd + BitVec.ofNat 16 i) = some d[i]) ∧
      Reached hd.n (s.setDest d) 4
        (regRead s.cfg hd.n .rxRsr (halfBytes (bank s hd.n).rxRsr) :: takeTrace s.cfg hd (bank s hd.n) d)
        (advanced (bank s hd.n) d.length) t ∧
      t.lat.cnt = d.length := by
  obtain ⟨t, hrun, h, hsz⟩ := streamRead_size hs hd hlen (hq 0 (by omega))
  rw [if_neg hsize] at hrun
  obtain ⟨d, u, htake, hlenD, hbytes, hu, hcnt⟩ := h.takeReceived (hs.setDest []) hq len
  rw [hsz, ← hc] at hlenD
  exact ⟨d, u, hrun.trans htake, hlenD, hbytes, hu, hcnt⟩

/-! The four statements -/

/-- Settles O43: step 1 ends the Read before any frame. -/
theorem readEmptyDestination : Obligations.ReadEmptyDestination := by
  intro s h hd hh
  rw [exec_sockRead hh, streamRead, if_pos rfl]
  rfl

/-- Settles O44: the status read after a received size of 0 decides. -/
theorem readNothingReceived : Obligations.ReadNothingReceived := by
  intro s h hd len hs hdis hh hlen hq hsize
  have hs : SockAnswers s := ⟨hs, hdis⟩
  obtain ⟨t, hrun, ht, -⟩ := streamRead_size hs hd hlen (hq 0 (by omega))
  obtain ⟨u, hread, hu, hst⟩ := ht.statusQuiet (hs.setDest []) (hq 1 (by omega))
  rw [if_pos hsize, nothingReceived_eq hread, hst, hu.cfg] at hrun
  refine ⟨_, ?_, hu.ended (by omega) _, ?_, ?_⟩
  · rw [exec_sockRead hh, hrun]
    rfl
  · exact hu.chip.trans (withBank_self s.chip hd.n)
  · rw [hsize] at hu
    exact hu.out

/-- Settles O45: the frames that take the bytes, then a RECV the chip takes before poll `m`. -/
theorem readDelivers : Obligations.ReadDelivers := by
  intro s h hd len m c hs hdis hh hlen hq hsize hc h1 h10 ha
  have hs : SockAnswers s := ⟨hs, hdis⟩
  obtain ⟨d, t, hrun, rfl, hbytes, ht, hcnt⟩ := streamRead_takes hs hd hlen hq hsize hc
  obtain ⟨u, hrecv, hu⟩ := (ht.goto .streamRead 6).command (hs.setDest d) (code := cmdRecv) (by decide) h1 h10 ha
  rw [acknowledge_ok hrecv, hcnt] at hrun
  refine ⟨_, d, ?_, hu.ended (by omega) _, rfl, hbytes, hu.chip, _, _, rfl, rfl, hu.out⟩
  rw [exec_sockRead hh, hrun]
  rfl

/-- Settles O46: the same frames, then a RECV that ten polls show pending. -/
theorem readKeepsCountOnFailedRecv : Obligations.ReadKeepsCountOnFailedRecv := by
  intro s h hd len c hs hdis hh hlen hq hsize hc
  have hs : SockAnswers s := ⟨hs, hdis⟩
  obtain ⟨d, t, hrun, rfl, hbytes, ht, hcnt⟩ := streamRead_takes hs hd hlen (fun j hj => hq j (by omega)) hsize hc
  obtain ⟨u, hrecv, hu⟩ := (ht.goto .streamRead 6).commandTimeout (hs.setDest d) (code := cmdRecv) (by decide) hq
  rw [acknowledge_err hrecv, hcnt] at hrun
  refine ⟨_, d, ?_, hu.ended (by omega) _, rfl, hbytes, hu.chip⟩
  rw [exec_sockRead hh, hrun]
  rfl

end Sys2Proof.Proofs
end

section
/-! PROOFS. The statements of 44_stream_write.md: a Write has no frame that writes Sn_IR; its two waits are runs of looks
that go on and a last look; between them the payload goes to the transmit buffer and SEND is taken. -/

namespace Sys2Proof.Proofs

open Sys2Proof.Machine Sys2Proof.Safety

/-! Write and the interrupt register -/

theorem header_inj {blk blk' : Selector} {off off' : Half} {w w' : Bool} (h : header blk off w = header blk' off' w') :
    blk = blk' ∧ off = off' ∧ w = w' := by
  have hhi : hi8 off = hi8 off' := congrArg (·[0]) h
  have hlo : lo8 off = lo8 off' := congrArg (·[1]) h
  have hctrl : ctrlByte blk w = ctrlByte blk' w' := congrArg (·[2]) h
  refine ⟨?_, ?_, ?_⟩
  · rw [← ctrlSelector_ctrlByte blk w, hctrl, ctrlSelector_ctrlByte]
  · rw [← be16_hi_lo off, hhi, hlo, be16_hi_lo]
  · rw [← ctrlWrite_ctrlByte blk w, hctrl, ctrlWrite_ctrlByte]

/-- R259: the action is no frame that writes Sn_IR of socket `n`, whether it completes or fails. -/
def SparesFlags (c : Cfg) (n : SockIdx) (a : BusAct) : Prop :=
  actHeader a ≠ some (header (regBlk n) (sockOff c .ir) true)

section spares

variable {c : Cfg} {n : SockIdx} {s t : State} {hdr : Header}

theorem sparesFlags_of_ne (h : hdr ≠ header (regBlk n) (sockOff c .ir) true) : FrameOk (SparesFlags c n) hdr where
  frame _ e := h (Option.some.inj e)
  headerFailed e := h (Option.some.inj e)
  dataFailed e := h (Option.some.inj e)

/-- A wait adds a sleep, and a sleep is no frame; that no selector is admitted leaves the frames to the lemmas below. -/
theorem sparesFlags_noFrame : BlocksOk (SparesFlags c n) fun _ => False where
  ok _ h := h.elim
  sleep _ := Option.some_ne_none _ ∘ Eq.symm
  now _ := Option.some_ne_none _ ∘ Eq.symm
  rand _ := Option.some_ne_none _ ∘ Eq.symm
  log := Option.some_ne_none _ ∘ Eq.symm

/-- R8: two registers of a socket start at two offsets. -/
theorem sockOff_ne (hd : SockDisjoint c) {r q : SockReg} (h : r ≠ q) : sockOff c r ≠ sockOff c q := by
  have := hd r r.mem_all q q.mem_all h 0 (List.mem_range.mpr (sockReg_width_pos r)) 0
    (List.mem_range.mpr (sockReg_width_pos q))
  rwa [off_zero, off_zero] at this

theorem txBlk_ne_regBlk (n : SockIdx) : txBlk n ≠ regBlk n := by revert n; decide

theorem spares_memRead (h : Kept (SparesFlags c n) s t) (blk : Selector) (off : Half) (len : Nat) :
    Kept (SparesFlags c n) s (memRead blk off len t).state :=
  h.trans (kept_memRead (sparesFlags_of_ne fun e => have ⟨_, _, hw⟩ := header_inj e; absurd hw (by decide)) len t)

theorem spares_read8 (h : Kept (SparesFlags c n) s t) (r : SockReg) :
    Kept (SparesFlags c n) s (readSock8 n r t).state := (spares_memRead h _ _ _).seq fun _ _ h => h

theorem spares_read16 (h : Kept (SparesFlags c n) s t) (r : SockReg) :
    Kept (SparesFlags c n) s (readSock16 n r t).state := (spares_memRead h _ _ _).seq fun _ _ h => h

theorem spares_writeTx (h : Kept (SparesFlags c n) s t) (off : Half) (d : List Byte) :
    Kept (SparesFlags c n) s (memWrite (txBlk n) off d t).state :=
  h.trans (kept_memWrite (sparesFlags_of_ne fun e => have ⟨hblk, _⟩ := header_inj e; txBlk_ne_regBlk n hblk) d t)

theorem spares_writeSock (h : Kept (SparesFlags s.cfg n) s t) (hd : SockDisjoint s.cfg) {r : SockReg} (hr : r ≠ .ir)
    (d : List Byte) : Kept (SparesFlags s.cfg n) s (writeSock n r d t).state := by
  rw [writeSock, h.cfg]
  exact h.trans (kept_memWrite (sparesFlags_of_ne fun e => have ⟨_, hoff, _⟩ := header_inj e; sockOff_ne hd hr hoff) d t)

theorem spares_readStatus (h : Kept (SparesFlags c n) s t) : Kept (SparesFlags c n) s (readStatus n t).state :=
  (spares_read8 h .sr).seq fun _ _ h => h.setSt _

theorem spares_execPoll (h : Kept (SparesFlags c n) s t) : Kept (SparesFlags c n) s (execPoll n t).state :=
  (spares_read8 (h.goto _ _) .cr).seq fun _ _ h =>
    .ite ((h.setCrv _).goto _ _) (.ite (((h.setCrv _).goto _ _).goto _ _) (((h.setCrv _).goto _ _).goto _ _))

theorem spares_execProtocol (h : Kept (SparesFlags s.cfg n) s t) (hd : SockDisjoint s.cfg) (code : Byte) :
    Kept (SparesFlags s.cfg n) s (execProtocol n code t).state :=
  (spares_writeSock ((h.goto _ _).setCmd code) hd (r := .cr) (by decide) _).seq fun _ _ h =>
    ((h.goto _ _).setPoll 1).pollLoop sparesFlags_noFrame (fun _ h => spares_execPoll h) _

theorem spares_freePoll (h : Kept (SparesFlags c n) s t) : Kept (SparesFlags c n) s (freePoll n t).state :=
  (spares_read16 (h.gotoSub _ _ _) .txFsr).seq fun _ _ h =>
    .ite ((h.setSz _).gotoSub _ _ _) <|
    (spares_readStatus (((h.setSz _).gotoSub _ _ _).gotoSub _ _ _)).seq fun _ _ h => .ite h h

theorem spares_sendOkPoll (h : Kept (SparesFlags c n) s t) : Kept (SparesFlags c n) s (sendOkPoll n t).state :=
  (spares_read8 (h.gotoSub _ _ _) .ir).seq fun _ _ h =>
    .ite ((h.setIrv _).gotoSub _ _ _) <|
    (spares_readStatus (((h.setIrv _).gotoSub _ _ _).gotoSub _ _ _)).seq fun _ _ h => .ite h h

theorem spares_placePayload {hd : Handle} (h : Kept (SparesFlags s.cfg hd.n) s t) (hdis : SockDisjoint s.cfg)
    (d : List Byte) : Kept (SparesFlags s.cfg hd.n) s (placePayload hd d t).state :=
  (spares_read16 (h.goto _ _) .txWr).seq fun _ _ h =>
    (spares_writeTx ((h.setPtr _).setAddr _) _ _).seq fun _ _ h =>
    spares_writeSock (h.goto _ _) hdis (r := .txWr) (by decide) _

/-- R255, R259: the frames of a Write read, or write the buffer, the write pointer or the command register. -/
theorem spares_streamWrite (hd : Handle) (hdis : SockDisjoint s.cfg) (d : List Byte) :
    Kept (SparesFlags s.cfg hd.n) s (streamWrite hd d s).state :=
  have hstart := ((Kept.refl s).goto .streamWrite 1).setCnt d.length
  .ite hstart <| (spares_readStatus (hstart.goto _ _)).seq fun _ _ h =>
    .ite
      ((((h.goto _ _).setPoll 1).pollLoop sparesFlags_noFrame (fun _ h => spares_freePoll h) _).seq fun _ _ h =>
        (spares_placePayload h hdis d).seq fun _ _ h =>
        (spares_execProtocol (h.goto _ _) hdis _).seq fun _ _ h =>
        (((h.goto _ _).setPoll 1).pollLoop sparesFlags_noFrame (fun _ h => spares_sendOkPoll h) _).seq fun _ _ h =>
        h.goto _ _)
      h

end spares

theorem exec_sockWrite {s : State} {h : Half} {hd : Handle} (hh : handleOf s h = some hd) (data : List Byte) :
    exec (.sockWrite h data) s = .next (finishStream (streamWrite hd data s)) := by
  rw [exec, execSockWrite, onHandle_some hh]

/-- Settles O50: the sequence of a Write spares the register, and its end adds nothing to the trace. -/
theorem writeNeverClearsFlags : Obligations.WriteNeverClearsFlags := by
  intro s t h hd data hdis hh he
  rw [exec_sockWrite hh] at he
  cases he
  obtain ⟨r, u, hend, hkept⟩ := finishes_stream (spares_streamWrite hd hdis data)
  rw [hend]
  exact hkept.out

/-! Reads of registers after a gap in which the chip may have taken steps -/

section reached

variable {n : SockIdx} {s t : State} {g : Nat} {acts : List BusAct} {q p : Socket} {v : Byte}

theorem Reached.gotoSub (h : Reached n s g acts q t) (op : SeqOp) (j i : Nat) : Reached n s g acts q (gotoSub op j i t) :=
  h.inside (.running op j i) t.lat

theorem Reached.quietTurn (h : Reached n s g acts q t) (hq : gapAt s g = []) :
    (chipTurn t).chip = withBank s.chip n q :=
  (chipTurn_quiet (by rw [h.toRan.gapAt]; exact hq)).trans h.chip

/-- A gap that changes the socket's bank only. -/
theorem Reached.bankTurn (h : Reached n s g acts q t) (hc : (chipTurn t).chip = withBank t.chip n p) :
    (chipTurn t).chip = withBank s.chip n p := by
  rw [hc, h.chip, withBank_withBank]

theorem Reached.statusTurn (h : Reached n s g acts q t)
    (hg : gapAt s g = [.status n v] ∨ gapAt s g = [] ∧ v = q.sr) :
    (chipTurn t).chip = withBank s.chip n (withStatus v q) := by
  have hturn := chipTurn_status (s := t) (n := n) (v := v) (by rw [h.toRan.gapAt, h.bank]; exact hg)
  rw [h.bank] at hturn
  exact h.bankTurn hturn

/-- R292: a gap in which the chip shows the free size `f`, by a change or as it was. -/
theorem Reached.freeSizeTurn (h : Reached n s g acts q t) {f : Half}
    (hg : gapAt s g = [] ∧ f = q.txFsr ∨ gapAt s g = [.freeSize n f]) :
    (chipTurn t).chip = withBank s.chip n { q with txFsr := f } := by
  rcases hg with ⟨hg, rfl⟩ | hg
  · exact h.quietTurn hg
  · have hturn : (chipTurn t).chip = withBank t.chip n { Safety.bank t n with txFsr := f } := by
      rw [chipTurn_eq, h.toRan.gapAt, show gapAt s (g + 0) = _ from hg]
      rfl
    rw [h.bank] at hturn
    exact h.bankTurn hturn

/-- R163: a read of a one-byte register of the socket. -/
theorem Reached.read8Turn (h : Reached n s g acts q t) (hs : SockAnswers s)
    (hc : (chipTurn t).chip = withBank s.chip n p) {r : SockReg} (hw : r.width = 1) :
    ∃ u hdr, readSock8 n r t = .ok (sockByte p r 0) u ∧
      Reached n s (g + 1) (acts ++ [regRead s.cfg n r [sockByte p r 0]]) p u ∧ u.lat = { t.lat with hdr := hdr } := by
  have ht := hs.after h.toRan
  obtain ⟨u, hrun, hframe, hchip⟩ := readSock8_run ht.toClean ht.disjoint n hw
  have htime := punctual_readSock8 n r t
  rw [hrun] at htime
  rw [Safety.bank, hc, bank_withBank] at hrun hframe
  rw [h.cfg] at hframe
  refine ⟨u, _, hrun, h.trans (reached_of_framed hframe ?_ htime), hframe.lat⟩
  rw [hchip, hc, h.chip, withBank_withBank]

/-- R164: a read of a two-byte register of the socket. -/
theorem Reached.read16Turn (h : Reached n s g acts q t) (hs : SockAnswers s)
    (hc : (chipTurn t).chip = withBank s.chip n p) {r : SockReg} {x : Half} (hw : r.width = 2)
    (hx : ∀ i, sockByte p r i = halfByteAt x i) :
    ∃ u hdr, readSock16 n r t = .ok x u ∧ Reached n s (g + 1) (acts ++ [regRead s.cfg n r (halfBytes x)]) p u ∧
      u.lat = { t.lat with hdr := hdr } := by
  have ht := hs.after h.toRan
  obtain ⟨u, hrun, hframe, hchip⟩ := readSock16_run ht.toClean ht.disjoint n hw
  have htime := punctual_readSock16 n r t
  rw [hrun] at htime
  rw [Safety.bank, hc, bank_withBank, hx, hx] at hrun hframe
  rw [h.cfg] at hframe
  rw [show be16 (halfByteAt x 0) (halfByteAt x 1) = x from be16_hi_lo x] at hrun
  refine ⟨u, _, hrun, h.trans (reached_of_framed hframe ?_ htime), hframe.lat⟩
  rw [hchip, hc, h.chip, withBank_withBank]

/-- R211: a status read, with every latch. -/
theorem Reached.statusLatched (h : Reached n s g acts q t) (hs : SockAnswers s)
    (hg : gapAt s g = [.status n v] ∨ gapAt s g = [] ∧ v = q.sr) :
    ∃ u hdr, readStatus n t = .ok () u ∧ Reached n s (g + 1) (acts ++ [regRead s.cfg n .sr [v]]) (withStatus v q) u ∧
      u.lat = { t.lat with hdr := hdr, st := v } := by
  obtain ⟨u, hdr, hrun, hu, hlat⟩ := h.read8Turn hs (h.statusTurn hg) (r := .sr) rfl
  refine ⟨setSt v u, hdr, ?_, hu.setLat _, ?_⟩
  · rw [readStatus, hrun]
    rfl
  · rw [setSt, hlat]
    rfl

theorem Reached.nextPoll (h : Reached n s g acts q t) (w : WaitSteps) (ms : Nat) :
    Reached n s g (acts ++ [.sleep ms]) q (nextPoll w ms t) :=
  ((h.inside w.sleep t.lat).sleep ms).inside w.count _

/-! The looks of the two waits -/

theorem maySend_iff {c : Cfg} : maySend c.status v = true ↔ MaySend c v := by
  simp [maySend, MaySend]

/-- R133, R259: the send-ok flag is bit 4. -/
theorem sendOkSet_eq (ir : Byte) : sendOkSet ir = ir.getLsbD 4 := by
  rw [sendOkSet, show irSendOk = BitVec.twoPow 8 4 from rfl, BitVec.and_twoPow]
  cases ir.getLsbD 4 <;> rfl

/-- R255 steps 3a to 3c: the frames of a look at the free size `f` that goes on to the status `v`, in order. -/
def freeLook (c : Cfg) (n : SockIdx) (f : Half) (v : Byte) : List BusAct :=
  [regRead c n .txFsr (halfBytes f), regRead c n .sr [v]]

/-- R255 steps 7a to 7c: the frames of a look at the flags `ir` that goes on to the status `v`, in order. -/
def sendOkLook (c : Cfg) (n : SockIdx) (ir v : Byte) : List BusAct := [regRead c n .ir [ir], regRead c n .sr [v]]

/-- R255 steps 3a, 3b: a look that shows room ends the free-space wait. -/
theorem Reached.freeRoom (h : Reached n s g acts q t) (hs : SockAnswers s) {f : Half}
    (hg : gapAt s g = [] ∧ f = q.txFsr ∨ gapAt s g = [.freeSize n f]) (hroom : t.lat.cnt ≤ f.toNat) :
    ∃ u, freePoll n t = .ok true u ∧
      Reached n s (g + 1) (acts ++ [regRead s.cfg n .txFsr (halfBytes f)]) { q with txFsr := f } u ∧
      u.lat.cnt = t.lat.cnt := by
  have h := h.gotoSub .streamWrite 3 1
  obtain ⟨u, hdr, hrun, hu, hlat⟩ := h.read16Turn hs (h.freeSizeTurn hg) (r := .txFsr) rfl fun _ => rfl
  have hcnt : u.lat.cnt = t.lat.cnt := by rw [hlat]; rfl
  refine ⟨Machine.gotoSub .streamWrite 3 2 (setSz f u), ?_, (hu.setLat _).gotoSub _ _ _, hcnt⟩
  exact (andThen_of_ok hrun).trans (if_pos (hcnt.trans_le hroom))

/-- R258: what a look that shows too little room makes of the status. -/
theorem freePoll_short {u w : State} {f : Half} (hread : readSock16 n .txFsr (gotoSub .streamWrite 3 1 t) = .ok f u)
    (hshort : f.toNat < u.lat.cnt)
    (hst : readStatus n (gotoSub .streamWrite 3 3 (gotoSub .streamWrite 3 2 (setSz f u))) = .ok () w) :
    freePoll n t = if maySend w.cfg.status w.lat.st then .ok false w else .err .endOfStream w :=
  (andThen_of_ok hread).trans ((if_neg (Nat.not_le.mpr hshort)).trans (andThen_of_ok hst))

/-- R259: what a look that does not show send-ok makes of the status. -/
theorem sendOkPoll_clear {u w : State} {ir : Byte} (hread : readSock8 n .ir (gotoSub .streamWrite 7 1 t) = .ok ir u)
    (hclear : sendOkSet ir = false)
    (hst : readStatus n (gotoSub .streamWrite 7 3 (gotoSub .streamWrite 7 2 (setIrv ir u))) = .ok () w) :
    sendOkPoll n t = if w.lat.st = w.cfg.status.closed then .err .socketClosedDuringWrite w else .ok false w :=
  (andThen_of_ok hread).trans ((if_neg (Bool.eq_false_iff.mp hclear)).trans (andThen_of_ok hst))

/-- R255 steps 3a to 3c: a look that shows too little room goes on to the status, which decides. -/
theorem Reached.freeShort (h : Reached n s g acts q t) (hs : SockAnswers s) (hq : gapAt s g = [])
    (hshort : q.txFsr.toNat < t.lat.cnt)
    (hg : gapAt s (g + 1) = [.status n v] ∨ gapAt s (g + 1) = [] ∧ v = q.sr) :
    ∃ u, freePoll n t = (if maySend s.cfg.status v then .ok false u else .err .endOfStream u) ∧
      Reached n s (g + 2) (acts ++ freeLook s.cfg n q.txFsr v) (withStatus v q) u ∧
      u.lat.poll = t.lat.poll ∧ u.lat.cnt = t.lat.cnt ∧ u.lat.sz = q.txFsr := by
  have h := h.gotoSub .streamWrite 3 1
  obtain ⟨u, hdr, hread, hu, hlat⟩ := h.read16Turn hs (h.quietTurn hq) (r := .txFsr) rfl fun _ => rfl
  have hcnt : u.lat.cnt = t.lat.cnt := by rw [hlat]; rfl
  have hpoll : u.lat.poll = t.lat.poll := by rw [hlat]; rfl
  have hu := ((hu.setLat { u.lat with sz := q.txFsr }).gotoSub .streamWrite 3 2).gotoSub .streamWrite 3 3
  obtain ⟨w, hdr', hst, hw, hlat⟩ := hu.statusLatched hs hg
  have hrun := freePoll_short hread (by omega) hst
  rw [List.append_assoc] at hw
  rw [hlat, hw.cfg] at hrun
  exact ⟨w, hrun, hw, by rw [hlat]; exact hpoll, by rw [hlat]; exact hcnt, by rw [hlat]; rfl⟩

/-- R255 steps 7a, 7b: a look that shows send-ok ends the wait. -/
theorem Reached.sendOkShown (h : Reached n s g acts q t) (hs : SockAnswers s)
    (hc : (chipTurn t).chip = withBank s.chip n p) (hset : p.ir.getLsbD 4 = true) :
    ∃ u, sendOkPoll n t = .ok true u ∧ Reached n s (g + 1) (acts ++ [regRead s.cfg n .ir [p.ir]]) p u ∧
      u.lat.cnt = t.lat.cnt := by
  have h := h.gotoSub .streamWrite 7 1
  have hc : (chipTurn (Machine.gotoSub .streamWrite 7 1 t)).chip = withBank s.chip n p := by
    rw [Machine.gotoSub, chipTurn_setSeq]
    exact hc
  obtain ⟨u, hdr, hread, hu, hlat⟩ := h.read8Turn hs hc (r := .ir) rfl
  refine ⟨Machine.gotoSub .streamWrite 7 2 (setIrv p.ir u), ?_, (hu.setLat _).gotoSub _ _ _, by
    show u.lat.cnt = _
    rw [hlat]
    rfl⟩
  exact (andThen_of_ok hread).trans (if_pos ((sendOkSet_eq p.ir).trans hset))

/-- R255 steps 7a to 7c: a look that does not show send-ok goes on to the status, which decides. -/
theorem Reached.sendOkClear (h : Reached n s g acts q t) (hs : SockAnswers s) (hq : gapAt s g = [])
    (hclear : q.ir.getLsbD 4 = false)
    (hg : gapAt s (g + 1) = [.status n v] ∨ gapAt s (g + 1) = [] ∧ v = q.sr) :
    ∃ u, sendOkPoll n t = (if v = s.cfg.status.closed then .err .socketClosedDuringWrite u else .ok false u) ∧
      Reached n s (g + 2) (acts ++ sendOkLook s.cfg n q.ir v) (withStatus v q) u ∧
      u.lat.poll = t.lat.poll ∧ u.lat.cnt = t.lat.cnt ∧ u.lat.irv = q.ir := by
  have h := h.gotoSub .streamWrite 7 1
  obtain ⟨u, hdr, hread, hu, hlat⟩ := h.read8Turn hs (h.quietTurn hq) (r := .ir) rfl
  have hcnt : u.lat.cnt = t.lat.cnt := by rw [hlat]; rfl
  have hpoll : u.lat.poll = t.lat.poll := by rw [hlat]; rfl
  have hu := ((hu.setLat { u.lat with irv := q.ir }).gotoSub .streamWrite 7 2).gotoSub .streamWrite 7 3
  obtain ⟨w, hdr', hst, hw, hlat⟩ := hu.statusLatched hs hg
  have hrun := sendOkPoll_clear hread ((sendOkSet_eq q.ir).trans hclear) hst
  rw [List.append_assoc] at hw
  rw [hlat, hw.cfg] at hrun
  exact ⟨w, hrun, hw, by rw [hlat]; exact hpoll, by rw [hlat]; exact hcnt, by rw [hlat]; rfl⟩

end reached

/-! Looks that do not end a wait -/

/-- A look of a wait that in quiet gaps does `look` at the boundary and ends nothing, bank `n` being `q` and the latched
length being `c`. -/
def GoesOn (n : SockIdx) (s : State) (q : Socket) (c : Nat) (body : State → Res Bool) (look : List BusAct) : Prop :=
  ∀ g acts t, Reached n s g acts q t → gapAt s g = [] → gapAt s (g + 1) = [] → t.lat.cnt = c →
    ∃ u, body t = .ok false u ∧ Reached n s (g + 2) (acts ++ look) q u ∧ u.lat.poll = t.lat.poll ∧ u.lat.cnt = c

section looks

variable {n : SockIdx} {s t : State} {g : Nat} {acts look : List BusAct} {q : Socket} {c : Nat} {body : State → Res Bool}

theorem goesOn_freePoll (hs : SockAnswers s) (hshort : q.txFsr.toNat < c) (hst : MaySend s.cfg q.sr) :
    GoesOn n s q c (freePoll n) (freeLook s.cfg n q.txFsr q.sr) := by
  intro g acts t h hq hq' hcnt
  obtain ⟨u, hrun, hu, hpoll, hcnt', -⟩ := h.freeShort hs hq (hcnt ▸ hshort) (.inr ⟨hq', rfl⟩)
  rw [if_pos (maySend_iff.mpr hst)] at hrun
  exact ⟨u, hrun, hu, hpoll, hcnt'.trans hcnt⟩

theorem goesOn_sendOkPoll (hs : SockAnswers s) (hclear : q.ir.getLsbD 4 = false) (hst : q.sr ≠ s.cfg.status.closed) :
    GoesOn n s q c (sendOkPoll n) (sendOkLook s.cfg n q.ir q.sr) := by
  intro g acts t h hq hq' hcnt
  obtain ⟨u, hrun, hu, hpoll, hcnt', -⟩ := h.sendOkClear hs hq hclear (.inr ⟨hq', rfl⟩)
  rw [if_neg hst] at hrun
  exact ⟨u, hrun, hu, hpoll, hcnt'.trans hcnt⟩

/-- R296: `k` looks that go on, a sleep after each, leave the wait where it was but for the count. -/
theorem pollLoop_goesOn {w : WaitSteps} {budget ms k : Nat} {timeout : State → Err}
    (hlook : 0 < k → GoesOn n s q c body look) (h : Reached n s g acts q t) (hcnt : t.lat.cnt = c)
    (hq : ∀ i, i < 2 * k → gapAt s (g + i) = []) (hb : t.lat.poll + k ≤ budget) (fuel : Nat) :
    ∃ u, pollLoop w budget ms timeout body (k + fuel) t = pollLoop w budget ms timeout body fuel u ∧
      Reached n s (g + 2 * k) (acts ++ (List.replicate k (look ++ [.sleep ms])).flatten) q u ∧
      u.lat.poll = t.lat.poll + k ∧ u.lat.cnt = c := by
  induction k generalizing fuel with
  | zero => exact ⟨t, by rw [Nat.zero_add], by simpa using h, rfl, hcnt⟩
  | succ k ih =>
    obtain ⟨u, hloop, hu, hpoll, hcnt'⟩ :=
      ih (fun _ => hlook (by omega)) (fun i hi => hq i (by omega)) (by omega) (fuel + 1)
    obtain ⟨v, hrun, hv, hpoll', hcntV⟩ := hlook (by omega) _ _ u hu (hq (2 * k) (by omega))
      (by rw [Nat.add_assoc]; exact hq (2 * k + 1) (by omega)) hcnt'
    obtain ⟨-, -, hlat, -⟩ := ran_nextPoll w ms (v.setSeq w.test)
    have hnext := (hv.inside w.test v.lat).nextPoll w ms
    refine ⟨nextPoll w ms (v.setSeq w.test), ?_, ?_, ?_, ?_⟩
    · rw [Nat.add_right_comm, Nat.add_assoc, hloop, pollLoop_again hrun (by omega)]
    · rw [List.replicate_succ', List.flatten_concat, ← List.append_assoc, ← List.append_assoc]
      exact hnext
    · rw [hlat]
      show v.lat.poll + 1 = _
      omega
    · rw [hlat]
      exact hcntV

/-- R296: a wait whose first `j - 1` looks go on comes to look `j`. -/
theorem wait_look {w : WaitSteps} {budget ms j : Nat} {timeout : State → Err}
    (hlook : 1 < j → GoesOn n s q c body look) (h : Reached n s g acts q t) (hpoll : t.lat.poll = 1) (hcnt : t.lat.cnt = c)
    (h1 : 1 ≤ j) (hj : j ≤ budget) (hq : ∀ i, i < 2 * (j - 1) → gapAt s (g + i) = []) :
    ∃ u, pollLoop w budget ms timeout body budget t = pollLoop w budget ms timeout body (budget - j + 1) u ∧
      Reached n s (g + 2 * (j - 1)) (acts ++ (List.replicate (j - 1) (look ++ [.sleep ms])).flatten) q u ∧
      u.lat.poll = j ∧ u.lat.cnt = c := by
  obtain ⟨u, hloop, hu, hpoll', hcnt'⟩ := pollLoop_goesOn (w := w) (budget := budget) (ms := ms) (timeout := timeout)
    (fun _ => hlook (by omega)) h hcnt hq (by omega) (budget - j + 1)
  rw [show j - 1 + (budget - j + 1) = budget by omega] at hloop
  exact ⟨u, hloop, hu, by omega, hcnt'⟩

/-- The looks of a wait in order, a sleep between two: all but the last have one after them. -/
theorem intercalate_replicate_append (sep a b : List BusAct) (k : Nat) :
    sep.intercalate (List.replicate k a ++ [b]) = (List.replicate k (a ++ sep)).flatten ++ b := by
  induction k with
  | zero => exact List.intercalate_singleton
  | succ k ih =>
    rw [List.replicate_succ, List.cons_append, List.intercalate_cons_of_ne_nil (by simp), ih, List.replicate_succ,
      List.flatten_cons, List.append_assoc, List.append_assoc, List.append_assoc]

theorem freeLooks_eq (cfg : Cfg) (n : SockIdx) (f : Half) (v x : Byte) (k : Nat) :
    freeLooks cfg n f (List.replicate k v ++ [x]) =
      (List.replicate k (freeLook cfg n f v ++ [.sleep freeIntervalMs])).flatten ++ freeLook cfg n f x := by
  rw [freeLooks, List.map_append, List.map_replicate]
  exact intercalate_replicate_append _ _ _ k

theorem sendOkLooks_eq (cfg : Cfg) (n : SockIdx) (ir v x : Byte) (k : Nat) :
    sendOkLooks cfg n ir (List.replicate k v ++ [x]) =
      (List.replicate k (sendOkLook cfg n ir v ++ [.sleep cfg.sendOkIntervalMs])).flatten ++ sendOkLook cfg n ir x := by
  rw [sendOkLooks, List.map_append, List.map_replicate]
  exact intercalate_replicate_append _ _ _ k

end looks

/-! The two waits -/

section waits

variable {n : SockIdx} {s t : State} {g : Nat} {acts : List BusAct} {q p : Socket} {v : Byte} {j : Nat}

/-- R255 step 3, R258: the error of a free-space wait whose budget is used up. -/
def freeTimeout (s : State) : Err := .sendWaitTimeout .freeSpace s.lat.sz.toNat

/-- R255 step 7, R259: the error of a send-ok wait whose budget is used up. -/
def sendOkTimeout (s : State) : Err := .sendWaitTimeout .sendOk s.lat.irv.toNat

/-- R255 step 3: the free-space wait at look `j`, after looks that show too little room in a status a Write may send in. -/
theorem Reached.waitFree_look (h : Reached n s g acts q t) (hs : SockAnswers s) (h1 : 1 ≤ j)
    (hj : j ≤ s.cfg.freeWaitMaxPolls) (hshort : j = 1 ∨ q.txFsr.toNat < t.lat.cnt) (hst : MaySend s.cfg q.sr)
    (hq : ∀ i, i < 2 * (j - 1) → gapAt s (g + i) = []) :
    ∃ u, waitFree n t =
        pollLoop (writeSteps 3) s.cfg.freeWaitMaxPolls freeIntervalMs freeTimeout (freePoll n)
          (s.cfg.freeWaitMaxPolls - j + 1) u ∧
      Reached n s (g + 2 * (j - 1)) (acts ++ (List.replicate (j - 1) (freeAgain s.cfg n q)).flatten) q u ∧
      u.lat.poll = j ∧ u.lat.cnt = t.lat.cnt := by
  obtain ⟨u, hloop, hu⟩ := wait_look (w := writeSteps 3) (ms := freeIntervalMs) (timeout := freeTimeout)
    (fun hj => goesOn_freePoll hs (hshort.resolve_left (by omega)) hst)
    ((h.goto .streamWrite 3).setLat { t.lat with poll := 1 }) rfl rfl h1 hj hq
  refine ⟨u, ?_, hu⟩
  rw [← hloop, ← h.cfg]
  rfl

/-- R255 step 3: look `j` shows room. -/
theorem Reached.waitFree_room (h : Reached n s g acts q t) (hs : SockAnswers s) (h1 : 1 ≤ j)
    (hj : j ≤ s.cfg.freeWaitMaxPolls) (hshort : j = 1 ∨ q.txFsr.toNat < t.lat.cnt) (hst : MaySend s.cfg q.sr)
    (hq : ∀ i, i < 2 * (j - 1) → gapAt s (g + i) = []) {f : Half}
    (hg : gapAt s (g + 2 * (j - 1)) = [] ∧ f = q.txFsr ∨ gapAt s (g + 2 * (j - 1)) = [.freeSize n f])
    (hroom : t.lat.cnt ≤ f.toNat) :
    ∃ u, waitFree n t = .ok () u ∧
      Reached n s (g + 2 * (j - 1) + 1)
        (acts ++ (List.replicate (j - 1) (freeAgain s.cfg n q)).flatten ++ [regRead s.cfg n .txFsr (halfBytes f)])
        { q with txFsr := f } u ∧
      u.lat.cnt = t.lat.cnt := by
  obtain ⟨u, hloop, hu, -, hcnt⟩ := h.waitFree_look hs h1 hj hshort hst hq
  obtain ⟨w, hrun, hw, hcnt'⟩ := hu.freeRoom hs hg (hcnt.trans_le hroom)
  exact ⟨w, hloop.trans (pollLoop_done hrun), hw, hcnt'.trans hcnt⟩

/-- R258, R337: look `j` shows too little room and the status `v`, which ends the wait, or the budget does. -/
theorem Reached.waitFree_short (h : Reached n s g acts q t) (hs : SockAnswers s) (h1 : 1 ≤ j)
    (hj : j ≤ s.cfg.freeWaitMaxPolls) (hshort : q.txFsr.toNat < t.lat.cnt) (hst : MaySend s.cfg q.sr)
    (hq : ∀ i, i < 2 * (j - 1) + 1 → gapAt s (g + i) = [])
    (hg : gapAt s (g + 2 * (j - 1) + 1) = [.status n v] ∨ gapAt s (g + 2 * (j - 1) + 1) = [] ∧ v = q.sr) :
    ∃ u, Reached n s (g + 2 * (j - 1) + 2)
        (acts ++ freeLooks s.cfg n q.txFsr (List.replicate (j - 1) q.sr ++ [v])) (withStatus v q) u ∧
      (¬MaySend s.cfg v → waitFree n t = .err .endOfStream u) ∧
      (MaySend s.cfg v → j = s.cfg.freeWaitMaxPolls →
        waitFree n t = .err (.sendWaitTimeout .freeSpace q.txFsr.toNat) (u.setSeq (writeSteps 3).test)) := by
  obtain ⟨u, hloop, hu, hpoll, hcnt⟩ := h.waitFree_look hs h1 hj (.inr hshort) hst fun i hi => hq i (by omega)
  obtain ⟨w, hrun, hw, hpoll', -, hsz⟩ := hu.freeShort hs (hq _ (Nat.lt_succ_self _)) (by omega) hg
  refine ⟨w, ?_, fun hv => ?_, fun hv hlast => ?_⟩
  · rw [freeLooks_eq, ← List.append_assoc]
    exact hw
  · rw [if_neg (mt maySend_iff.mp hv)] at hrun
    exact hloop.trans (pollLoop_err hrun)
  · rw [if_pos (maySend_iff.mpr hv)] at hrun
    rw [hloop, pollLoop_spent hrun (by omega), freeTimeout, hsz]

/-- R255 step 7: the send-ok wait at look `k`, after looks that show bit 4 clear and a status that is not CLOSED. -/
theorem Reached.waitSendOk_look (h : Reached n s g acts q t) (hs : SockAnswers s) (h1 : 1 ≤ j)
    (hj : j ≤ s.cfg.sendOkMaxPolls) (hclear : j = 1 ∨ q.ir.getLsbD 4 = false) (hst : q.sr ≠ s.cfg.status.closed)
    (hq : ∀ i, i < 2 * (j - 1) → gapAt s (g + i) = []) :
    ∃ u, waitSendOk n t =
        pollLoop (writeSteps 7) s.cfg.sendOkMaxPolls s.cfg.sendOkIntervalMs sendOkTimeout (sendOkPoll n)
          (s.cfg.sendOkMaxPolls - j + 1) u ∧
      Reached n s (g + 2 * (j - 1)) (acts ++ (List.replicate (j - 1) (sendOkAgain s.cfg n q)).flatten) q u ∧
      u.lat.poll = j ∧ u.lat.cnt = t.lat.cnt := by
  obtain ⟨u, hloop, hu⟩ := wait_look (w := writeSteps 7) (ms := s.cfg.sendOkIntervalMs) (timeout := sendOkTimeout)
    (fun hj => goesOn_sendOkPoll hs (hclear.resolve_left (by omega)) hst)
    ((h.goto .streamWrite 7).setLat { t.lat with poll := 1 }) rfl rfl h1 hj hq
  refine ⟨u, ?_, hu⟩
  rw [← hloop, ← h.cfg]
  rfl

/-- R259, R337: look `j` shows bit 4 clear and the status `v`, which ends the wait, or the budget does. -/
theorem Reached.waitSendOk_clear (h : Reached n s g acts q t) (hs : SockAnswers s) (h1 : 1 ≤ j)
    (hj : j ≤ s.cfg.sendOkMaxPolls) (hclear : q.ir.getLsbD 4 = false) (hst : q.sr ≠ s.cfg.status.closed)
    (hq : ∀ i, i < 2 * (j - 1) + 1 → gapAt s (g + i) = [])
    (hg : gapAt s (g + 2 * (j - 1) + 1) = [.status n v] ∨ gapAt s (g + 2 * (j - 1) + 1) = [] ∧ v = q.sr) :
    ∃ u, Reached n s (g + 2 * (j - 1) + 2)
        (acts ++ sendOkLooks s.cfg n q.ir (List.replicate (j - 1) q.sr ++ [v])) (withStatus v q) u ∧
      (v = s.cfg.status.closed → waitSendOk n t = .err .socketClosedDuringWrite u) ∧
      (v ≠ s.cfg.status.closed → j = s.cfg.sendOkMaxPolls →
        waitSendOk n t = .err (.sendWaitTimeout .sendOk q.ir.toNat) (u.setSeq (writeSteps 7).test)) := by
  obtain ⟨u, hloop, hu, hpoll, hcnt⟩ := h.waitSendOk_look hs h1 hj (.inr hclear) hst fun i hi => hq i (by omega)
  obtain ⟨w, hrun, hw, hpoll', -, hirv⟩ := hu.sendOkClear hs (hq _ (Nat.lt_succ_self _)) hclear hg
  refine ⟨w, ?_, fun hv => ?_, fun hv hlast => ?_⟩
  · rw [sendOkLooks_eq, ← List.append_assoc]
    exact hw
  · rw [if_pos hv] at hrun
    exact hloop.trans (pollLoop_err hrun)
  · rw [if_neg hv] at hrun
    rw [hloop, pollLoop_spent hrun (by omega), sendOkTimeout, hirv]

end waits

/-! The payload in the transmit buffer -/

/-- R95, R99: the cells of a transmit buffer after bytes are stored from an offset on. -/
def storeTx (c : Cfg) (n : SockIdx) : Half → List Byte → List Host.Cell → List Host.Cell
  | _, [], m => m
  | off, v :: rest, m =>
    storeTx c n (off + 1) rest (Memory.write (memKey (txBlk n) (bufCell c (c.chipTx.get n) off)) v m)

theorem storeBytes_tx (n : SockIdx) (off : Half) (d : List Byte) (s : State) :
    storeBytes (txBlk n) off d s = modMem (storeTx s.cfg n off d) s := by
  induction d generalizing off s with
  | nil => rfl
  | cons v rest ih =>
    rw [storeBytes, target_tx, ih]
    rfl

/-- A write frame to a transmit buffer changes its cells and nothing else: every address of the block is one. -/
theorem storeFrame_tx (n : SockIdx) (off : Half) (d : List Byte) (s : State) :
    storeFrame (txBlk n) off d s = modMem (storeTx s.cfg n off d) s := by
  have hnamed := touchesUnnamed_false (c := s.cfg) (blk := txBlk n) (off := off) (n := d.length) (i := 0)
    fun i _ => by rw [target_tx]; exact Target.noConfusion
  rw [off_zero] at hnamed
  rw [storeFrame, hnamed, ← storeBytes_tx]
  rfl

/-- R255 step 4: the state with the payload in the transmit buffer of the handle's socket. -/
def placed (s : State) (hd : Handle) (data : List Byte) : State :=
  modMem (storeTx s.cfg hd.n (txAddr hd.n hd.sTx (bank s hd.n).txWr) data) s

section payload

variable {s t : State} {hd : Handle} {data : List Byte} {g : Nat} {acts : List BusAct} {q : Socket}

theorem memOk_placed (h : memOk s) : memOk (placed s hd data) := by
  rw [placed, ← storeFrame_tx]
  exact memOk_storeFrame h

theorem stored_placed (h : memOk s)
    (hp : PlainWrite s.cfg (txBlk hd.n) (txAddr hd.n hd.sTx (bank s hd.n).txWr) data.length) :
    Stored s (placed s hd data) (txBlk hd.n) (txAddr hd.n hd.sTx (bank s hd.n).txWr) data :=
  storeFrame_plain h hp rfl (by rw [storeFrame_tx, placed])

theorem SockAnswers.placed (hs : SockAnswers s) : SockAnswers (placed s hd data) :=
  ⟨⟨hs.configured, hs.noFault, hs.chipAnswers⟩, hs.disjoint⟩

theorem ran_of_placed (h : Ran g (placed s hd data) t) : Ran g s t :=
  ⟨h.cfg, h.bus, h.handles, h.requests, h.result, h.dest, h.transfers, h.gaps, h.missed, h.clock⟩

/-- R310: the end of a Write whose payload is in the buffer. -/
theorem Reached.endedPlaced (h : Reached hd.n (Proofs.placed s hd data) g acts q t) (hg : 0 < g) (r : OpResult) :
    Ended s (complete r t) r :=
  ended_of (ran_of_placed h.toRan) (h.cs.resolve_right fun hzero => by omega) r

/-- R262: the frame that stores the payload. -/
theorem Reached.storePayload (h : Reached hd.n s g acts q t) (hs : SockAnswers s) (hq : gapAt s g = [])
    (hptr : q.txWr = (Safety.bank s hd.n).txWr) :
    ∃ u, memWrite (txBlk hd.n) (txAddr hd.n hd.sTx q.txWr) data t = .ok () u ∧
      Reached hd.n (placed s hd data) (g + 1)
        (acts ++ [writeFrame (txBlk hd.n) (txAddr hd.n hd.sTx q.txWr) data]) q u := by
  obtain ⟨u, hrun, hframe, hchip⟩ :=
    memWrite_run (hs.after h.toRan).toClean (txBlk hd.n) (txAddr hd.n hd.sTx q.txWr) data
  have htime := punctual_memWrite (txBlk hd.n) (txAddr hd.n hd.sTx q.txWr) data t
  rw [hrun] at htime
  have hran := h.toRan.trans hframe.toRan
  rw [storeFrame_tx, modMem, h.quietTurn hq, chipTurn_cfg, h.cfg, hptr] at hchip
  refine ⟨u, hrun, ⟨hran.cfg, hran.bus, hran.handles, hran.requests, hran.result, hran.dest, hran.transfers, hran.gaps,
    hran.missed, hran.clock⟩, ?_, hchip, .inl hframe.cs, fun hno => ?_, h.punctual.trans htime⟩
  · rw [hframe.out, h.out, List.reverse_append]
    rfl
  · exact hframe.draws.trans (h.rand fun v hv => hno v (List.mem_append_left _ hv))

/-- R255 steps 4 and 5: what Write does at the boundary to place the payload, in order; `q` is the bank before it. -/
def placeTrace (c : Cfg) (hd : Handle) (q : Socket) (data : List Byte) : List BusAct :=
  [regRead c hd.n .txWr (halfBytes q.txWr), writeFrame (txBlk hd.n) (txAddr hd.n hd.sTx q.txWr) data,
    regWrite c hd.n .txWr (halfBytes (q.txWr + BitVec.ofNat 16 data.length))]

theorem storeSockFrom_txWr (n : SockIdx) (v : Half) (s : State) :
    storeSockFrom n .txWr 0 (halfBytes v) s = modSock n (fun q => { q with txWr := v }) s := by
  simp only [halfBytes, storeSockFrom, storeSock, modSock_modSock, setSockByte, Nat.zero_add, setHalfByteAt_both]

/-- R255 steps 4 and 5: a Write with its length latched places the payload and advances the pointer. -/
theorem Reached.placePayload (h : Reached hd.n s g acts q t) (hs : SockAnswers s)
    (hq : ∀ i, i < 3 → gapAt s (g + i) = []) (hptr : q.txWr = (Safety.bank s hd.n).txWr)
    (hcnt : t.lat.cnt = data.length) :
    ∃ u, placePayload hd data t = .ok () u ∧
      Reached hd.n (placed s hd data) (g + 3) (acts ++ placeTrace s.cfg hd q data)
        { q with txWr := q.txWr + BitVec.ofNat 16 data.length } u ∧
      u.lat.cnt = data.length := by
  have h := h.goto .streamWrite 4
  obtain ⟨u, hdr, hread, hu, hlat⟩ := h.read16Turn hs (h.quietTurn (hq 0 (by omega))) (r := .txWr) rfl fun _ => rfl
  have hcntU : u.lat.cnt = data.length := by rw [hlat]; exact hcnt
  have hu := (hu.setLat { u.lat with ptr := q.txWr }).setLat
    { u.lat with ptr := q.txWr, addr := txAddr hd.n hd.sTx q.txWr }
  obtain ⟨v, hwrite, hv⟩ := hu.storePayload hs (hq 1 (by omega)) hptr
  have hlat := sameLat_of_eq (sameLat_memWrite ..) hwrite
  have hcntV : v.lat.cnt = data.length := hlat.cnt.trans hcntU
  have hptrV : v.lat.ptr = q.txWr := sameLat_ptr hlat
  obtain ⟨w, hadv, hw⟩ := (hv.goto .streamWrite 5).write hs.placed (hq 2 (by omega))
    (storeSockFrom_txWr hd.n (v.lat.ptr + BitVec.ofNat 16 v.lat.cnt)) (Nat.le_refl 2)
  have hcntW : w.lat.cnt = data.length := (sameLat_of_eq (sameLat_memWrite ..) hadv).cnt.trans hcntV
  rw [hptrV, hcntV, List.append_assoc, List.append_assoc] at hw
  exact ⟨w, (andThen_of_ok hread).trans ((andThen_of_ok hwrite).trans hadv), hw, hcntW⟩

end payload

/-! A Write up to its send-ok wait -/

section write

variable {s : State} {hd : Handle} {data : List Byte} {f : Half} {j m : Nat}

/-- R255 steps 4 to 8: what a Write does once there is room. -/
def sendPayload (hd : Handle) (data : List Byte) (s : State) : Res (Nat × Option Err) :=
  (placePayload hd data s).andThen fun _ s =>
  (execProtocol hd.n cmdSend (goto .streamWrite 6 s)).andThen fun _ s =>
  (waitSendOk hd.n s).andThen fun _ s => .ok (s.lat.cnt, none) (goto .streamWrite 8 s)

/-- R255 steps 1 and 2: a payload that fits, in a status a Write may send in, comes to the free-space wait. -/
theorem streamWrite_waits (hs : SockAnswers s) (hfits : data.length ≤ hd.sTx.bytes) (hq : gapAt s 0 = [])
    (hst : MaySend s.cfg (bank s hd.n).sr) :
    ∃ t, streamWrite hd data s = ((waitFree hd.n t).andThen fun _ s => sendPayload hd data s) ∧
      Reached hd.n s 1 [regRead s.cfg hd.n .sr [(bank s hd.n).sr]] (bank s hd.n) t ∧ t.lat.cnt = data.length := by
  have hstart := (((Reached.start hd.n s).goto .streamWrite 1).setLat { s.lat with cnt := data.length }).goto .streamWrite 2
  obtain ⟨t, hdr, hread, ht, hlat⟩ := hstart.statusLatched hs (.inr ⟨hq, rfl⟩)
  have hsend : maySend t.cfg.status t.lat.st = true := by
    rw [ht.cfg, hlat]
    exact maySend_iff.mpr hst
  refine ⟨t, ?_, ht, by rw [hlat]; rfl⟩
  exact (if_neg (Nat.not_lt.mpr hfits)).trans ((andThen_of_ok hread).trans (if_pos hsend))

/-- R255 steps 1 to 6: the chip and the gaps let a Write of `data` find room at look `j`, the free size being `f` there, and
have its SEND taken before poll `m`. -/
structure SendTaken (s : State) (hd : Handle) (data : List Byte) (f : Half) (j m : Nat) : Prop extends SockAnswers s where
  fits : data.length ≤ hd.sTx.bytes
  status : MaySend s.cfg (bank s hd.n).sr
  lookPos : 1 ≤ j
  lookBudget : j ≤ s.cfg.freeWaitMaxPolls
  short : j = 1 ∨ (bank s hd.n).txFsr.toNat < data.length
  room : gapAt s (2 * j - 1) = [] ∧ f = (bank s hd.n).txFsr ∨ gapAt s (2 * j - 1) = [.freeSize hd.n f]
  enough : data.length ≤ f.toNat
  quiet : ∀ i, i < 2 * j + 3 → i ≠ 2 * j - 1 → gapAt s i = []
  pollPos : 1 ≤ m
  pollBudget : m ≤ 10
  accepts : Accepts s hd.n (2 * j + 3) m

/-- R255 steps 1 to 6: a Write comes to its send-ok wait. -/
theorem SendTaken.run (h : SendTaken s hd data f j m) :
    ∃ t, streamWrite hd data s =
        ((waitSendOk hd.n t).andThen fun _ s => .ok (s.lat.cnt, none) (goto .streamWrite 8 s)) ∧
      Reached hd.n (placed s hd data) (2 * j + 4 + m) (writeFrames s.cfg hd (bank s hd.n) data f j m)
        { written (bank s hd.n) data.length with txFsr := f } t ∧
      t.lat.cnt = data.length := by
  have hs := h.toSockAnswers
  have hj := h.lookPos
  obtain ⟨t, hstart, ht, hcnt⟩ := streamWrite_waits hs h.fits (h.quiet 0 (by omega) (by omega)) h.status
  have hlook : 1 + 2 * (j - 1) = 2 * j - 1 := by omega
  obtain ⟨u, hwait, hu, hcntU⟩ := ht.waitFree_room hs h.lookPos h.lookBudget (hcnt ▸ h.short) h.status
    (fun i hi => h.quiet _ (by omega) (by omega)) (by rw [hlook]; exact h.room) (hcnt.trans_le h.enough)
  rw [hlook, show 2 * j - 1 + 1 = 2 * j by omega] at hu
  obtain ⟨v, hplace, hv, hcntV⟩ := hu.placePayload (data := data) hs (fun i hi => h.quiet _ (by omega) (by omega)) rfl
    (hcntU.trans hcnt)
  obtain ⟨w, hcmd, hw⟩ := (hv.goto .streamWrite 6).command hs.placed (code := cmdSend) (by decide) h.pollPos h.pollBudget
    h.accepts
  have hcntW : w.lat.cnt = data.length := (sameLat_of_eq (sameLat_execProtocol ..) hcmd).cnt.trans hcntV
  refine ⟨w, ?_, ?_, hcntW⟩
  · exact hstart.trans ((andThen_of_ok hwait).trans ((andThen_of_ok hplace).trans (andThen_of_ok hcmd)))
  · rw [show 2 * j + 3 + (m + 1) = 2 * j + 4 + m by omega] at hw
    simp only [List.append_assoc] at hw
    simp only [writeFrames, List.append_assoc, List.cons_append]
    exact hw

/-- R259: a status a Write may send in is not CLOSED. -/
theorem maySend_ne_closed {c : Cfg} (hc : CfgOk c) {v : Byte} (h : MaySend c v) : v ≠ c.status.closed := by
  have hnodup := hc.status
  simp only [statusList, List.nodup_cons, List.mem_cons, not_or] at hnodup
  obtain ⟨⟨-, -, -, -, hest, -, -, -, hwait, -⟩, -⟩ := hnodup
  rcases h with rfl | rfl
  exacts [Ne.symm hest, Ne.symm hwait]

end write

/-! SEND on the chip's side -/

theorem fetchSent_length (k : Nat) (c : Cfg) (mem : List Host.Cell) (n : SockIdx) (p : Half) (count : Nat) :
    (fetchSent k c mem n p count).length = count := by
  induction count generalizing p with
  | zero => rfl
  | succ count ih => rw [fetchSent, List.length_cons, ih]

theorem fetchSent_eq {k : Nat} {c : Cfg} {mem : List Host.Cell} {n : SockIdx} {p : Half} {data : List Byte}
    (h : ∀ i (hi : i < data.length), sentByte k c mem n (p + BitVec.ofNat 16 i) = data[i]) :
    fetchSent k c mem n p data.length = data := by
  induction data generalizing p with
  | nil => rfl
  | cons v rest ih =>
    have hfirst := h 0 (Nat.succ_pos _)
    rw [off_zero] at hfirst
    rw [List.length_cons, fetchSent, hfirst]
    refine congrArg (v :: ·) (ih fun i hi => ?_)
    rw [add_right_comm, off_succ]
    exact h (i + 1) (Nat.succ_lt_succ hi)

/-- R99, R102: where the chip's buffer wraps with the handle's size, the chip sends a stream position from the cell that its
transmit address names. -/
theorem peek_txAddr {s : State} {n : SockIdx} {size : BufSize} (hwrap : s.cfg.bufAlias = .wrapS)
    (hsize : s.cfg.chipTx.get n = size.bytes) (k : Nat) (p : Half) :
    peek s (txBlk n) (txAddr n size p) = some (sentByte k s.cfg s.chip.mem n p) := by
  have hflat : ¬ (s.cfg.bufAlias = .flat ∧ s.cfg.chipTx.get n ≤ p.toNat) := fun h => by
    rw [hwrap] at h
    exact BufAlias.noConfusion h.1
  have hcell : bufCell s.cfg size.bytes (txAddr n size p) =
      bufCell s.cfg size.bytes (BitVec.ofNat 16 (p.toNat % size.bytes + n.val * size.bytes)) := by
    simp only [bufCell, hwrap]
    rw [txAddr, pointer_add_mod, BitVec.toNat_ofNat, Nat.mod_mod_of_dvd _ (bufSize_bytes_dvd size),
      Nat.add_mul_mod_self_right, Nat.mod_mod]
  rw [peek_eq, target_tx, sentByte, if_neg hflat, txFetchKey, hsize, hcell]
  rfl

/-- R282: a bank after the chip has sent the bytes `d` of its one command in progress, a SEND; `f` is the free size then. -/
def performed (q : Socket) (f : Half) (d : List Byte) : Socket :=
  { q with inProgress := [], ir := q.ir ||| irSendOk, txFsr := f, txRd := q.txWr, sent := q.sent ++ d }

/-- R282: SEND with data takes effect in a status it is paired with. -/
theorem actSend_chip {n : SockIdx} {s : State} (hst : MaySend s.cfg (bank s n).sr)
    (hdata : ((bank s n).txWr - (bank s n).txRd).toNat ≠ 0) :
    (actSend n s).chip = withBank s.chip n { bank s n with
      sent := (bank s n).sent ++ fetchSent s.free s.cfg s.chip.mem n (bank s n).txRd
        ((bank s n).txWr - (bank s n).txRd).toNat,
      txRd := (bank s n).txWr, txFsr := Config.freeHalf s.free 0, ir := (bank s n).ir ||| irSendOk } := by
  refine (congrArg (withBank s.chip n) (if_pos hst)).trans ?_
  rw [sendOkBits, if_neg hdata]
  rfl

theorem actCommand_send (n : SockIdx) (s : State) : actCommand n cmdSend s = actSend n s := rfl

theorem performCommand_of_cons {n : SockIdx} {s : State} {code : Byte} {rest : List Byte}
    (h : (bank s n).inProgress = code :: rest) :
    performCommand n s = actCommand n code (modSock n (fun q => { q with inProgress := rest }) s) := by
  rw [performCommand, show (s.chip.sock.get n).inProgress = _ from h]

/-- R276, R282: a gap in which the SEND in progress takes effect, with `count` bytes to send. -/
theorem chipTurn_perform {n : SockIdx} {s : State} (hg : gapAt s 0 = [.perform n])
    (hcmd : (bank s n).inProgress = [cmdSend]) (hst : MaySend s.cfg (bank s n).sr) {count : Nat}
    (hcount : ((bank s n).txWr - (bank s n).txRd).toNat = count) (hdata : count ≠ 0) :
    ∃ k f, (chipTurn s).chip =
      withBank s.chip n (performed (bank s n) f (fetchSent k s.cfg s.chip.mem n (bank s n).txRd count)) := by
  obtain ⟨u, hturn, hchip, hcfg⟩ : ∃ u, chipTurn s = actSend n u ∧
      u.chip = withBank s.chip n { bank s n with inProgress := [] } ∧ u.cfg = s.cfg := by
    refine ⟨modSock n (fun q => { q with inProgress := [] }) (s.setEnv { s.env with chip := s.env.chip.drop 1 }), ?_, rfl,
      rfl⟩
    rw [chipTurn_eq, hg, ← actCommand_send]
    exact performCommand_of_cons hcmd
  have hbank := bank_of_chip hchip
  have hsent := actSend_chip (n := n) (s := u) (by rw [hbank, hcfg]; exact hst) (by rw [hbank]; exact hcount.trans_ne hdata)
  rw [hbank, hchip, withBank_withBank, hcfg] at hsent
  refine ⟨u.free, Config.freeHalf u.free 0, ?_⟩
  rw [hturn, hsent, ← hcount]
  rfl

section performed

variable {s t : State} {hd : Handle} {data : List Byte} {f : Half} {g : Nat} {acts : List BusAct}

/-- R282, R102: the chip performs the SEND of a Write: it sends as many bytes as were written, and the payload itself where
its buffer wraps with the handle's size. -/
theorem Reached.sendTurn
    (h : Reached hd.n (placed s hd data) g acts { written (Safety.bank s hd.n) data.length with txFsr := f } t)
    (hm : memOk s)
    (hp : PlainWrite s.cfg (txBlk hd.n) (txAddr hd.n hd.sTx (Safety.bank s hd.n).txWr) data.length)
    (hst : MaySend s.cfg (Safety.bank s hd.n).sr) (hfits : data.length ≤ hd.sTx.bytes)
    (hg : gapAt s g = [.perform hd.n]) (hidle : (Safety.bank s hd.n).inProgress = []) (hdata : data ≠ [])
    (hptr : (Safety.bank s hd.n).txRd = (Safety.bank s hd.n).txWr) :
    ∃ f' d, (chipTurn t).chip = withBank (placed s hd data).chip hd.n
        (performed { written (Safety.bank s hd.n) data.length with txFsr := f } f' d) ∧
      d.length = data.length ∧ (s.cfg.bufAlias = .wrapS → s.cfg.chipTx.get hd.n = hd.sTx.bytes → d = data) := by
  have hbound : data.length < 65536 := by
    have : hd.sTx.bytes ≤ 16384 := by cases hd.sTx <;> decide
    omega
  have hbank := h.bank
  have hcmd : (Safety.bank t hd.n).inProgress = [cmdSend] := by
    rw [hbank]
    show (Safety.bank s hd.n).inProgress ++ [cmdSend] = _
    rw [hidle, List.nil_append]
  have hcount : ((Safety.bank t hd.n).txWr - (Safety.bank t hd.n).txRd).toNat = data.length := by
    rw [hbank]
    show ((Safety.bank s hd.n).txWr + _ - (Safety.bank s hd.n).txRd).toNat = _
    rw [hptr, off_add_sub _ hbound]
  obtain ⟨k, f', hturn⟩ := chipTurn_perform (by rw [h.toRan.gapAt]; exact hg) hcmd (by rw [hbank, h.cfg]; exact hst)
    hcount (mt List.eq_nil_of_length_eq_zero hdata)
  have hturn := h.bankTurn hturn
  rw [hbank, h.cfg, h.chip] at hturn
  refine ⟨f', _, hturn, fetchSent_length .., fun hwrap hsize => fetchSent_eq fun i hi => ?_⟩
  have hcell := (stored_placed hm hp).1 i hi
  rw [← txAddr_add, peek_txAddr (s := placed s hd data) hwrap hsize k] at hcell
  have hcell := Option.some.inj hcell
  rw [← hptr] at hcell
  exact hcell

/-- R259, R373, R282: the bank `q` at the look that shows bit 4: as the Write left it where the gap before that look is
quiet, else as the chip's SEND has made it. -/
structure FlagShown (s : State) (hd : Handle) (data : List Byte) (f : Half) (gap : List ChipEvent) (q : Socket) :
    Prop where
  bit : q.ir.getLsbD 4 = true
  stale : gap = [] → q = { written (bank s hd.n) data.length with txFsr := f }
  sent : gap = [.perform hd.n] → ∃ f' d,
    q = performed { written (bank s hd.n) data.length with txFsr := f } f' d ∧ d.length = data.length ∧
      (s.cfg.bufAlias = .wrapS → s.cfg.chipTx.get hd.n = hd.sTx.bytes → d = data)

/-- The gap before the look that shows bit 4: the bit is left set from before, or the chip performs SEND. -/
theorem Reached.flagTurn
    (h : Reached hd.n (placed s hd data) g acts { written (Safety.bank s hd.n) data.length with txFsr := f } t)
    (hm : memOk s)
    (hp : PlainWrite s.cfg (txBlk hd.n) (txAddr hd.n hd.sTx (Safety.bank s hd.n).txWr) data.length)
    (hst : MaySend s.cfg (Safety.bank s hd.n).sr) (hfits : data.length ≤ hd.sTx.bytes)
    (hg : gapAt s g = [] ∧ (Safety.bank s hd.n).ir.getLsbD 4 = true ∨
      gapAt s g = [.perform hd.n] ∧ (Safety.bank s hd.n).inProgress = [] ∧ data ≠ [] ∧
        (Safety.bank s hd.n).txRd = (Safety.bank s hd.n).txWr) :
    ∃ q, (chipTurn t).chip = withBank (placed s hd data).chip hd.n q ∧ FlagShown s hd data f (gapAt s g) q := by
  rcases hg with ⟨hg, hbit⟩ | ⟨hg, hidle, hdata, hptr⟩
  · exact ⟨_, h.quietTurn hg, hbit, fun _ => rfl, fun e => absurd (e.symm.trans hg) (List.cons_ne_nil _ _)⟩
  · obtain ⟨f', d, hturn, hlen, hsame⟩ := h.sendTurn hm hp hst hfits hg hidle hdata hptr
    have hbit : ((Safety.bank s hd.n).ir ||| irSendOk).getLsbD 4 = true := by
      rw [BitVec.getLsbD_or]
      exact Bool.or_true _
    exact ⟨_, hturn, hbit, fun e => absurd (hg.symm.trans e) (List.cons_ne_nil _ _),
      fun _ => ⟨f', d, rfl, hlen, hsame⟩⟩

end performed

/-! The ends of Write -/

theorem exec_sockWrite_err {s t : State} {h : Half} {hd : Handle} {data : List Byte} {e : Err}
    (hh : handleOf s h = some hd) (hrun : streamWrite hd data s = .err e t) :
    exec (.sockWrite h data) s = .next (complete (.stream 0 (some e)) t) := by
  rw [exec_sockWrite hh, hrun]
  rfl

theorem andThen_of_err {α β : Type} {r : Res α} {f : α → State → Res β} {e : Err} {t : State} (h : r = .err e t) :
    r.andThen f = .err e t := by
  rw [h, Res.andThen_err]

/-- Settles O49: the looks of the two waits, the payload and SEND between them, and the gap that shows bit 4. -/
theorem writeSends : Obligations.WriteSends := by
  intro s h hd data f j m k hs hcfg hm hh hfits hst hj1 hj hshort hroom henough hquiet hplain hm1 hm10 ha hk1 hk hquiet'
    hflags
  have hsend : SendTaken s hd data f j m :=
    ⟨⟨hs, hcfg.sock⟩, hfits, hst, hj1, hj, hshort, hroom, henough, hquiet, hm1, hm10, ha⟩
  obtain ⟨t, hrun, ht, hcnt⟩ := hsend.run
  have hclear : k = 1 ∨ (bank s hd.n).ir.getLsbD 4 = false := by
    rcases hflags with ⟨hk, -⟩ | ⟨hk, -⟩
    exacts [.inl hk, hk]
  obtain ⟨u, hloop, hu, -, hcntU⟩ :=
    ht.waitSendOk_look hsend.toSockAnswers.placed hk1 hk hclear (maySend_ne_closed hcfg hst) hquiet'
  obtain ⟨q, hturn, hset, hstale, hsent⟩ := hu.flagTurn hm hplain hst hfits (by
    rcases hflags with ⟨rfl, hg, hbit⟩ | ⟨-, hg⟩
    exacts [.inl ⟨hg, hbit⟩, .inr hg])
  obtain ⟨w, hlook, hw, hcntW⟩ := hu.sendOkShown hsend.toSockAnswers.placed hturn hset
  have hwrite := hrun.trans (andThen_of_ok (hloop.trans (pollLoop_done hlook)))
  rw [hcntW.trans (hcntU.trans hcnt)] at hwrite
  refine ⟨complete (.stream data.length none) (goto .streamWrite 8 w), (placed s hd data).chip.mem, q, ?_,
    (hw.goto .streamWrite 8).endedPlaced (by omega) _, hw.chip, memOk_placed hm, stored_placed hm hplain, hstale,
    fun hg => ?_, hw.out⟩
  · rw [exec_sockWrite hh, hwrite]
    rfl
  · obtain ⟨f', d, rfl, hlen, hsame⟩ := hsent hg
    exact ⟨rfl, d, rfl, hlen, hsame⟩

/-- Settles O51: the last look of each wait, after looks that go on. -/
theorem writeWaitsEnd : Obligations.WriteWaitsEnd := by
  intro s h hd data hs hcfg hh hfits hst
  have hs : SockAnswers s := ⟨hs, hcfg.sock⟩
  have hopen := maySend_ne_closed hcfg hst
  have hfree := hcfg.freeBudget
  have hsendOk := hcfg.sendOkBudget
  refine ⟨fun hshort => ⟨fun hq => ?_, fun j v hj1 hj hq hg hv => ?_⟩,
    fun m henough hm hplain hq h1 h10 ha hclear => ?_⟩
  · obtain ⟨t, hrun, ht, hcnt⟩ := streamWrite_waits hs hfits (hq 0 (by omega)) hst
    obtain ⟨u, hu, -, hspent⟩ := ht.waitFree_short hs hfree (Nat.le_refl _) (hcnt ▸ hshort) hst
      (fun i hi => hq _ (by omega)) (.inr ⟨hq (1 + 2 * (s.cfg.freeWaitMaxPolls - 1) + 1) (by omega), rfl⟩)
    have hu := hu.inside (writeSteps 3).test u.lat
    rw [← List.replicate_succ', Nat.sub_add_cancel hfree] at hu
    exact ⟨_, exec_sockWrite_err hh (hrun.trans (andThen_of_err (hspent hst rfl))), hu.ended (by omega) _,
      hu.chip.trans (withBank_self s.chip hd.n), hu.out⟩
  · obtain ⟨t, hrun, ht, hcnt⟩ := streamWrite_waits hs hfits (hq 0 (by omega)) hst
    obtain ⟨u, hu, hgone, -⟩ := ht.waitFree_short hs hj1 hj (hcnt ▸ hshort) hst (fun i hi => hq _ (by omega))
      (.inl (by rw [show 1 + 2 * (j - 1) + 1 = 2 * j by omega]; exact hg))
    exact ⟨_, exec_sockWrite_err hh (hrun.trans (andThen_of_err (hgone hv))), hu.ended (by omega) _, hu.chip, hu.out⟩
  have hsend : SendTaken s hd data (bank s hd.n).txFsr 1 m :=
    ⟨hs, hfits, hst, Nat.le_refl 1, hfree, .inl rfl, .inl ⟨hq 1 (by omega), rfl⟩, henough,
      fun i hi _ => hq i (by omega), h1, h10, ha⟩
  obtain ⟨t, hrun, ht, -⟩ := hsend.run
  refine ⟨fun hq' => ?_, fun j hj1 hj hq' hg => ?_⟩
  · obtain ⟨u, hu, -, hspent⟩ := ht.waitSendOk_clear hs.placed hsendOk (Nat.le_refl _) hclear hopen
      (fun i hi => hq' _ (by omega)) (.inr ⟨hq' (2 * (s.cfg.sendOkMaxPolls - 1) + 1) (by omega), rfl⟩)
    have hu := hu.inside (writeSteps 7).test u.lat
    rw [← List.replicate_succ', Nat.sub_add_cancel hsendOk] at hu
    exact ⟨_, (placed s hd data).chip.mem, exec_sockWrite_err hh (hrun.trans (andThen_of_err (hspent hopen rfl))),
      hu.endedPlaced (by omega) _, hu.chip, stored_placed hm hplain, hu.out⟩
  · obtain ⟨u, hu, hgone, -⟩ := ht.waitSendOk_clear hs.placed hj1 hj hclear hopen (fun i hi => hq' _ (by omega))
      (.inl (by rw [show 2 * 1 + 4 + m + 2 * (j - 1) + 1 = 6 + m + (2 * j - 1) by omega]; exact hg))
    exact ⟨_, (placed s hd data).chip.mem, exec_sockWrite_err hh (hrun.trans (andThen_of_err (hgone rfl))),
      hu.endedPlaced (by omega) _, hu.chip, stored_placed hm hplain, hu.out⟩

end Sys2Proof.Proofs
end

section
/-! PROOFS. The statements of 45_chip_commands.md: a command byte given as an instruction is taken first and then changes
the bank of its socket, at once or when it is performed; bytes that arrive go to the cells that the receive addresses
name; with no request the block waits. -/

namespace Sys2Proof.Proofs

open Sys2Proof.Machine Sys2Proof.Safety

/-! The block waits -/

/-- Settles O6: the step is the chip's turn. -/
theorem stepWaits : Obligations.StepWaits := by
  intro s hidle hnone
  obtain ⟨c, k, hturn⟩ := chipOnly_chipTurn s
  refine ⟨c, k, ?_⟩
  rw [step, hidle, hnone]
  exact congrArg Host.Outcome.next hturn

/-! A command byte is taken -/

theorem useDefer_cfg (s : State) : (useDefer s).cfg = s.cfg := by rw [useDefer_eq]; rfl

/-- R276: a command byte whose action does not come later acts on the bank that has taken it. -/
theorem runCommand_now {s : State} (hd : deferred s = false) (n : SockIdx) (code : Byte) (act : State → State) :
    runCommand n code act s = act ((useDefer s).setChip (withBank s.chip n (cleared (bank s n)))) := by
  rw [runCommand, hd, useDefer_eq]
  rfl

/-- R276: a command byte whose action comes later is put in progress. -/
theorem runCommand_deferred {s : State} (hd : deferred s = true) (n : SockIdx) (code : Byte) (act : State → State) :
    runCommand n code act s = (useDefer s).setChip (withBank s.chip n (taken (bank s n) code)) := by
  rw [runCommand, hd, if_pos rfl, startCommand, takeCommand, modSock_modSock, useDefer_eq]
  rfl

/-- R276: an action that only changes the bank of its socket, to one that `R` describes, does so from the bank that has
taken the command. -/
theorem exec_command_now {s : State} (hd : deferred s = false) {n : SockIdx} {i : Instr} {code : Byte}
    {act : State → State} (hi : exec i s = .next (runCommand n code act s)) {R : Socket → Prop}
    (hact : ∀ u : State, u.cfg = s.cfg → u.chip.mem = s.chip.mem → u.chip.sock.get n = cleared (bank s n) →
      ∃ q k, act u = (u.setChip (withBank u.chip n q)).setFree k ∧ R q) :
    ∃ t q, exec i s = .next t ∧ t = ((useDefer s).setChip (withBank s.chip n q)).setFree t.free ∧ R q := by
  obtain ⟨q, k, hq, hR⟩ := hact ((useDefer s).setChip (withBank s.chip n (cleared (bank s n)))) (useDefer_cfg s) rfl
    (bank_withBank ..)
  refine ⟨_, q, hi, ?_, hR⟩
  rw [runCommand_now hd, hq, State.setChip_chip, withBank_withBank]
  rfl

/-! The actions that change the status -/

/-- Settles O52, by whether the socket was closed. -/
theorem openCommand : Obligations.OpenCommand := by
  intro s n hd
  refine exec_command_now hd rfl fun u hcfg _ hbank => ⟨_, _, rfl, ?_⟩
  beta_reduce
  rw [hcfg, hbank]
  by_cases hclosed : (cleared (bank s n)).sr = s.cfg.status.closed
  · rw [if_pos hclosed]
    refine ⟨rfl, fun _ => ⟨rfl, fun htcp => if_pos htcp, fun hudp => ?_⟩⟩
    exact (if_neg (show (bank s n).mr ≠ modeTcp by rw [hudp]; decide)).trans (if_pos hudp)
  · rw [if_neg hclosed]
    exact ⟨rfl, fun h => absurd h hclosed⟩

/-- R278, R279, U20: a command paired with the status `v` gives `st` there; elsewhere status and flags are free. -/
theorem paired_frame (k : Nat) (q : Socket) (v st : Byte) {p : Socket}
    (hp : p = if q.sr = v then { q with sr := st } else unpaired k q) :
    p = { q with sr := p.sr, ir := p.ir } ∧ (q.sr = v → p.sr = st ∧ p.ir = q.ir) := by
  by_cases h : q.sr = v
  · rw [if_pos h] at hp
    subst hp
    exact ⟨rfl, fun _ => ⟨rfl, rfl⟩⟩
  · rw [if_neg h] at hp
    subst hp
    exact ⟨rfl, fun hv => absurd hv h⟩

/-- Settles O53: both commands are paired with INIT. -/
theorem listenConnectCommands : Obligations.ListenConnectCommands := by
  intro s n i st hd hi
  rcases hi with ⟨rfl, rfl⟩ | ⟨rfl, rfl⟩
  all_goals
    refine exec_command_now hd rfl fun u hcfg _ hbank => ⟨_, _, rfl, ?_⟩
    rw [hcfg, hbank]
    exact paired_frame u.free (cleared (bank s n)) s.cfg.status.init _ rfl

theorem modSock_setChip_withBank (n : SockIdx) (f : Socket → Socket) (c : Chip) (q : Socket) (s : State) :
    modSock n f (s.setChip (withBank c n q)) = s.setChip (withBank c n (f q)) := by
  show s.setChip (withBank (withBank c n q) n (f ((withBank c n q).sock.get n))) = _
  rw [bank_withBank, withBank_withBank]

/-- R281: CLOSE at once, from any status. -/
theorem exec_sncrClose {s : State} (hd : deferred s = false) (n : SockIdx) :
    exec (.sncrClose n) s = .next ((useDefer s).setChip
      (withBank s.chip n { cleared (bank s n) with sr := s.cfg.status.closed })) := by
  show Host.Outcome.next (runCommand n cmdClose (actClose n) s) = _
  rw [runCommand_now hd, actClose, modSock_setChip_withBank, State.setChip_cfg, useDefer_cfg]

/-- Settles O54: each changes the status alone, DISCON to a drawn one. -/
theorem closeDisconCommands : Obligations.CloseDisconCommands := by
  intro s n hd
  refine ⟨exec_sncrClose hd n, ?_⟩
  obtain ⟨t, q, ht, hq, st, rfl⟩ := exec_command_now hd (i := .sncrDiscon n) rfl
    (R := fun q => ∃ st, q = { cleared (bank s n) with sr := st })
    fun u _ _ hbank => ⟨_, _, rfl, _, by rw [hbank]⟩
  exact ⟨t, st, ht, hq⟩

/-! RECV -/

/-- Settles O57: what is consumed fits the received size or does not. -/
theorem recvCommand : Obligations.RecvCommand := by
  intro s n hd
  refine exec_command_now hd rfl fun u _ _ hbank => ⟨_, _, rfl, ?_⟩
  rw [hbank]
  exact ⟨rfl, fun hfits => if_pos hfits⟩

/-! SEND -/

/-- R282, U12: send-ok of a SEND of the bytes `d`. -/
theorem sendOk_of_sent (k : Nat) (ir : Byte) (d : List Byte) :
    (d ≠ [] → setFlags ir (sendOkBits k d.length) = ir ||| 0x10#8) ∧
      (d = [] → setFlags ir (sendOkBits k d.length) = ir ∨ setFlags ir (sendOkBits k d.length) = ir ||| 0x10#8) := by
  refine ⟨fun hdata => ?_, fun hnone => ?_⟩
  · rw [sendOkBits, if_neg (mt List.eq_nil_of_length_eq_zero hdata)]
    rfl
  · rw [hnone, sendOkBits, if_pos List.length_nil]
    cases Config.freeBool k 0
    · exact .inl (BitVec.or_zero ..)
    · exact .inr rfl

/-- R282: SEND in a status it is paired with; `k` is the counter of free values, `f` the free size then. -/
theorem sncrSend_connected {s : State} (hd : deferred s = false) {n : SockIdx} (hst : MaySend s.cfg (bank s n).sr) :
    ∃ t q, exec (.sncrSend n) s = .next t ∧ t = ((useDefer s).setChip (withBank s.chip n q)).setFree t.free ∧
      ∃ k f d, d = fetchSent k s.cfg s.chip.mem n (bank s n).txRd ((bank s n).txWr - (bank s n).txRd).toNat ∧
        q = { cleared (bank s n) with
          ir := setFlags (bank s n).ir (sendOkBits k d.length), txRd := (bank s n).txWr, txFsr := f,
          sent := (bank s n).sent ++ d } := by
  refine exec_command_now hd rfl fun u hcfg hmem hbank => ⟨_, _, rfl, u.free, Config.freeHalf u.free 0, _, rfl, ?_⟩
  have hst : (cleared (bank s n)).sr = s.cfg.status.established ∨ (cleared (bank s n)).sr = s.cfg.status.closeWait := hst
  beta_reduce
  rw [hcfg, hmem, hbank, if_pos hst, fetchSent_length]
  rfl

/-- R282, U20: SEND in a status it is not paired with. -/
theorem sncrSend_unpaired {s : State} (hd : deferred s = false) {n : SockIdx} (hst : ¬ MaySend s.cfg (bank s n).sr) :
    ∃ t q, exec (.sncrSend n) s = .next t ∧ t = ((useDefer s).setChip (withBank s.chip n q)).setFree t.free ∧
      ∃ d, q = { cleared (bank s n) with
        sr := q.sr, ir := q.ir, txRd := q.txRd, txFsr := q.txFsr, sent := (bank s n).sent ++ d } := by
  have hst : ¬ ((cleared (bank s n)).sr = s.cfg.status.established ∨
    (cleared (bank s n)).sr = s.cfg.status.closeWait) := hst
  refine exec_command_now hd rfl fun u hcfg _ hbank => ⟨_, _, rfl, Config.freeBytes u.free 0, ?_⟩
  beta_reduce
  rw [hcfg, hbank, if_neg hst]
  rfl

/-- Settles O55: the bytes fetched are those at the transmit addresses. -/
theorem sendCommand : Obligations.SendCommand := by
  intro s n size data hd hst hwrap hsize hlen hdata
  obtain ⟨t, _, ht, htq, k, f, d, hfetch, rfl⟩ := sncrSend_connected hd hst
  have hsent : d = data := by
    rw [hfetch, ← hlen]
    refine fetchSent_eq fun i hi => Option.some.inj ?_
    rw [← peek_txAddr hwrap hsize, txAddr_add]
    exact hdata i hi
  subst hsent
  obtain ⟨hsome, hnone⟩ := sendOk_of_sent k (bank s n).ir d
  exact ⟨t, _, ht, htq, rfl, hsome, hnone⟩

/-- R282: byte `i` of what SEND takes is that of position `i` from the read pointer on. -/
theorem fetchSent_getElem {k : Nat} {c : Cfg} {mem : List Host.Cell} {n : SockIdx} {p : Half} {count i : Nat}
    (h : i < (fetchSent k c mem n p count).length) :
    (fetchSent k c mem n p count)[i] = sentByte k c mem n (p + BitVec.ofNat 16 i) := by
  induction count generalizing p i with
  | zero => exact absurd h (Nat.not_lt_zero i)
  | succ count ih =>
    cases i with
    | zero => exact congrArg (sentByte k c mem n) (off_zero p).symm
    | succ i =>
      refine (ih (Nat.lt_of_succ_lt_succ h)).trans ?_
      rw [add_right_comm, off_succ]

/-- R99, U13: a chip that does not wrap sends a position of its window from the cell at that offset of the window. -/
theorem peek_txWindow {s : State} {n : SockIdx} (hflat : s.cfg.bufAlias = .flat) {p : Half}
    (hp : p.toNat < s.cfg.chipTx.get n) (k : Nat) :
    peek s (txBlk n) (p + BitVec.ofNat 16 (n.val * s.cfg.chipTx.get n)) =
      some (sentByte k s.cfg s.chip.mem n p) := by
  rw [peek_eq, target_tx, sentByte, if_neg (fun h => Nat.not_le_of_lt hp h.2), txFetchKey, bufCell, bufCell, hflat,
    Nat.mod_eq_of_lt hp, BitVec.ofNat_add, BitVec.ofNat_toNat, BitVec.setWidth_eq]
  rfl

/-- Settles O56, by whether SEND is paired with the status. -/
theorem sendCommandCompletes : Obligations.SendCommandCompletes := by
  intro s n hd
  by_cases hst : MaySend s.cfg (bank s n).sr
  · obtain ⟨t, _, ht, htq, k, f, d, rfl, rfl⟩ := sncrSend_connected hd hst
    obtain ⟨hsome, hnone⟩ := sendOk_of_sent k (bank s n).ir _
    refine ⟨t, _, _, ht, htq, rfl, fun _ => ⟨rfl, rfl, fetchSent_length .., hsome, hnone, fun hflat hfits i hi => ?_⟩⟩
    have hp : ((bank s n).txRd + BitVec.ofNat 16 i).toNat < s.cfg.chipTx.get n := by
      have hle : ((bank s n).txRd + BitVec.ofNat 16 i).toNat ≤ (bank s n).txRd.toNat + i := by
        rw [BitVec.toNat_add, BitVec.toNat_ofNat, Nat.add_mod_mod]
        exact Nat.mod_le ..
      omega
    rw [add_right_comm, peek_txWindow hflat hp k, fetchSent_getElem]
  · obtain ⟨t, q, ht, htq, d, hq⟩ := sncrSend_unpaired hd hst
    exact ⟨t, q, d, ht, htq, hq, fun h => absurd h hst⟩

/-! A command in progress -/

/-- R276: a command byte given where none waits to be taken and no choice of deferral is left is its action. -/
theorem runCommand_of_cleared {s : State} {n : SockIdx} {q : Socket} (hbank : bank s n = q) (hclear : q = cleared q)
    (henv : s.env.defer = []) (code : Byte) (act : State → State) : runCommand n code act s = act s := by
  rw [runCommand_now (by rw [deferred, henv]), useDefer, henv, hbank, ← hclear, ← hbank, withBank_self]
  rfl

/-- Settles O59: deferred or not, the action is `actCommand` of the command's code. -/
theorem performIsTheCommand : Obligations.PerformIsTheCommand := by
  intro s n rest code i hi
  have hrun : ∀ u, exec i u = .next (runCommand n code (actCommand n code) u) := by
    rcases hi with ⟨rfl, rfl⟩ | ⟨rfl, rfl⟩ | ⟨rfl, rfl⟩ | ⟨rfl, rfl⟩ | ⟨rfl, rfl⟩ | ⟨rfl, rfl⟩ | ⟨rfl, rfl⟩
    all_goals exact fun _ => rfl
  refine ⟨fun hd => ?_, fun hprog hclear henv => ?_⟩
  · rw [hrun, runCommand_deferred hd]
  · have hcleared : { bank s n with inProgress := rest } = cleared { bank s n with inProgress := rest } :=
      congrArg (fun q : Socket => { q with inProgress := rest }) hclear
    rw [hrun, chipStep, performCommand_of_cons hprog]
    refine congrArg Host.Outcome.next (runCommand_of_cleared (bank_withBank ..) hcleared ?_ code _)
    exact henv

/-! Bytes that arrive -/

section arrived

variable {c : Cfg} {n : SockIdx} {size : Nat} {base q : Half} {data : List Byte} {m : List Host.Cell}

/-- R293: arriving bytes leave every cell alone that is not of their positions. -/
theorem read_storeArrived_other {a : Nat} (hm : Memory.wf m = true)
    (ha : ∀ i, i < data.length → a ≠ rxStoreKey c n size base (q + BitVec.ofNat 16 i)) :
    Memory.read (storeArrived c n size base q data m) a = Memory.read m a := by
  induction data generalizing q m with
  | nil => rfl
  | cons v rest ih =>
    have hfirst := ha 0 (Nat.succ_pos _)
    rw [off_zero] at hfirst
    refine (ih (Memory.write_wf hm) fun i hi => ?_).trans (Memory.read_write_other hfirst hm)
    rw [add_right_comm, off_succ]
    exact ha (i + 1) (Nat.succ_lt_succ hi)

/-- R293: arriving bytes whose positions have cells of their own stand in those cells. -/
theorem read_storeArrived (hm : Memory.wf m = true)
    (hinj : ∀ i j, i < data.length → j < data.length →
      rxStoreKey c n size base (q + BitVec.ofNat 16 i) = rxStoreKey c n size base (q + BitVec.ofNat 16 j) → i = j)
    {i : Nat} (hi : i < data.length) :
    Memory.read (storeArrived c n size base q data m) (rxStoreKey c n size base (q + BitVec.ofNat 16 i)) = data[i] := by
  induction data generalizing q m i with
  | nil => exact absurd hi (Nat.not_lt_zero i)
  | cons v rest ih =>
    have hnext : ∀ j, q + 1 + BitVec.ofNat 16 j = q + BitVec.ofNat 16 (j + 1) := fun j => by
      rw [add_right_comm, off_succ]
    cases i with
    | zero =>
      refine (read_storeArrived_other (Memory.write_wf hm) fun j hj he => ?_).trans ?_
      · rw [hnext] at he
        exact absurd (hinj 0 (j + 1) hi (Nat.succ_lt_succ hj) he) (Nat.succ_ne_zero j).symm
      · rw [off_zero]
        exact Memory.read_write_same hm
    | succ i =>
      rw [← hnext]
      refine ih (Memory.write_wf hm) (fun a b ha hb he => ?_) (Nat.lt_of_succ_lt_succ hi)
      rw [hnext, hnext] at he
      exact Nat.succ.inj (hinj _ _ (Nat.succ_lt_succ ha) (Nat.succ_lt_succ hb) he)

end arrived

/-- A sum of 16-bit values is their sum to any divisor of the address space. -/
theorem toNat_add_modEq {k : Nat} (hk : k ∣ 2 ^ 16) (a b : Half) : (a + b).toNat ≡ a.toNat + b.toNat [MOD k] := by
  rw [BitVec.toNat_add]
  exact Nat.mod_mod_of_dvd _ hk

theorem toNat_ofNat_modEq {k : Nat} (hk : k ∣ 2 ^ 16) (i : Nat) : (BitVec.ofNat 16 i).toNat ≡ i [MOD k] := by
  rw [BitVec.toNat_ofNat]
  exact Nat.mod_mod_of_dvd _ hk

/-- R99: wrapping or not, a cell is its offset modulo the buffer's size. -/
theorem bufCell_modEq (c : Cfg) (size : Nat) (off : Half) : bufCell c size off ≡ off.toNat [MOD size] := by
  rw [bufCell]
  cases c.bufAlias
  · rfl
  · exact Nat.mod_modEq ..

/-- R102: the cell of a receive position is the position, moved by the base, modulo the buffer's size. -/
theorem rxStoreKey_modEq (c : Cfg) (n : SockIdx) {size : BufSize} {base p r : Half}
    (h : rxStoreKey c n size.bytes base p = rxStoreKey c n size.bytes base r) : p.toNat ≡ r.toNat [MOD size.bytes] := by
  have hdvd := bufSize_bytes_dvd size
  have hcell : ∀ x : Half, bufCell c size.bytes (BitVec.ofNat 16 (x.toNat % size.bytes) + base) ≡
      x.toNat + base.toNat [MOD size.bytes] := fun x =>
    ((bufCell_modEq ..).trans (toNat_add_modEq hdvd ..)).trans
      (((toNat_ofNat_modEq hdvd _).trans (Nat.mod_modEq ..)).add_right _)
  have hsame := Nat.add_left_cancel h
  exact Nat.ModEq.add_right_cancel' base.toNat ((hcell p).symm.trans (hsame ▸ hcell r))

/-- R102: as many positions as the buffer has bytes have cells of their own. -/
theorem rxStoreKey_inj {c : Cfg} {n : SockIdx} {size : BufSize} {base p : Half} {i j : Nat} (hi : i < size.bytes)
    (hj : j < size.bytes) (h : rxStoreKey c n size.bytes base (p + BitVec.ofNat 16 i) =
      rxStoreKey c n size.bytes base (p + BitVec.ofNat 16 j)) : i = j := by
  have hdvd := bufSize_bytes_dvd size
  have hpos : ∀ k, (p + BitVec.ofNat 16 k).toNat ≡ p.toNat + k [MOD size.bytes] := fun k =>
    (toNat_add_modEq hdvd ..).trans ((toNat_ofNat_modEq hdvd k).add_left _)
  have hsum := ((hpos i).symm.trans (rxStoreKey_modEq c n h)).trans (hpos j)
  exact Nat.ModEq.eq_of_lt_of_lt (Nat.ModEq.add_left_cancel' p.toNat hsum) hi hj

/-- R94, R102: where the chip's size is the handle's, the receive address of a position names the cell where the chip
stores it. -/
theorem target_rxAddr {c : Cfg} {n : SockIdx} {size : BufSize} (hsize : c.chipRx.get n = size.bytes) (p : Half) :
    target c (rxBlk n) (rxAddr c n size p) = .cell (rxStoreKey c n (c.chipRx.get n) (chipRxBase c n) p) := by
  rw [target_rx, rxAddr_eq_mod, rxStoreKey, chipRxBase, hsize, bufSize_ofNat?_bytes]

/-- Settles O60: the cells of the positions are those of the receive addresses, each its own. -/
theorem arrivedBytesWhereReadLooks : Obligations.ArrivedBytesWhereReadLooks := by
  intro s n size data hm hsize hfits
  refine ⟨storeArrived s.cfg n (s.cfg.chipRx.get n) (chipRxBase s.cfg n) (bank s n).rxWr data s.chip.mem, rfl,
    storeArrived_wf hm, fun i hi => ?_, fun b o hother => ?_⟩
  · rw [peek_eq]
    show peekAt _ (target s.cfg _ _) = _
    rw [target_rxAddr hsize]
    refine congrArg some (read_storeArrived hm (fun i j hi hj he => ?_) hi)
    rw [hsize] at he
    exact rxStoreKey_inj (Nat.lt_of_lt_of_le hi hfits) (Nat.lt_of_lt_of_le hj hfits) he
  · simp only [target_rxAddr hsize] at hother
    rw [peek_eq, peek_eq]
    show peekAt _ (target s.cfg b o) = _
    cases ht : target s.cfg b o with
    | cell a =>
      rw [ht] at hother
      exact congrArg some (read_storeArrived_other hm fun i hi he => hother i hi (congrArg Target.cell he))
    | common r i => rfl
    | sock k r i => rfl
    | unnamed => rfl

end Sys2Proof.Proofs
end

section
/-! PROOFS. The statements of 60_exceptions.md: every operation ends with a result of its kind, by the values and errors
its sequence can end with; requests that are refused, before any transaction or after one status read. -/

namespace Sys2Proof.Proofs

open Sys2Proof.Machine Sys2Proof.Safety

/-! The result of an operation -/

/-- R11, R310: the state holds a result that the operation may give. -/
def Resulted (i : Instr) (t : State) : Prop := ∃ r, t.result = some r ∧ resultOf i r = true

/-- A sequence that ends with a value of the operation's kind or with one of its errors. -/
theorem resulted_finish {i : Instr} {r : Res OpValue} (hi : streamOp i = false)
    (h : r.Ends (fun v _ => valueOf i v = true) (errs (errorOf i))) : Resulted i (finish r) := by
  cases r with
  | ok v _ => exact ⟨_, rfl, h⟩
  | err e _ =>
    refine ⟨_, rfl, ?_⟩
    rw [resultOf, hi]
    exact h

/-- R240, R255: a stream operation gives its pair, or an error beside the count 0. -/
theorem resulted_stream {i : Instr} {r : Res (Nat × Option Err)}
    (h : r.Ends (fun p _ => pairOf i p.1 p.2 = true) fun e _ => pairOf i 0 (some e) = true) :
    Resulted i (finishStream r) := by
  cases r with
  | ok p _ => exact ⟨_, rfl, h⟩
  | err e _ => exact ⟨_, rfl, h⟩

theorem resulted_of {i : Instr} {t : State} {r : Res OpValue}
    (e : (Host.Outcome.next (finish r) : Host.Outcome State Fault Refusal) = .next t) (hi : streamOp i = false)
    (h : r.Ends (fun v _ => valueOf i v = true) (errs (errorOf i))) : Resulted i t := by
  cases e
  exact resulted_finish hi h

theorem resulted_unit {i : Instr} {r : Res Unit} (hi : streamOp i = false) (hv : valueOf i .unit = true)
    (h : r.Ends anyVal (errs (errorOf i))) : Resulted i (finish (r.andThen fun _ s => .ok .unit s)) :=
  resulted_finish hi (h.andThen fun _ _ _ => hv)

theorem resulted_onHandle {i : Instr} {s t : State} {h : Half} {f : Handle → State → State}
    (e : onHandle h f s = .next t) (hf : ∀ hd, Resulted i (f hd s)) : Resulted i t := by
  obtain ⟨hd, -, rfl⟩ := onHandle_next e
  exact hf hd

theorem resulted_sockNew {n : Nat} {sTx sRx : Option Nat} {s t : State}
    (e : exec (.sockNew n sTx sRx) s = .next t) : Resulted (.sockNew n sTx sRx) t := by
  cases hn : newHandle n sTx sRx with
  | ok hd =>
    rw [exec_sockNew_of_ok hn] at e
    cases e
    exact ⟨_, rfl, rfl⟩
  | error a =>
    rw [exec_sockNew_of_error hn] at e
    cases e
    exact ⟨_, rfl, rfl⟩

/-- R311, R212: every socket operation but Status issues a command and may end with the errors of its protocol. -/
theorem execOk_errorOf {i : Instr} {h : Half} (hi : handleNumber i = some h) (hst : i ≠ .sockStatus h) :
    ExecOk (errs (errorOf i)) := by
  cases i <;> cases hi
  case sockStatus => exact absurd rfl hst
  all_goals exact ⟨fun _ _ => rfl, fun _ _ => rfl, fun _ _ _ => rfl⟩

/-- R212, R217, R218: the operations that are the command protocol alone. -/
theorem resulted_command {i : Instr} {h : Half} (hi : handleNumber i = some h)
    (hstream : streamOp i = false) (hv : valueOf i .unit = true) (n : SockIdx) (code : Byte) (s : State) :
    Resulted i (finish ((execProtocol n code s).andThen fun _ s => .ok .unit s)) := by
  have hst : i ≠ .sockStatus h := by
    rintro rfl
    cases hv
  exact resulted_unit hstream hv (ends_execProtocol (execOk_errorOf hi hst) n code s)

/-! The pairs of the stream operations -/

theorem errorOf_sockRead (h : Half) (len : Nat) {e : Err} (he : execErr e = true) :
    errorOf (.sockRead h len) e = true := by
  cases e
  case endOfStream => rfl
  all_goals exact he

/-- R242: beside a count other than 0 stands an error of the command protocol, or none. -/
theorem pairOf_sockRead (h : Half) {len n : Nat} (hn : n ≤ len) {err : Option Err}
    (he : ∀ e, err = some e → (n = 0 ∧ e = .endOfStream) ∨ execErr e = true) :
    pairOf (.sockRead h len) n err = true := by
  cases err with
  | none => exact decide_eq_true hn
  | some e =>
    simp only [pairOf, Bool.and_eq_true, Bool.or_eq_true, decide_eq_true_eq, beq_iff_eq]
    rcases he e rfl with ⟨hzero, rfl⟩ | hexec
    · exact ⟨⟨rfl, hn⟩, .inl hzero⟩
    · exact ⟨⟨errorOf_sockRead h len hexec, hn⟩, .inr hexec⟩

theorem execErr_of_ioErr {e : Err} (h : ioErr e = true) : execErr e = true := by
  cases e
  case ioError => rfl
  all_goals cases h

theorem resulted_sockRead (h : Half) (hd : Handle) (len : Nat) (s : State) :
    Resulted (.sockRead h len) (finishStream (streamRead hd len s)) :=
  resulted_stream <| (ends_streamRead hd len s).mono (fun _ _ ⟨hn, he⟩ => pairOf_sockRead h hn he) fun _ _ he =>
    pairOf_sockRead h (Nat.zero_le len) fun _ heq => .inr (execErr_of_ioErr (Option.some.inj heq ▸ he))

theorem writeOk_errorOf (h : Half) (data : List Byte) : WriteOk (errs (errorOf (.sockWrite h data))) where
  toExecOk := execOk_errorOf rfl (by nofun)
  large _ _ _ := rfl
  closed _ _ := rfl
  ends _ := rfl
  waits _ _ _ := rfl
  lost _ := rfl

/-- R260: a Write gives its whole length, or an error beside the count 0. -/
theorem resulted_sockWrite (h : Half) (hd : Handle) (data : List Byte) (s : State) :
    Resulted (.sockWrite h data) (finishStream (streamWrite hd data s)) :=
  resulted_stream <| (ends_streamWrite (writeOk_errorOf h data) hd data s).mono
    (fun _ _ hp => hp ▸ beq_self_eq_true data.length) fun _ _ he => by
      simp only [pairOf, Bool.and_eq_true]
      exact ⟨he, rfl⟩

/-! Every operation -/

/-- R311: what an operation can end with, by the sequence that it is. -/
theorem exec_resulted {i : Instr} {s t : State} (hi : chipSide i = false) (e : exec i s = .next t) : Resulted i t := by
  cases i
  case sncrOpen | sncrListen | sncrConnect | sncrDiscon | sncrClose | sncrSend | sncrRecv | snmrTcp | snmrUdp => cases hi
  case spiRead | ctlRead | ctlGetIP | ctlGetGW | ctlGetSubnet | ctlGetMac =>
    exact resulted_of e rfl ((ends_memRead (fun _ _ => rfl) ..).andThen fun _ _ hlen => beq_iff_eq.mpr hlen)
  case spiWrite | ctlWrite | ctlWriteByte | ctlWrite16 | ctlSetIP | ctlSetGW | ctlSetSubnet | ctlSetMac =>
    exact resulted_of e rfl ((ends_memWrite (fun _ _ => rfl) ..).andThen fun _ _ _ => rfl)
  case ctlReadByte => exact resulted_of e rfl ((ends_readByte (fun _ _ => rfl) ..).andThen fun _ _ _ => rfl)
  case ctlRead16 => exact resulted_of e rfl ((ends_read16 (fun _ _ => rfl) ..).andThen fun _ _ _ => rfl)
  case ctlConfigure => exact resulted_of e rfl ((ends_configure s).andThen fun _ _ _ => rfl)
  case ctlSoftReset =>
    exact resulted_of e rfl ((ends_softReset (fun _ _ => rfl) (fun _ _ => rfl) s).andThen fun _ _ _ => rfl)
  case ctlVerifyId =>
    exact resulted_of e rfl ((ends_verifyIdentity (fun _ _ => rfl) (fun _ _ _ => rfl) s).andThen fun _ _ _ => rfl)
  case sockNew => exact resulted_sockNew e
  case sockStatus =>
    unfold exec execSockStatus at e
    exact resulted_onHandle e fun hd => resulted_finish rfl <|
      (ends_readStatus (fun _ _ => rfl) hd.n _).andThen fun _ _ _ => rfl
  case sockExec =>
    unfold exec execSockExec at e
    exact resulted_onHandle e fun hd => resulted_command rfl rfl rfl hd.n ..
  case sockOpen h p port =>
    unfold exec execSockOpen at e
    have hp (t : State) : errs (errorOf (.sockOpen h p port)) (.unsupportedProtocol p) t := beq_self_eq_true p
    exact resulted_onHandle e fun hd => resulted_unit rfl rfl <|
      ends_openSocket (execOk_errorOf rfl (by nofun)) hd p port hp s
  case sockListen =>
    unfold exec execSockListen at e
    exact resulted_onHandle e fun hd => resulted_unit rfl rfl <|
      ends_listen (execOk_errorOf rfl (by nofun)) (fun _ _ => rfl) hd.n s
  case sockConnect h ip port =>
    unfold exec execSockConnect at e
    exact resulted_onHandle e fun hd => resulted_unit rfl rfl <|
      ends_connect (execOk_errorOf rfl (by nofun)) (fun _ _ => rfl) (fun _ => rfl) (fun _ _ => rfl) hd.n ip port s
  case sockDisconnect =>
    unfold exec execSockDisconnect at e
    exact resulted_onHandle e fun hd => resulted_command rfl rfl rfl hd.n ..
  case sockClose =>
    unfold exec execSockClose at e
    exact resulted_onHandle e fun hd => resulted_command rfl rfl rfl hd.n ..
  case sockRead h len =>
    unfold exec execSockRead at e
    exact resulted_onHandle e fun hd => resulted_sockRead h hd len s
  case sockWrite h data =>
    unfold exec execSockWrite at e
    exact resulted_onHandle e fun hd => resulted_sockWrite h hd data s

/-- Settles O13: a command or mode byte changes the chip's side only; every other instruction is a sequence whose ends are
known. -/
theorem resultsAreTheOperations : Obligations.ResultsAreTheOperations := by
  intro i s t e
  split
  next hchip =>
    rcases exec_next e (opOk_true s i) with ⟨-, ⟨d, c, k, rfl⟩, -⟩ | ⟨hno, -⟩
    · rfl
    · rw [hchip] at hno
      cases hno
  next hchip => exact exec_resulted (Bool.eq_false_of_not_eq_true hchip) e

/-! The request a step takes -/

/-- Settles O5, by the one place where a step decodes. -/
theorem stepRunsDecoded : Obligations.StepRunsDecoded := fun _ _ _ _ hidle hreq hdec =>
  step_of_decode_ok hidle hreq hdec

/-- R325: a code outside R137's table is named in the error, whatever follows it. -/
theorem decodeHost_unknown {code : Byte}
    (h : code.toNat ∉ [0x01, 0x02, 0x03, 0x04, 0x05, 0x06, 0x10, 0x11, 0x12, 0x13, 0x14, 0x15, 0x16, 0x17, 0x20, 0x21,
      0x22, 0x30, 0x31, 0x32, 0x33, 0x34, 0x35, 0x36, 0x37, 0x40, 0x41]) (args : List Byte) :
    decodeHost (code :: args) = .error (.unknownOperation code) := by
  rw [decodeHost]
  split
  case h_28 => rfl
  all_goals
    rename_i hcode
    exact absurd h (by rw [hcode]; decide)

/-- Settles O8: the request does not decode, and the error is the result. -/
theorem unknownOperationRefused : Obligations.UnknownOperationRefused := fun _ _ args _ hidle hreq hcode =>
  step_of_decode_error hidle hreq (decodeHost_unknown hcode args)

/-! Refused before any transaction -/

theorem protocolMode_none {protocol : List Byte} (htcp : protocol ≠ [0x74#8, 0x63#8, 0x70#8])
    (hudp : protocol ≠ [0x75#8, 0x64#8, 0x70#8]) : protocolMode protocol = none := by
  rw [protocolMode, if_neg (c := protocol = protocolTcp) htcp, if_neg (c := protocol = protocolUdp) hudp]

theorem openSocket_unsupported {protocol : List Byte} (h : protocolMode protocol = none) (hd : Handle) (port : Half)
    (s : State) : openSocket hd protocol port s = .err (.unsupportedProtocol protocol) (goto .openSocket 1 s) := by
  simp only [openSocket, h]

/-- Settles O38: step 1 ends the Open. -/
theorem openUnsupportedProtocol : Obligations.OpenUnsupportedProtocol := by
  intro s h hd protocol port hh htcp hudp
  rw [exec, execSockOpen, onHandle_some hh, openSocket_unsupported (protocolMode_none htcp hudp)]
  rfl

/-- R256: the length test comes before the status read. -/
theorem streamWrite_tooLarge {hd : Handle} {data : List Byte} (h : hd.sTx.bytes < data.length) (s : State) :
    streamWrite hd data s =
      .err (.payloadTooLarge data.length hd.sTx.bytes) (setCnt data.length (goto .streamWrite 1 s)) :=
  if_pos h

/-- Settles O47: step 1 ends the Write. -/
theorem writeTooLarge : Obligations.WriteTooLarge := by
  intro s h hd data hh hlarge
  rw [exec_sockWrite hh, streamWrite_tooLarge hlarge]
  rfl

/-! Refused after one status read -/

/-- R211: the status read that starts an operation, after steps on sequencer and latches only. -/
theorem firstStatus_run {s : State} (hs : SockAnswers s) (n : SockIdx) (q : Sequencer) (l : Latches) :
    ∃ t, readStatus n ((s.setSeq q).setLat l) = .ok () t ∧
      Traced 1 [regRead s.cfg n .sr [(bank (chipTurn s) n).sr]] s t ∧ t.chip = (chipTurn s).chip ∧
      t.lat.st = (bank (chipTurn s) n).sr := by
  have hstart := ((Ran.refl s).setSeq q).setLat l
  obtain ⟨t, hrun, htr, hchip, hst, -, -⟩ := status_run (hs.after hstart) n (c := (chipTurn s).chip)
    (by rw [chipTurn_setLat, chipTurn_setSeq]; rfl)
  exact ⟨t, hrun, htr.precededBy hstart rfl, hchip, hst⟩

theorem listen_refuses {n : SockIdx} {s t : State} (hread : readStatus n (goto .listen 1 s) = .ok () t)
    (hst : t.lat.st ≠ t.cfg.status.init) : listen n s = .err (.invalidStateError t.lat.st) (goto .listen 2 t) :=
  (andThen_of_ok hread).trans (if_pos hst)

theorem connect_refuses {n : SockIdx} {s t : State} (hread : readStatus n (goto .connect 1 s) = .ok () t)
    (hst : t.lat.st ≠ t.cfg.status.init) (ip : Quad) (port : Half) :
    connect n ip port s = .err (.invalidStateError t.lat.st) (goto .connect 2 t) :=
  (andThen_of_ok hread).trans (if_pos hst)

/-- R215, R216: Listen and Connect read the status in step 1 and test it in step 2. -/
theorem exec_needsInit {s : State} {h : Half} {hd : Handle} {ip : Quad} {port : Half} {i : Instr}
    (hh : handleOf s h = some hd) (hi : i = .sockListen h ∨ i = .sockConnect h ip port) :
    ∃ op, ∀ t, readStatus hd.n (goto op 1 s) = .ok () t → t.lat.st ≠ t.cfg.status.init →
      exec i s = .next (complete (.failed (.invalidStateError t.lat.st)) (goto op 2 t)) := by
  rcases hi with rfl | rfl
  · refine ⟨.listen, fun t hread hst => ?_⟩
    rw [exec, execSockListen, onHandle_some hh, listen_refuses hread hst]
    rfl
  · refine ⟨.connect, fun t hread hst => ?_⟩
    rw [exec_sockConnect hh, connect_refuses hread hst]
    rfl

/-- Settles O40: the status that fails the test is the one in the chip's bank. -/
theorem listenConnectNeedInit : Obligations.ListenConnectNeedInit := by
  intro s h hd ip port i hs hdis hh hst hi
  obtain ⟨op, hexec⟩ := exec_needsInit hh hi
  obtain ⟨t, hread, htr, hchip, hlat⟩ := firstStatus_run ⟨hs, hdis⟩ hd.n (.running op 1 0) s.lat
  have hend := htr.goto op 2
  refine ⟨_, hexec t hread ?_, ?_, hchip, htr.out⟩
  · rw [hlat, htr.cfg]
    exact hst
  · rw [hlat]
    exact ended_of hend.toRan hend.cs _

/-- R257: a payload that fits, in a status a Write may not send in. -/
theorem streamWrite_refuses {hd : Handle} {data : List Byte} {s t : State} (hfits : data.length ≤ hd.sTx.bytes)
    (hread : readStatus hd.n (goto .streamWrite 2 (setCnt data.length (goto .streamWrite 1 s))) = .ok () t)
    (hst : ¬ MaySend t.cfg t.lat.st) : streamWrite hd data s = .err (.writeOnClosedSocket t.lat.st) t :=
  (if_neg (Nat.not_lt.mpr hfits)).trans <| (andThen_of_ok hread).trans (if_neg (maySend_iff.not.mpr hst))

/-- Settles O48: step 2 tests the status it has read. -/
theorem writeNeedsConnection : Obligations.WriteNeedsConnection := by
  intro s h hd data st hs hdis hh hfits hst hestablished hcloseWait
  subst hst
  obtain ⟨t, hread, htr, hchip, hlat⟩ :=
    firstStatus_run ⟨hs, hdis⟩ hd.n (.running .streamWrite 2 0) { s.lat with cnt := data.length }
  have hclosed : ¬ MaySend t.cfg t.lat.st := by
    rw [hlat, htr.cfg]
    exact not_or_intro hestablished hcloseWait
  refine ⟨_, ?_, ended_of htr.toRan htr.cs _, hchip, htr.out⟩
  rw [exec_sockWrite hh, streamWrite_refuses hfits hread hclosed, hlat]
  rfl

end Sys2Proof.Proofs
end
